-- ==== Sys2Proof/Word.lean ====
section
/-!
DEFINITION. The word types of PGM-RSFEC and the type of a matrix of field elements.
-/

namespace Sys2Proof

/-- A byte; read as an element of GF(2^8) where a rule says so (`00_scope.md` R6). -/
abbrev Byte := BitVec 8

/-- A command word on the command port (`30_encoding.md` R60). -/
abbrev Word := BitVec 32

/-- A byte address of data memory (`20_memory.md` R40). -/
abbrev Addr := BitVec 24

/-- A length in bytes: the width of `L` and of each `BLEN[i]` (`00_scope.md` R5, `LW`). -/
abbrev Len := BitVec 16

/-- A matrix of field elements with `n` rows and `m` columns, numbered from 0 (`41_matrix_builder.md` R107). -/
abbrev Mat (n m : Nat) := Vector (Vector Byte m) n

end Sys2Proof
end

