-- ==== Sys2Proof/Syntax.lean ====
section
/-!
DEFINITION. The 21 commands of `30_encoding.md` R63, one constructor each. An operand that is a field element is a byte;
every other operand is an unsigned integer (R64).
-/

namespace Sys2Proof

/-- One command with its operands, in the order of the operands column of `30_encoding.md` R63. -/
inductive Instr where
  /-- `NOP` (R120). -/
  | nop
  /-- `GFADD a, b` (R82). -/
  | gfadd (a b : Byte)
  /-- `GFSUB a, b` (R83). -/
  | gfsub (a b : Byte)
  /-- `GFMUL a, b` (R84). -/
  | gfmul (a b : Byte)
  /-- `GFDIV a, b`: a dividend, b divisor (R85). -/
  | gfdiv (a b : Byte)
  /-- `LOGRD a` (R86). -/
  | logrd (a : Byte)
  /-- `ALOGRD i`: the exponent i (R87). -/
  | alogrd (i : Nat)
  /-- `CREATE n, k` (R100). -/
  | create (n k : Nat)
  /-- `DESTROY` (R104). -/
  | destroy
  /-- `GMRD row, col` (R105). -/
  | gmrd (row col : Nat)
  /-- `SETL len` (R121). -/
  | setl (len : Nat)
  /-- `SETBLEN pos, len` (R122). -/
  | setblen (pos len : Nat)
  /-- `SETBASEA addr` (R123). -/
  | setbasea (addr : Nat)
  /-- `SETBASEB addr` (R124). -/
  | setbaseb (addr : Nat)
  /-- `SETOUT addr` (R125). -/
  | setout (addr : Nat)
  /-- `EMCLR` (R126). -/
  | emclr
  /-- `EMSET pos` (R127). -/
  | emset (pos : Nat)
  /-- `EMVAL pos` (R128). -/
  | emval (pos : Nat)
  /-- `ENCODE p`: the parity index p (R140). -/
  | encodeBlock (p : Nat)
  /-- `DECINL` (R150). -/
  | decinl
  /-- `DECAPP` (R151). -/
  | decapp
  deriving DecidableEq, Repr

/-- The mnemonic of `30_encoding.md` R63. -/
def Instr.mnemonic : Instr → String
  | .nop => "NOP"
  | .gfadd _ _ => "GFADD"
  | .gfsub _ _ => "GFSUB"
  | .gfmul _ _ => "GFMUL"
  | .gfdiv _ _ => "GFDIV"
  | .logrd _ => "LOGRD"
  | .alogrd _ => "ALOGRD"
  | .create _ _ => "CREATE"
  | .destroy => "DESTROY"
  | .gmrd _ _ => "GMRD"
  | .setl _ => "SETL"
  | .setblen _ _ => "SETBLEN"
  | .setbasea _ => "SETBASEA"
  | .setbaseb _ => "SETBASEB"
  | .setout _ => "SETOUT"
  | .emclr => "EMCLR"
  | .emset _ => "EMSET"
  | .emval _ => "EMVAL"
  | .encodeBlock _ => "ENCODE"
  | .decinl => "DECINL"
  | .decapp => "DECAPP"

end Sys2Proof
end

