-- ==== Sys2Proof/WellFormed.lean ====
section
/-!
DEFINITION. When a term of `Instr` is a command a word can carry: every integer operand fits its field
(`30_encoding.md` R61, R64). A narrower range is the command's own check, which raises a status (R64), and no part of
well-formedness.
-/

namespace Sys2Proof

/-- The integer operand `v` fits a byte field, `a` or `b` (R61). -/
def fitsByte (v : Nat) : Bool := decide (v < 2 ^ 8)

/-- The integer operand `v` fits `imm16` (R61). -/
def fitsImm16 (v : Nat) : Bool := decide (v < 2 ^ 16)

/-- The integer operand `v` fits `imm24` (R61). -/
def fitsImm24 (v : Nat) : Bool := decide (v < 2 ^ 24)

/-- Every integer operand fits its field; a field element always does. -/
def Instr.wellFormed : Instr → Bool
  | .nop => true
  | .gfadd _ _ => true
  | .gfsub _ _ => true
  | .gfmul _ _ => true
  | .gfdiv _ _ => true
  | .logrd _ => true
  | .alogrd i => fitsByte i
  | .create n k => fitsByte n && fitsByte k
  | .destroy => true
  | .gmrd row col => fitsByte row && fitsByte col
  | .setl len => fitsImm16 len
  | .setblen pos len => fitsByte pos && fitsImm16 len
  | .setbasea addr => fitsImm24 addr
  | .setbaseb addr => fitsImm24 addr
  | .setout addr => fitsImm24 addr
  | .emclr => true
  | .emset pos => fitsByte pos
  | .emval pos => fitsByte pos
  | .encodeBlock p => fitsByte p
  | .decinl => true
  | .decapp => true

end Sys2Proof
end

