-- ==== Sys2Proof/Decode.lean ====
section
/-!
DEFINITION. The decoder, a total function from 32-bit words (`30_encoding.md` R67), and after it the encoder.
-/

namespace Sys2Proof

/-! ## Fields and formats -/

/-- `op = cw[31:24]` (R61). -/
def opField (cw : Word) : Byte := cw.extractLsb' 24 8

/-- `a = cw[23:16]` (R61). -/
def aField (cw : Word) : Byte := cw.extractLsb' 16 8

/-- `b = cw[15:8]` (R61). -/
def bField (cw : Word) : Byte := cw.extractLsb' 8 8

/-- `imm16 = cw[15:0]` (R61). -/
def imm16Field (cw : Word) : Len := cw.extractLsb' 0 16

/-- `imm24 = cw[23:0]` (R61). -/
def imm24Field (cw : Word) : Addr := cw.extractLsb' 0 24

/-- The six formats of R62. -/
inductive Format where
  | Z
  | A
  | AB
  | I16
  | AI
  | I24
  deriving DecidableEq, Repr

/-- The bits that must be zero in a word of the format, as a mask (R62). -/
def Format.mustBeZero : Format → Word
  | .Z => 0x00FFFFFF#32
  | .A => 0x0000FFFF#32
  | .AB => 0x000000FF#32
  | .I16 => 0x00FF0000#32
  | .AI => 0x00000000#32
  | .I24 => 0x00000000#32

/-- One row of the opcode map: opcode, format, and the command its operand fields make. -/
structure Row where
  op : Byte
  format : Format
  make : Word → Instr

/-- The opcode map of R63, row by row. -/
def opcodeTable : List Row :=
  [ ⟨0x00#8, .Z, fun _ => .nop⟩,
    ⟨0x01#8, .AB, fun cw => .gfadd (aField cw) (bField cw)⟩,
    ⟨0x02#8, .AB, fun cw => .gfsub (aField cw) (bField cw)⟩,
    ⟨0x03#8, .AB, fun cw => .gfmul (aField cw) (bField cw)⟩,
    ⟨0x04#8, .AB, fun cw => .gfdiv (aField cw) (bField cw)⟩,
    ⟨0x08#8, .A, fun cw => .logrd (aField cw)⟩,
    ⟨0x09#8, .A, fun cw => .alogrd (aField cw).toNat⟩,
    ⟨0x10#8, .AB, fun cw => .create (aField cw).toNat (bField cw).toNat⟩,
    ⟨0x11#8, .Z, fun _ => .destroy⟩,
    ⟨0x12#8, .AB, fun cw => .gmrd (aField cw).toNat (bField cw).toNat⟩,
    ⟨0x20#8, .I16, fun cw => .setl (imm16Field cw).toNat⟩,
    ⟨0x21#8, .AI, fun cw => .setblen (aField cw).toNat (imm16Field cw).toNat⟩,
    ⟨0x22#8, .I24, fun cw => .setbasea (imm24Field cw).toNat⟩,
    ⟨0x23#8, .I24, fun cw => .setbaseb (imm24Field cw).toNat⟩,
    ⟨0x24#8, .I24, fun cw => .setout (imm24Field cw).toNat⟩,
    ⟨0x28#8, .Z, fun _ => .emclr⟩,
    ⟨0x29#8, .A, fun cw => .emset (aField cw).toNat⟩,
    ⟨0x2A#8, .A, fun cw => .emval (aField cw).toNat⟩,
    ⟨0x30#8, .A, fun cw => .encodeBlock (aField cw).toNat⟩,
    ⟨0x31#8, .Z, fun _ => .decinl⟩,
    ⟨0x32#8, .Z, fun _ => .decapp⟩ ]

/-! ## The decoder -/

/-- Why a word is no command. -/
inductive Illegal where
  /-- `op` is none of the 21 assigned values (R66). -/
  | unassignedOpcode
  /-- A bit its format requires to be zero is 1 (R65). -/
  | reservedBits
  deriving DecidableEq, Repr

/-- What a word decodes to. -/
inductive Decoded where
  | command (i : Instr)
  | illegal (why : Illegal)
  deriving DecidableEq, Repr

/-- R67: find the row of the word's opcode; if there is none, illegal; if the bits its format requires to be zero are
not all zero, illegal; otherwise that command with its operand fields. -/
def decode (cw : Word) : Decoded :=
  match opcodeTable.find? (fun row => row.op == opField cw) with
  | none => .illegal .unassignedOpcode
  | some row =>
    if cw &&& row.format.mustBeZero = 0#32 then .command (row.make cw) else .illegal .reservedBits

/-- The word that a row of `opcode_table.json` with `nbits` bits lays out from the number `w`: a command word is a
32-bit value on the port and no bytes in memory (R60, `20_memory.md` R42), so its bits are numbered as the table
numbers them; the bits above `nbits` are zero. -/
def tableWord (nbits w : Nat) : Word := BitVec.ofNat 32 (w % 2 ^ nbits)

/-- The instruction the decoder reads from an opcode-table word. -/
def decodeTableWord (nbits w : Nat) : Option Instr :=
  match decode (tableWord nbits w) with
  | .command i => some i
  | .illegal _ => none

/-! ## The encoder -/

/-- A word of format Z, A or AB: `op`, `a`, `b` and a zero `c` (R61). -/
def wordAB (op a b : Byte) : Word := op ++ a ++ b ++ (0#8)

/-- A word of format I16 or AI: `op`, `a`, `imm16` (R61). -/
def wordAI (op a : Byte) (imm : Len) : Word := op ++ a ++ imm

/-- A word of format I24: `op`, `imm24` (R61). -/
def wordI24 (op : Byte) (imm : Addr) : Word := op ++ imm

/-- The word of a well-formed command, from R61 to R63. -/
def encode : Instr → Word
  | .nop => wordAB 0x00#8 0#8 0#8
  | .gfadd a b => wordAB 0x01#8 a b
  | .gfsub a b => wordAB 0x02#8 a b
  | .gfmul a b => wordAB 0x03#8 a b
  | .gfdiv a b => wordAB 0x04#8 a b
  | .logrd a => wordAB 0x08#8 a 0#8
  | .alogrd i => wordAB 0x09#8 (BitVec.ofNat 8 i) 0#8
  | .create n k => wordAB 0x10#8 (BitVec.ofNat 8 n) (BitVec.ofNat 8 k)
  | .destroy => wordAB 0x11#8 0#8 0#8
  | .gmrd row col => wordAB 0x12#8 (BitVec.ofNat 8 row) (BitVec.ofNat 8 col)
  | .setl len => wordAI 0x20#8 0#8 (BitVec.ofNat 16 len)
  | .setblen pos len => wordAI 0x21#8 (BitVec.ofNat 8 pos) (BitVec.ofNat 16 len)
  | .setbasea addr => wordI24 0x22#8 (BitVec.ofNat 24 addr)
  | .setbaseb addr => wordI24 0x23#8 (BitVec.ofNat 24 addr)
  | .setout addr => wordI24 0x24#8 (BitVec.ofNat 24 addr)
  | .emclr => wordAB 0x28#8 0#8 0#8
  | .emset pos => wordAB 0x29#8 (BitVec.ofNat 8 pos) 0#8
  | .emval pos => wordAB 0x2A#8 (BitVec.ofNat 8 pos) 0#8
  | .encodeBlock p => wordAB 0x30#8 (BitVec.ofNat 8 p) 0#8
  | .decinl => wordAB 0x31#8 0#8 0#8
  | .decapp => wordAB 0x32#8 0#8 0#8

end Sys2Proof
end

