-- ==== Sys2Proof/Config.lean ====
section
/-!
DEFINITION. What is fixed for the machine: the parameters of `00_scope.md` R5 at the values the spec takes, and the
free values.
-/

namespace Sys2Proof.Config

/-- `POLY`, the primitive polynomial of degree 8; bit i is the coefficient of x^i (`00_scope.md` R5).
PRESUMED (log entry 6): the spec itself takes the value from general knowledge (D1, K1). -/
def poly : BitVec 9 := 0x11D#9

/-- `ELEM(i)`, the field element of matrix row i: i + 1 (`00_scope.md` R5; log entry 6). -/
def elem (i : Nat) : Byte := BitVec.ofNat 8 (i + 1)

/-- `MEM_BYTES`, the size of data memory in bytes (`00_scope.md` R5; log entry 6). -/
def memBytes : Nat := 2 ^ 24

/-- FREE VALUE (log entry 3): what a byte of `DMEM` holds before anybody wrote it, by address. The spec: "any value"
(`93_implementation_defined.md` U3, `10_state.md` R28). It has no body, so nothing can be proved of it. -/
opaque dmemInit : Nat → Byte

end Sys2Proof.Config
end

