-- ==== Sys2Proof/Machine/State.lean ====
section
/-!
DEFINITION. Every piece of state the spec gives the machine (`10_state.md` R10), as plain data, and the state after
reset.
-/

namespace Sys2Proof.Machine

/-- Data memory `DMEM`: the bytes somebody wrote, by strictly rising address (log entry 3). A byte nobody wrote is not
listed and holds no value of its own (`10_state.md` R28). -/
abbrev Memory := List Host.Cell

/-- The field tables. `alog[i]` is `ALOG[i]` for i = 0..254 (`10_state.md` R20); `log[j]` is `LOG[j + 1]` for
j = 0..254: the domain of `LOG` is 1..255, since `LOG[0]` holds no value (R21; log entry 5). -/
structure Tables where
  alog : Vector Byte 255
  log : Vector Byte 255
  deriving DecidableEq, Repr

/-- The code descriptor: `N`, `K` and the N by K generator matrix `GM` (`10_state.md` R16, R17). -/
structure Descriptor where
  n : Byte
  k : Byte
  gm : Mat n.toNat k.toNat
  deriving DecidableEq, Repr

/-- What the host can do between two commands (`70_reset_and_hazards.md` R201). -/
inductive HostAction where
  /-- Present a command word on the command port. -/
  | command (cw : Word)
  /-- Write one byte of `DMEM`. -/
  | write (addr : Addr) (v : Byte)
  /-- Read one byte of `DMEM`. -/
  | read (addr : Addr)
  /-- Assert the reset input (`70_reset_and_hazards.md` R190). -/
  | reset
  deriving DecidableEq, Repr

/-- The whole state of `10_state.md` R10, and two fields of the model's own, `port` and `readData`. -/
structure State where
  /-- `STATUS` (R13). -/
  status : Byte
  /-- `RESULT` (R14). -/
  result : Byte
  /-- `FATAL` (R15). -/
  fatal : Bool
  /-- `LOG` and `ALOG`, absent until the build (R25, R28). `TBL_READY` is whether they are present (log entry 5). -/
  tables : Option Tables
  /-- `N`, `K` and `GM`, absent without a descriptor (R28). `DESC_VALID` is whether they are present (log entry 4). -/
  desc : Option Descriptor
  /-- `L` (R18). -/
  len : Len
  /-- `BLEN[0..254]` (R19). -/
  blen : Vector Len 255
  /-- `BASE_A` (R22). -/
  baseA : Addr
  /-- `BASE_B` (R22). -/
  baseB : Addr
  /-- `OUT_BASE` (R22). -/
  outBase : Addr
  /-- `EMAP[0..254]`; true is erased (R23). -/
  emap : Vector Bool 255
  /-- `DMEM` (R24). -/
  dmem : Memory
  /-- The MODEL's own: the host actions not yet taken, the next one first (log entry 1). -/
  port : List HostAction
  /-- The MODEL's own: the byte returned for the host's last `DMEM` read (log entry 2). -/
  readData : Byte
  deriving DecidableEq, Repr

/-- `DESC_VALID` (`10_state.md` R15): a code descriptor exists. -/
def State.descValid (s : State) : Bool := s.desc.isSome

/-- `TBL_READY` (`10_state.md` R15, R25): the tables have been built. -/
def State.tblReady (s : State) : Bool := s.tables.isSome

/-- Why a step can stop with a fault. An error of a command is none: it is a next state with a non-zero `STATUS`
(`60_exceptions.md`). -/
inductive Fault where
  /-- Raised by a HOST read or write of a byte at or above `MEM_BYTES`, which does not exist (`20_memory.md` R40, R41);
  no command raises it. Safe: the model stops (log entry 12). -/
  | noSuchByte (addr : Addr)
  deriving DecidableEq, Repr

/-- Why a step can be refused. -/
inductive Refusal where
  /-- An instruction without a meaning yet, by its mnemonic; exec's own, and no arm of exec uses it. Safe: the model
  stops. -/
  | notModelled (mnemonic : String)
  deriving DecidableEq, Repr

/-- The answer of a step or of a meaning. -/
abbrev Answer := Host.Outcome State Fault Refusal

/-- The machine right after reset (`10_state.md` R29), with no memory byte listed and no host action pending. -/
def State.reset : State where
  status := 0x00#8
  result := 0x00#8
  fatal := false
  tables := none
  desc := none
  len := 0#16
  blen := Vector.replicate 255 0#16
  baseA := 0#24
  baseB := 0#24
  outBase := 0#24
  emap := Vector.replicate 255 false
  dmem := []
  port := []
  readData := 0x00#8

end Sys2Proof.Machine
end

