-- ==== Sys2Proof/Machine/Tabulate.lean ====
section
/-!
DEFINITION. Tables and matrices given by their entries, by structural recursion, so that the kernel can evaluate them.
-/

namespace Sys2Proof.Machine

/-- The list `f 0, f 1, ..., f (n-1)`. -/
def tabulate {α : Type} : (n : Nat) → (Fin n → α) → List α
  | 0, _ => []
  | n + 1, f => f 0 :: tabulate n (fun i => f i.succ)

/-- `tabulate n f` has n entries. -/
@[simp] theorem length_tabulate {α : Type} : ∀ (n : Nat) (f : Fin n → α), (tabulate n f).length = n
  | 0, _ => rfl
  | n + 1, f => by simp [tabulate, length_tabulate n]

/-- The vector with entry `f i` at i. -/
def vectorOf {α : Type} (n : Nat) (f : Fin n → α) : Vector α n := ⟨⟨tabulate n f⟩, by simp⟩

/-- The matrix with entry `f i j` in row i, column j. -/
def matrixOf {n m : Nat} (f : Fin n → Fin m → Byte) : Mat n m := vectorOf n fun i => vectorOf m (f i)

/-- `M[i][j]` (`41_matrix_builder.md` R107). -/
def entry {n m : Nat} (M : Mat n m) (i : Fin n) (j : Fin m) : Byte := M[i][j]

/-- `XOR over j=0..n-1 of f(j)`; 0 when the range is empty (`00_scope.md` R6). -/
def xorSum : (n : Nat) → (Fin n → Byte) → Byte
  | 0, _ => 0#8
  | n + 1, f => xorSum n (fun j => f j.castSucc) ^^^ f (Fin.last n)

end Sys2Proof.Machine
end

