-- ==== Sys2Proof/Machine/Field.lean ====
section
/-!
DEFINITION. The field tables and the pure functions of the Field Engine (`10_state.md` R20, R21; `40_field_engine.md`
R80 to R89).
-/

namespace Sys2Proof.Machine

/-! ## The tables -/

/-- One turn of R20's loop: `v * 2` as a 9-bit value, back to 8 bits by `xor POLY` when bit 8 is 1. -/
def timesX (poly : BitVec 9) (v : Byte) : Byte :=
  let w : BitVec 9 := v.setWidth 9 <<< 1
  (if w.getLsbD 8 then w ^^^ poly else w).setWidth 8

/-- The next n values of R20's loop, from v on. -/
def alogFrom (poly : BitVec 9) : Nat → Byte → List Byte
  | 0, _ => []
  | n + 1, v => v :: alogFrom poly n (timesX poly v)

/-- `alogFrom` gives as many values as it is asked for. -/
@[simp] theorem length_alogFrom (poly : BitVec 9) : ∀ n v, (alogFrom poly n v).length = n
  | 0, _ => rfl
  | n + 1, v => by simp [alogFrom, length_alogFrom poly n]

/-- The table build of `10_state.md` R25: `ALOG` by R20, and `LOG[a]` by R21 as the index i with `ALOG[i] = a`, which is
unique because `POLY` is primitive. -/
def buildTables (poly : BitVec 9) : Tables where
  alog := ⟨⟨alogFrom poly 255 0x01#8⟩, by simp⟩
  log := vectorOf 255 fun j =>
    BitVec.ofNat 8 ((alogFrom poly 255 0x01#8).findIdx (fun v => v == BitVec.ofNat 8 (j.val + 1)))

/-- The tables of this machine: the build for its `POLY`. -/
def builtTables : Tables := buildTables Config.poly

/-- `LOG[a]`, which only a non-zero byte has (R21). -/
def logOf (t : Tables) (a : Byte) (ha : a ≠ 0#8) : Byte :=
  t.log[a.toNat - 1]'(by have := a.isLt; have : a.toNat ≠ 0 := fun h => ha (BitVec.eq_of_toNat_eq h); omega)

/-- `ALOG[i mod 255]` (`40_field_engine.md` R89). -/
def alogMod (t : Tables) (i : Nat) : Byte := t.alog[i % 255]'(Nat.mod_lt i (by decide))

/-! ## Field arithmetic -/

/-- `gfadd(a, b) = a xor b` (R82). -/
def gfadd (a b : Byte) : Byte := a ^^^ b

/-- `GFSUB`'s function, `a xor b` (R83). -/
def gfsub (a b : Byte) : Byte := a ^^^ b

/-- `gfmul(a, b)`: 0 if a = 0 or b = 0, else `ALOG[(LOG[a] + LOG[b]) mod 255]` (R84). -/
def gfmul (t : Tables) (a b : Byte) : Byte :=
  if ha : a = 0#8 then 0#8
  else if hb : b = 0#8 then 0#8
  else alogMod t ((logOf t a ha).toNat + (logOf t b hb).toNat)

/-- `gfdiv(a, b)` for b ≠ 0, where alone it is defined: 0 if a = 0, else `ALOG[(LOG[a] - LOG[b] + 255) mod 255]`; the
exact integer is never negative (R85, R89). -/
def gfdiv (t : Tables) (a b : Byte) (hb : b ≠ 0#8) : Byte :=
  if ha : a = 0#8 then 0#8
  else alogMod t ((logOf t a ha).toNat + 255 - (logOf t b hb).toNat)

/-- `gfpow(e, j)`: e multiplied by itself j times (`41_matrix_builder.md` R102). -/
def gfpow (t : Tables) (e : Byte) : Nat → Byte
  | 0 => 0x01#8
  | j + 1 => gfmul t (gfpow t e j) e

end Sys2Proof.Machine
end

