-- ==== Sys2Proof/Machine/Matrix.lean ====
section
/-!
DEFINITION. The matrix functions of `41_matrix_builder.md`: `matmul`, `matinv`, `build_gm` (R101 to R107).
-/

namespace Sys2Proof.Machine

/-- `matmul(A, B)` (R107). -/
def matmul (t : Tables) {p q s : Nat} (A : Mat p q) (B : Mat q s) : Mat p s :=
  matrixOf fun r c => xorSum q fun u => gfmul t (entry A r u) (entry B u c)

/-- `I_k`: 0x01 on the diagonal, 0x00 elsewhere (R107). -/
def identity (k : Nat) : Mat k k := matrixOf fun r c => if r = c then 0x01#8 else 0x00#8

/-! ## Inversion by Gauss-Jordan elimination (R103) -/

/-- `W = [ M | I_k ]`: k rows, 2k columns. -/
def augmented {k : Nat} (M : Mat k k) : Mat k (k + k) :=
  matrixOf fun r u => Fin.addCases (entry M r) (entry (identity k) r) u

/-- The right half of W: columns k .. 2k-1. -/
def rightHalf {k : Nat} (W : Mat k (k + k)) : Mat k k := matrixOf fun r u => entry W r (Fin.natAdd k u)

/-- The smallest r with c <= r < k and `W[r][u] != 0`. -/
def pivotRow {k m : Nat} (W : Mat k m) (c : Fin k) (u : Fin m) : Option (Fin k) :=
  (List.finRange k).find? fun r => decide (c ≤ r) && decide (entry W r u ≠ 0#8)

/-- A pivot is not zero. -/
theorem pivotRow_ne_zero {k m : Nat} {W : Mat k m} {c p : Fin k} {u : Fin m} (h : pivotRow W c u = some p) :
    entry W p u ≠ 0#8 := by
  have := List.find?_some h
  simp at this
  exact this.2

/-- Swap rows c and p of W. -/
def swapRows {k m : Nat} (W : Mat k m) (c p : Fin k) : Mat k m :=
  matrixOf fun r u => entry W (if r = c then p else if r = p then c else r) u

/-- Divide every entry of row c by d. -/
def scaleRow (t : Tables) {k m : Nat} (W : Mat k m) (c : Fin k) (d : Byte) (hd : d ≠ 0#8) : Mat k m :=
  matrixOf fun r u => if r = c then gfdiv t (entry W r u) d hd else entry W r u

/-- For every other row r with `f = W[r][v] != 0`, add f times row c to it. -/
def clearColumn (t : Tables) {k m : Nat} (W : Mat k m) (c : Fin k) (v : Fin m) : Mat k m :=
  matrixOf fun r u =>
    if r = c then entry W r u
    else if entry W r v = 0#8 then entry W r u
    else gfadd (entry W r u) (gfmul t (entry W r v) (entry W c u))

/-- One turn of R103's loop, for column c; none is `singular`. -/
def gaussColumn (t : Tables) {k : Nat} (c : Fin k) (W : Mat k (k + k)) : Option (Mat k (k + k)) :=
  match hp : pivotRow W c (Fin.castAdd k c) with
  | none => none
  | some p =>
    some (clearColumn t
      (scaleRow t (swapRows W c p) c (entry W p (Fin.castAdd k c)) (pivotRow_ne_zero hp)) c (Fin.castAdd k c))

/-- The turns for columns 0 .. c-1. -/
def gaussColumns (t : Tables) {k : Nat} : (c : Nat) → c ≤ k → Mat k (k + k) → Option (Mat k (k + k))
  | 0, _, W => some W
  | c + 1, h, W => (gaussColumns t c (Nat.le_of_succ_le h) W).bind (gaussColumn t ⟨c, h⟩)

/-- `matinv(M)` (R103); none is `singular`. -/
def matinv (t : Tables) {k : Nat} (M : Mat k k) : Option (Mat k k) :=
  (gaussColumns t k (Nat.le_refl k) (augmented M)).map rightHalf

/-! ## The generator matrix (R101) -/

/-- `V[i][j] = gfpow(ELEM(i), j)`. -/
def vandermonde (t : Tables) (elem : Nat → Byte) (n k : Nat) : Mat n k :=
  matrixOf fun i j => gfpow t (elem i) j

/-- Rows 0..k-1 of V. -/
def topRows {n k : Nat} (h : k ≤ n) (V : Mat n k) : Mat k k := matrixOf fun i j => entry V (Fin.castLE h i) j

/-- `build_gm(n, k)`: V times the inverse of its own top k x k block; none where that inversion met `singular`. -/
def buildGm (t : Tables) (elem : Nat → Byte) (n k : Nat) (h : k ≤ n) : Option (Mat n k) :=
  (matinv t (topRows h (vandermonde t elem n k))).map fun Ti => matmul t (vandermonde t elem n k) Ti

end Sys2Proof.Machine
end

