-- ==== Sys2Proof/Machine/Flags.lean ====
section
/-!
DEFINITION. The response registers: every value `STATUS` can take (`60_exceptions.md` R170) and the one operation that
writes `STATUS` and `RESULT`. There are no condition codes to compute (`10_state.md` R15).
-/

namespace Sys2Proof.Machine

/-- The statuses of `60_exceptions.md` R170. -/
inductive Status where
  | ok
  | invalidParameters
  | invalidLength
  | lengthMismatch
  | invalidIndex
  | unrecoverableErasure
  | singularMatrix
  | divisionByZero
  | illegalCommand
  | noDescriptor
  | descriptorBusy
  | addressRange
  | bufferOverlap
  | halted
  deriving DecidableEq, Repr

/-- The code column of `60_exceptions.md` R170. -/
def Status.code : Status → Byte
  | .ok => 0x00#8
  | .invalidParameters => 0x01#8
  | .invalidLength => 0x02#8
  | .lengthMismatch => 0x03#8
  | .invalidIndex => 0x04#8
  | .unrecoverableErasure => 0x05#8
  | .singularMatrix => 0x06#8
  | .divisionByZero => 0x07#8
  | .illegalCommand => 0x10#8
  | .noDescriptor => 0x11#8
  | .descriptorBusy => 0x12#8
  | .addressRange => 0x13#8
  | .bufferOverlap => 0x14#8
  | .halted => 0x1F#8

/-- Write `STATUS` and `RESULT` together (`10_state.md` R13, R14). -/
def respond (x : Status) (v : Byte) (s : State) : State := { s with status := x.code, result := v }

/-- The response `{STATUS, RESULT}` that the core presents once a command has executed: 16 bits, `STATUS` in bits 15:8
(`30_encoding.md` R60). It stays there for the host to read until the next command's (`10_state.md` R13, R14). -/
def State.response (s : State) : BitVec 16 := s.status ++ s.result

end Sys2Proof.Machine
end

