-- ==== Sys2Proof/Machine/Ops.lean ====
section
/-!
DEFINITION. The shared operations: data memory, the end of a command with and without an error, the common prologue, the
lazy table build, and what the host does between commands.
-/

namespace Sys2Proof.Machine

/-! ## Data memory (`20_memory.md` R40 to R44) -/

/-- The byte somebody wrote at address a, if there is one. -/
def Memory.lookup : Memory → Nat → Option Byte
  | [], _ => none
  | (b, v) :: m, a => if a = b then some v else Memory.lookup m a

/-- `MemRead(a, 1)` (R41): the last byte written there, or the free value of a byte nobody wrote (log entry 3). -/
def Memory.read (m : Memory) (a : Nat) : Byte := (Memory.lookup m a).getD (Config.dmemInit a)

/-- `MemWrite(a, 1, v)` (R41), in the canonical form. -/
def Memory.write : Memory → Nat → Byte → Memory
  | [], a, v => [(a, v)]
  | (b, w) :: m, a, v =>
    if a < b then (a, v) :: (b, w) :: m else if a = b then (a, v) :: m else (b, w) :: Memory.write m a v

/-- The canonical form: addresses strictly rising, every one below `MEM_BYTES`. -/
def Memory.wf (m : Memory) : Bool :=
  decide (m.Pairwise fun c d => c.1 < d.1) && m.all fun c => decide (c.1 < Config.memBytes)

/-- Write the bytes `f 0 .. f (len-1)` at base .. base+len-1. -/
def Memory.writeBlock (m : Memory) (base : Nat) : Nat → (Nat → Byte) → Memory
  | 0, _ => m
  | len + 1, f => Memory.write (Memory.writeBlock m base len f) (base + len) (f len)

/-! ## How a command ends (`60_exceptions.md` R172) -/

/-- `done(v)`: STATUS `0x00`, RESULT v (`00_scope.md` R7). -/
def done (v : Byte) (s : State) : State := respond .ok v s

/-- `raise x`, this hardware's exception: STATUS the code of x, RESULT `0x00`, and no other change of state (R172,
R175). There is no trap entry to model and no return (R178, R179). -/
def raise (x : Status) (s : State) : State := respond x 0x00#8 s

/-- `FATAL <- 1; raise SingularMatrix` (R177). -/
def raiseSingular (s : State) : State := raise .singularMatrix { s with fatal := true }

/-- The part of the common prologue of `60_exceptions.md` R171 that every command shares: while `FATAL = 1` it answers
`Halted`; else the command's own rule runs. -/
def prologue (own : State → State) (s : State) : State := if s.fatal then raise .halted s else own s

/-! ## The lazy table build (`10_state.md` R25) -/

/-- The tables a command reads. A command that needs a descriptor finds them built; in a state no run reaches, with a
descriptor and no tables, it reads the values the build gives (log entry 5). -/
def State.tablesNow (s : State) : Tables := s.tables.getD builtTables

/-- Build the tables if `TBL_READY = 0`. -/
def ensureTables (s : State) : State := { s with tables := some s.tablesNow }

/-! ## What the host does between commands (`70_reset_and_hazards.md` R190, R201) -/

/-- The next host action, taken off the port; none when the host presents nothing. -/
def takeAction (s : State) : Option (HostAction × State) :=
  match s.port with
  | [] => none
  | act :: rest => some (act, { s with port := rest })

/-- The host writes one byte of `DMEM`. -/
def hostWrite (a : Addr) (v : Byte) (s : State) : Answer :=
  if a.toNat < Config.memBytes then .next { s with dmem := Memory.write s.dmem a.toNat v } else .fault (.noSuchByte a)

/-- The host reads one byte of `DMEM`; a read has no side effect on `DMEM` (`20_memory.md` R44). -/
def hostRead (a : Addr) (s : State) : Answer :=
  if a.toNat < Config.memBytes then .next { s with readData := Memory.read s.dmem a.toNat } else .fault (.noSuchByte a)

/-- The reset input (R190): every register, flag and file to its value of `10_state.md` R29; `DMEM` untouched. The
model's own fields are the host's side and stay (log entry 7). -/
def resetInput (s : State) : State := { State.reset with dmem := s.dmem, port := s.port, readData := s.readData }

end Sys2Proof.Machine
end

