-- ==== Sys2Proof/Machine/Operands.lean ====
section
/-!
DEFINITION. The operand registers and what the data commands derive from them: block addresses, regions and the range
and overlap checks (`10_state.md` R18 to R23; `20_memory.md` R48 to R54).
-/

namespace Sys2Proof.Machine

/-! ## Logical positions -/

/-- A logical position below an 8-bit count is an index of the 255-entry files. -/
def posBelow (n : Byte) (i : Fin n.toNat) : Fin 255 := ⟨i.val, by have := n.isLt; have := i.isLt; omega⟩

/-- `BLEN[i]` for a position i below n. -/
def blenAt (s : State) {n : Byte} (i : Fin n.toNat) : Len := s.blen[posBelow n i]

/-- `EMAP[i]` for a position i below n; true is erased. -/
def erasedAt (s : State) {n : Byte} (i : Fin n.toNat) : Bool := s.emap[posBelow n i]

/-! ## Regions -/

/-- A region (start, length) of byte addresses, exact integers (`20_memory.md` R48, R54). -/
structure Region where
  start : Nat
  length : Nat
  deriving DecidableEq, Repr

/-- `len = 0` or `s + len <= MEM_BYTES` (R52). -/
def Region.inRange (memBytes : Nat) (r : Region) : Bool :=
  decide (r.length = 0) || decide (r.start + r.length ≤ memBytes)

/-- R53: both regions non-empty, and each starts before the other ends. -/
def Region.overlaps (r q : Region) : Bool :=
  decide (0 < r.length) && decide (0 < q.length) && decide (r.start < q.start + q.length)
    && decide (q.start < r.start + r.length)

/-- The address a is one of the region's. -/
def Region.contains (r : Region) (a : Nat) : Bool := decide (r.start ≤ a) && decide (a < r.start + r.length)

/-! ## Block layouts -/

/-- `addr_inl(i) = BASE_A + i*L` (R49). -/
def addrInl (s : State) (i : Nat) : Nat := s.baseA.toNat + i * s.len.toNat

/-- `addr_app(i)`: `BASE_A + i*L` in the source region, `BASE_B + (i-K)*L` in the parity region (R50). -/
def addrApp (k : Byte) (s : State) (i : Nat) : Nat :=
  if i < k.toNat then s.baseA.toNat + i * s.len.toNat else s.baseB.toNat + (i - k.toNat) * s.len.toNat

/-- `addr_src(j) = BASE_A + j*L` (R51). -/
def addrSrc (s : State) (j : Nat) : Nat := s.baseA.toNat + j * s.len.toNat

/-- `RA_inl = (BASE_A, N*L)` (R49). -/
def regionInl (d : Descriptor) (s : State) : Region := ⟨s.baseA.toNat, d.n.toNat * s.len.toNat⟩

/-- `RA_app = (BASE_A, K*L)`, and R51's `RS_enc`, the same region (R50, R51). -/
def regionSources (d : Descriptor) (s : State) : Region := ⟨s.baseA.toNat, d.k.toNat * s.len.toNat⟩

/-- `RB_app = (BASE_B, (N-K)*L)` (R50). -/
def regionParity (d : Descriptor) (s : State) : Region :=
  ⟨s.baseB.toNat, (d.n.toNat - d.k.toNat) * s.len.toNat⟩

/-- `RO_enc = (OUT_BASE, L)` (R51). -/
def regionOut (s : State) : Region := ⟨s.outBase.toNat, s.len.toNat⟩

/-! ## One byte of a block from a row of coefficients -/

/-- `XOR over j=0..k-1 of gfmul(row[j], MemRead(addr(j) + b, 1))`: byte b of the block that ENCODE writes
(`43_encoder.md` R140) and of a block a decode reconstructs (`44_decoder.md` R156). -/
def combinedByte (t : Tables) {k : Nat} (row : Fin k → Byte) (m : Memory) (addr : Fin k → Nat) (b : Nat) : Byte :=
  xorSum k fun j => gfmul t (row j) (Memory.read m (addr j + b))

end Sys2Proof.Machine
end

