-- ==== Sys2Proof/Machine/Decoder.lean ====
section
/-!
DEFINITION. The Decoder commands (`44_decoder.md`).
-/

namespace Sys2Proof.Machine

/-! ## Step 1: erasures (R153) -/

/-- E: the erased source positions, ascending. -/
def erasedSources (d : Descriptor) (s : State) : List (Fin d.k.toNat) :=
  (List.finRange d.k.toNat).filter fun j => erasedAt s j

/-- P: the surviving parity positions, ascending. -/
def survivingParity (d : Descriptor) (s : State) : List (Fin d.n.toNat) :=
  (List.finRange d.n.toNat).filter fun p => decide (d.k.toNat ≤ p.val) && !erasedAt s p

/-- `sub(e_t) = p_t`; none for a position that is not erased. -/
def substitute (d : Descriptor) (s : State) (j : Fin d.k.toNat) : Option (Fin d.n.toNat) :=
  ((erasedSources d s).zip (survivingParity d s)).lookup j

/-- `src(j)`: `sub(j)` if j is erased, else j (R154). -/
def sourceOf (d : Descriptor) (s : State) (j : Fin d.k.toNat) : Nat :=
  match substitute d s j with
  | some p => p.val
  | none => j.val

/-! ## Step 2: the decoding matrix (R154) -/

/-- D: row `sub(j)` of `GM` for an erased j, row j of the identity otherwise. -/
def decodingMatrix (d : Descriptor) (s : State) : Mat d.k.toNat d.k.toNat :=
  matrixOf fun j c =>
    match substitute d s j with
    | some p => entry d.gm p c
    | none => entry (identity d.k.toNat) j c

/-! ## Step 4: reconstruction (R156) -/

/-- `reconstruct(E, sub, Inv, addr)`: every read is of `DMEM` as it was before the command (`20_memory.md` R46;
log entry 9). -/
def reconstructedMemory (d : Descriptor) (addr : Nat → Nat) (inv : Mat d.k.toNat d.k.toNat) (s : State) : Memory :=
  (erasedSources d s).foldl
    (fun m (e : Fin d.k.toNat) => Memory.writeBlock m (addr e.val) s.len.toNat
      (combinedByte s.tablesNow (entry inv e) s.dmem fun j => addr (sourceOf d s j)))
    s.dmem

/-! ## The shared algorithm (R152) -/

/-- R157 row 2 negated: `BLEN[i] = L` for every valid position i below N. -/
def validLengthsAgree (d : Descriptor) (s : State) : Bool :=
  decide (∀ i : Fin d.n.toNat, erasedAt s i = false → blenAt s i = s.len)

/-- The two tests of R153: too many erased source positions, or too few surviving parity positions. -/
def unrecoverable (d : Descriptor) (s : State) : Bool :=
  decide (d.n.toNat - d.k.toNat < (erasedSources d s).length)
    || decide ((survivingParity d s).length < (erasedSources d s).length)

/-- Two of the regions overlap (`20_memory.md` R53); never so for one region. -/
def someOverlap (rs : List Region) : Bool := !decide (rs.Pairwise fun r q => r.overlaps q = false)

/-- Steps 2 to 4 of R152, once every check has passed. -/
def reconstructOwn (d : Descriptor) (addr : Nat → Nat) (s : State) : State :=
  if erasedSources d s = [] then done 0x00#8 s
  else
    match matinv s.tablesNow (decodingMatrix d s) with
    | none => raiseSingular s
    | some inv => done 0x00#8 { s with dmem := reconstructedMemory d addr inv s }

/-- `decode(addr, regions)` with its checks in the order of R152 and R157. -/
def decodeOwn (addr : Descriptor → State → Nat → Nat) (regions : Descriptor → State → List Region) (s : State) :
    State :=
  match s.desc with
  | none => raise .noDescriptor s
  | some d =>
    if ¬ validLengthsAgree d s then raise .lengthMismatch s
    else if unrecoverable d s then raise .unrecoverableErasure s
    else if ¬ (regions d s).all (Region.inRange Config.memBytes) then raise .addressRange s
    else if someOverlap (regions d s) then raise .bufferOverlap s
    else reconstructOwn d (addr d s) s

/-- R150: `DECINL`, the parity-inline layout. -/
def execDecinl (s : State) : Answer :=
  .next (prologue (decodeOwn (fun _ s => addrInl s) (fun d s => [regionInl d s])) s)

/-- R151: `DECAPP`, the parity-appended layout. -/
def execDecapp (s : State) : Answer :=
  .next (prologue (decodeOwn (fun d s => addrApp d.k s) (fun d s => [regionSources d s, regionParity d s])) s)

end Sys2Proof.Machine
end

