-- ==== Sys2Proof/Machine/Encoder.lean ====
section
/-!
DEFINITION. The Encoder command (`43_encoder.md`).
-/

namespace Sys2Proof.Machine

/-- R141 row 3 negated: `BLEN[j] = L` for every j in 0..K-1. -/
def sourceLengthsAgree (d : Descriptor) (s : State) : Bool := decide (∀ j : Fin d.k.toNat, blenAt s j = s.len)

/-- The data memory after a successful `ENCODE` of parity row p: the L bytes at `OUT_BASE` (R140). Every read is of
`DMEM` as it was before the command (`20_memory.md` R46; log entry 9). -/
def encodedMemory (d : Descriptor) (p : Fin d.n.toNat) (s : State) : Memory :=
  Memory.writeBlock s.dmem s.outBase.toNat s.len.toNat
    (combinedByte s.tablesNow (entry d.gm p) s.dmem fun j => addrSrc s j)

/-- `ENCODE`'s own rule, its checks in the order of R141. -/
def encodeOwn (p : Nat) (s : State) : State :=
  match s.desc with
  | none => raise .noDescriptor s
  | some d =>
    if hp : d.k.toNat ≤ p ∧ p < d.n.toNat then
      if ¬ sourceLengthsAgree d s then raise .invalidLength s
      else if ¬ ((regionSources d s).inRange Config.memBytes ∧ (regionOut s).inRange Config.memBytes) then
        raise .addressRange s
      else if (regionSources d s).overlaps (regionOut s) then raise .bufferOverlap s
      else done 0x00#8 { s with dmem := encodedMemory d ⟨p, hp.2⟩ s }
    else raise .invalidIndex s

/-- R140: `ENCODE p`. -/
def execEncode (p : Nat) (s : State) : Answer := .next (prologue (encodeOwn p) s)

end Sys2Proof.Machine
end

