-- ==== Sys2Proof/Machine/FieldEngine.lean ====
section
/-!
DEFINITION. The Field Engine commands (`40_field_engine.md`).
-/

namespace Sys2Proof.Machine

/-- R82: `done(gfadd(a, b))`. -/
def execGfadd (a b : Byte) (s : State) : Answer := .next (prologue (done (gfadd a b)) s)

/-- R83: `done(a xor b)`. -/
def execGfsub (a b : Byte) (s : State) : Answer := .next (prologue (done (gfsub a b)) s)

/-- R84, after the lazy build (R81): `done(gfmul(a, b))`. -/
def execGfmul (a b : Byte) (s : State) : Answer :=
  .next (prologue (fun s => done (gfmul s.tablesNow a b) (ensureTables s)) s)

/-- R85, after the lazy build (R81): `DivisionByZero` when b = 0, else `done(gfdiv(a, b))`. -/
def execGfdiv (a b : Byte) (s : State) : Answer :=
  .next (prologue (fun s =>
    if hb : b = 0#8 then raise .divisionByZero (ensureTables s) else done (gfdiv s.tablesNow a b hb) (ensureTables s)) s)

/-- R86, after the lazy build (R81): `InvalidIndex` when a = 0, else `done(LOG[a])`. -/
def execLogrd (a : Byte) (s : State) : Answer :=
  .next (prologue (fun s =>
    if ha : a = 0#8 then raise .invalidIndex (ensureTables s) else done (logOf s.tablesNow a ha) (ensureTables s)) s)

/-- R87, after the lazy build (R81): `InvalidIndex` when the exponent is beyond the table's 255 entries, else
`done(ALOG[i])`; the index is not reduced. -/
def execAlogrd (i : Nat) (s : State) : Answer :=
  .next (prologue (fun s =>
    if hi : i < 255 then done s.tablesNow.alog[i] (ensureTables s) else raise .invalidIndex (ensureTables s)) s)

end Sys2Proof.Machine
end

