-- ==== Sys2Proof/Machine/MatrixBuilder.lean ====
section
/-!
DEFINITION. The Matrix Builder commands (`41_matrix_builder.md`).
-/

namespace Sys2Proof.Machine

/-- R100's `N <- n; K <- k; GM <- G; DESC_VALID <- 1`. -/
def setDescriptor {n k : Nat} (hn : n < 2 ^ 8) (hk : k < 2 ^ 8) (G : Mat n k) (s : State) : State :=
  { s with desc := some { n := BitVec.ofNatLT n hn, k := BitVec.ofNatLT k hk, gm := G } }

/-- `CREATE`'s own rule (R100). -/
def createOwn (n k : Nat) (s : State) : State :=
  match s.desc with
  | some _ => raise .descriptorBusy (ensureTables s)
  | none =>
    if h : 2 ≤ k ∧ k ≤ n ∧ n ≤ 255 then
      match buildGm s.tablesNow Config.elem n k h.2.1 with
      | none => raiseSingular (ensureTables s)
      | some G => done 0x00#8 (setDescriptor (by omega) (by omega) G (ensureTables s))
    else raise .invalidParameters (ensureTables s)

/-- R100: `CREATE n, k`. -/
def execCreate (n k : Nat) (s : State) : Answer := .next (prologue (createOwn n k) s)

/-- `DESTROY`'s own rule (R104): the descriptor's values are gone. -/
def destroyOwn (s : State) : State :=
  match s.desc with
  | none => raise .noDescriptor s
  | some _ => done 0x00#8 { s with desc := none }

/-- R104: `DESTROY`. -/
def execDestroy (s : State) : Answer := .next (prologue destroyOwn s)

/-- `GMRD`'s own rule (R105). -/
def gmrdOwn (row col : Nat) (s : State) : State :=
  match s.desc with
  | none => raise .noDescriptor s
  | some d =>
    if h : row < d.n.toNat ∧ col < d.k.toNat then done (entry d.gm ⟨row, h.1⟩ ⟨col, h.2⟩) s
    else raise .invalidIndex s

/-- R105: `GMRD row, col`. -/
def execGmrd (row col : Nat) (s : State) : Answer := .next (prologue (gmrdOwn row col) s)

end Sys2Proof.Machine
end

