-- ==== Sys2Proof/Machine/OperandSetup.lean ====
section
/-!
DEFINITION. The operand set-up commands (`42_operand_setup.md`).
-/

namespace Sys2Proof.Machine

/-- R120: `done()`. -/
def execNop (s : State) : Answer := .next (prologue (done 0x00#8) s)

/-- R121: `L <- imm16`. -/
def execSetl (len : Nat) (s : State) : Answer :=
  .next (prologue (fun s => done 0x00#8 { s with len := BitVec.ofNat 16 len }) s)

/-- R122: `InvalidIndex` for a position beyond the file's 255, else `BLEN[pos] <- imm16`. -/
def execSetblen (pos len : Nat) (s : State) : Answer :=
  .next (prologue (fun s =>
    if h : pos < 255 then done 0x00#8 { s with blen := s.blen.set pos (BitVec.ofNat 16 len) }
    else raise .invalidIndex s) s)

/-- R123: `BASE_A <- imm24`. -/
def execSetbasea (addr : Nat) (s : State) : Answer :=
  .next (prologue (fun s => done 0x00#8 { s with baseA := BitVec.ofNat 24 addr }) s)

/-- R124: `BASE_B <- imm24`. -/
def execSetbaseb (addr : Nat) (s : State) : Answer :=
  .next (prologue (fun s => done 0x00#8 { s with baseB := BitVec.ofNat 24 addr }) s)

/-- R125: `OUT_BASE <- imm24`. -/
def execSetout (addr : Nat) (s : State) : Answer :=
  .next (prologue (fun s => done 0x00#8 { s with outBase := BitVec.ofNat 24 addr }) s)

/-- R126: every `EMAP[i] <- 0`. -/
def execEmclr (s : State) : Answer :=
  .next (prologue (fun s => done 0x00#8 { s with emap := Vector.replicate 255 false }) s)

/-- `EMAP[pos] <- e`, or `InvalidIndex` for a position beyond the file's 255 (R127, R128). -/
def setErased (pos : Nat) (e : Bool) (s : State) : State :=
  if h : pos < 255 then done 0x00#8 { s with emap := s.emap.set pos e } else raise .invalidIndex s

/-- R127: mark a position erased. -/
def execEmset (pos : Nat) (s : State) : Answer := .next (prologue (setErased pos true) s)

/-- R128: mark a position valid. -/
def execEmval (pos : Nat) (s : State) : Answer := .next (prologue (setErased pos false) s)

end Sys2Proof.Machine
end

