-- ==== Sys2Proof/Machine/Dispatch.lean ====
section
/-!
DEFINITION. The meaning of every command, one arm each.
-/

namespace Sys2Proof.Machine

def exec (i : Instr) (s : State) : Host.Outcome State Fault Refusal :=
  match i with
  | .nop => Sys2Proof.Machine.execNop s
  | .gfadd a b => Sys2Proof.Machine.execGfadd a b s
  | .gfsub a b => Sys2Proof.Machine.execGfsub a b s
  | .gfmul a b => Sys2Proof.Machine.execGfmul a b s
  | .gfdiv a b => Sys2Proof.Machine.execGfdiv a b s
  | .logrd a => Sys2Proof.Machine.execLogrd a s
  | .alogrd e => Sys2Proof.Machine.execAlogrd e s
  | .create n k => Sys2Proof.Machine.execCreate n k s
  | .destroy => Sys2Proof.Machine.execDestroy s
  | .gmrd row col => Sys2Proof.Machine.execGmrd row col s
  | .setl len => Sys2Proof.Machine.execSetl len s
  | .setblen pos len => Sys2Proof.Machine.execSetblen pos len s
  | .setbasea addr => Sys2Proof.Machine.execSetbasea addr s
  | .setbaseb addr => Sys2Proof.Machine.execSetbaseb addr s
  | .setout addr => Sys2Proof.Machine.execSetout addr s
  | .emclr => Sys2Proof.Machine.execEmclr s
  | .emset pos => Sys2Proof.Machine.execEmset pos s
  | .emval pos => Sys2Proof.Machine.execEmval pos s
  | .encodeBlock p => Sys2Proof.Machine.execEncode p s
  | .decinl => Sys2Proof.Machine.execDecinl s
  | .decapp => Sys2Proof.Machine.execDecapp s

end Sys2Proof.Machine
end

