-- ==== Sys2Proof/Machine/Step.lean ====
section
/-!
DEFINITION. One step: the next host action of the run (`70_reset_and_hazards.md` R201).
-/

namespace Sys2Proof.Machine

/-- `execute(cw)` (`60_exceptions.md` R171): `Halted` while `FATAL = 1`, and the word is not decoded; `IllegalCommand`
for an illegal word; else the command. -/
def execute (cw : Word) (s : State) : Host.Outcome State Fault Refusal :=
  if s.fatal then .next (raise .halted s)
  else
    match decode cw with
    | .illegal _ => .next (raise .illegalCommand s)
    | .command i => exec i s

/-- One step. With no host action pending the core is idle and holds its state (`60_exceptions.md` R183,
`70_reset_and_hazards.md` R190; log entry 1). -/
def step (s : State) : Host.Outcome State Fault Refusal :=
  match takeAction s with
  | none => .next s
  | some (.command cw, s) => execute cw s
  | some (.write a v, s) => hostWrite a v s
  | some (.read a, s) => hostRead a s
  | some (.reset, s) => .next (resetInput s)

/-- Put an opcode-table word where the next step takes its command: at the head of the command port. -/
def State.withFetchWord (s : State) (nbits w : Nat) : State :=
  { s with port := .command (tableWord nbits w) :: s.port }

end Sys2Proof.Machine
end

