-- ==== Sys2Proof/Safety.lean ====
section
/-!
DEFINITION. What counts as a sound state and a safe run, in the terms claims use.
-/

namespace Sys2Proof.Machine

/-- `STATUS` holds one of the values of `60_exceptions.md` R170, and `RESULT` is 0 when it is an error (R175). -/
def State.ResponseOk (s : State) : Prop :=
  (∃ x : Status, s.status = x.code) ∧ (s.status ≠ 0x00#8 → s.result = 0x00#8)

/-- The tables, once built, are those of the build (`10_state.md` R20, R21, R25: "then immutable"). -/
def State.TablesOk (s : State) : Prop := ∀ t, s.tables = some t → t = builtTables

/-- A descriptor is one that `CREATE` built: 2 <= K <= N (<= 255 by its width), `GM = build_gm(N, K)`, and the tables
were built before it (`10_state.md` R16, R17, R25). -/
def State.DescOk (s : State) : Prop :=
  ∀ d, s.desc = some d → s.tblReady = true ∧ 2 ≤ d.k.toNat ∧
    ∃ h : d.k.toNat ≤ d.n.toNat, buildGm builtTables Config.elem d.n.toNat d.k.toNat h = some d.gm

/-- Data memory keeps its canonical form. -/
def State.MemoryOk (s : State) : Prop := Memory.wf s.dmem = true

/-- The invariant of the machine; whether `FATAL` is set is no part of it. -/
structure State.Inv (s : State) : Prop where
  response : s.ResponseOk
  tables : s.TablesOk
  desc : s.DescOk
  memory : s.MemoryOk

/-- A sound state that is not in the fatal state of `60_exceptions.md` R177. -/
structure State.Healthy (s : State) : Prop where
  inv : s.Inv
  notFatal : s.fatal = false

/-- A run is safe when no number of steps ends in a fault or a refusal. -/
def SafeRun (s : State) : Prop := ∀ steps, ∃ t, Sys2Proof.core.run steps s = .next t

end Sys2Proof.Machine
end

