-- ==== Sys2Proof/Certificates/Slice0/Obligations.lean ====
section
/-!
DEFINITION. The statements for the provers, and the few functions they are written with. Rules R<n> are those of spec/;
an operand of a command is written as the field of its word, so that a statement says which word the command is.
-/

open Sys2Proof Sys2Proof.Machine

namespace Sys2Proof.Claims

/-! ## How a command ends -/

/-- `done(v)`: STATUS `0x00`, RESULT v, nothing else (`00_scope.md` R7). -/
def answered (v : Byte) (s : State) : State := { s with status := 0x00#8, result := v }

/-- `raise` of the status with this code: RESULT `0x00`, nothing else (R172). -/
def errored (code : Byte) (s : State) : State := { s with status := code, result := 0x00#8 }

/-- The state with the tables built (R25). -/
def built (s : State) : State := { s with tables := some builtTables }

/-- The reset values of R29's table, `DMEM` apart. -/
def ResetValues (s : State) : Prop :=
  s.status = 0x00#8 ∧ s.result = 0x00#8 ∧ s.fatal = false ∧ s.descValid = false ∧ s.tblReady = false ∧
  s.desc = none ∧ s.tables = none ∧ s.len = 0#16 ∧ (∀ i < 255, s.blen[i]? = some 0#16) ∧ s.baseA = 0#24 ∧
  s.baseB = 0#24 ∧ s.outBase = 0#24 ∧ ∀ i < 255, s.emap[i]? = some false

/-! ## Words, written out by R61 to R63 -/

/-- A word of format Z, A or AB. -/
def word (op a b : Byte) : Word := op ++ a ++ b ++ 0x00#8

/-- A word of format I16 or AI. -/
def wordLen (op a : Byte) (imm : Len) : Word := op ++ a ++ imm

/-- A word of format I24. -/
def wordAddr (op : Byte) (imm : Addr) : Word := op ++ imm

/-- The 21 assigned opcodes (R63). -/
def assigned : List Nat :=
  [0x00, 0x01, 0x02, 0x03, 0x04, 0x08, 0x09, 0x10, 0x11, 0x12, 0x20, 0x21, 0x22, 0x23, 0x24, 0x28, 0x29, 0x2A, 0x30,
    0x31, 0x32]

/-- A bit the format of the word's opcode requires to be zero is 1 (R62, R65). -/
def reservedBitSet (cw : Word) : Prop :=
  (cw.toNat / 2 ^ 24 ∈ [0x00, 0x11, 0x28, 0x31, 0x32] ∧ cw.toNat % 2 ^ 24 ≠ 0) ∨
  (cw.toNat / 2 ^ 24 ∈ [0x08, 0x09, 0x29, 0x2A, 0x30] ∧ cw.toNat % 2 ^ 16 ≠ 0) ∨
  (cw.toNat / 2 ^ 24 ∈ [0x01, 0x02, 0x03, 0x04, 0x10, 0x12] ∧ cw.toNat % 2 ^ 8 ≠ 0) ∨
  (cw.toNat / 2 ^ 24 = 0x20 ∧ cw.toNat / 2 ^ 16 % 2 ^ 8 ≠ 0)

/-! ## The field without tables -/

/-- The polynomial product over GF(2) of two bytes, not reduced. -/
def carrylessProduct (a b : Byte) : BitVec 16 :=
  (List.range 8).foldl (fun acc i => if b.getLsbD i then acc ^^^ (a.setWidth 16 <<< i) else acc) 0

/-- The remainder modulo x^8 + x^4 + x^3 + x^2 + 1, by long division from bit 15 down to bit 8. -/
def reduced (v : BitVec 16) : Byte :=
  ((List.range 8).foldl (fun acc i => if acc.getLsbD (15 - i) then acc ^^^ (0x11D#16 <<< (7 - i)) else acc) v).setWidth 8

/-! ## Blocks and positions -/

/-- Every position of the list has `BLEN = L`. -/
def LengthsAgree (s : State) (positions : List Nat) : Prop := ∀ i ∈ positions, s.blen[i]? = some s.len

/-- The erased positions among lo .. hi-1, ascending. -/
def erased (s : State) (lo hi : Nat) : List Nat :=
  (List.range hi).filter fun i => decide (lo ≤ i) && (s.emap[i]? == some true)

/-- The valid positions among lo .. hi-1, ascending. -/
def valid (s : State) (lo hi : Nat) : List Nat :=
  (List.range hi).filter fun i => decide (lo ≤ i) && (s.emap[i]? == some false)

/-- `src(j)` of R154: for an erased j the surviving parity position of the same rank (R153), else j. -/
def source (d : Descriptor) (s : State) (j : Nat) : Nat :=
  if s.emap[j]? = some true then (valid s d.k.toNat d.n.toNat).getD (erased s 0 j).length j else j

/-- The block at address a of length L holds the byte address c. -/
def Holds (s : State) (a c : Nat) : Prop := a ≤ c ∧ c < a + s.len.toNat

/-- R16: a descriptor has 2 <= K <= N (`Inv` says so of every state a step keeps sound). -/
def SizedDesc (s : State) : Prop := ∀ d, s.desc = some d → 2 ≤ d.k.toNat ∧ d.k.toNat ≤ d.n.toNat

/-- What a state must be for a decode to go on after the tests of R157 rows 1 to 3. -/
def Decodable (s : State) (d : Descriptor) : Prop :=
  s.desc = some d ∧ LengthsAgree s (valid s 0 d.n.toNat) ∧
    (erased s 0 d.k.toNat).length ≤ (valid s d.k.toNat d.n.toNat).length

/-- `DECINL`'s region is in range (R52, R157 row 4). -/
def InlInRange (s : State) (d : Descriptor) : Prop :=
  s.len.toNat = 0 ∨ s.baseA.toNat + d.n.toNat * s.len.toNat ≤ Config.memBytes

/-- `DECAPP`'s two regions are in range (R52, R157 row 4). -/
def AppInRange (s : State) (d : Descriptor) : Prop :=
  s.len.toNat = 0 ∨ (s.baseA.toNat + d.k.toNat * s.len.toNat ≤ Config.memBytes ∧
    (d.n.toNat = d.k.toNat ∨ s.baseB.toNat + (d.n.toNat - d.k.toNat) * s.len.toNat ≤ Config.memBytes))

/-- `DECAPP`'s two regions overlap (R53, R157 row 5). -/
def AppOverlap (s : State) (d : Descriptor) : Prop :=
  0 < s.len.toNat ∧ d.k.toNat < d.n.toNat ∧
    s.baseA.toNat < s.baseB.toNat + (d.n.toNat - d.k.toNat) * s.len.toNat ∧
    s.baseB.toNat < s.baseA.toNat + d.k.toNat * s.len.toNat

/-- `ENCODE`'s regions are in range (R52, R141 row 4). -/
def EncInRange (s : State) (d : Descriptor) : Prop :=
  s.len.toNat = 0 ∨ (s.baseA.toNat + d.k.toNat * s.len.toNat ≤ Config.memBytes ∧
    s.outBase.toNat + s.len.toNat ≤ Config.memBytes)

/-- `ENCODE`'s regions overlap (R53, R141 row 5). -/
def EncOverlap (s : State) (d : Descriptor) : Prop :=
  0 < s.len.toNat ∧ s.outBase.toNat < s.baseA.toNat + d.k.toNat * s.len.toNat ∧
    s.baseA.toNat < s.outBase.toNat + s.len.toNat

/-- A decode command that answers t from s reconstructed the erased source blocks with the inverse X of the decoding
matrix, and changed no other byte (R156, R58); `addr` is its layout. -/
def Reconstructed (d : Descriptor) (addr : Nat → Nat) (X : Mat d.k.toNat d.k.toNat) (s t : State) : Prop :=
  (∀ e : Fin d.k.toNat, s.emap[e.val]? = some true → ∀ b < s.len.toNat,
    Memory.read t.dmem (addr e + b) =
      xorSum d.k.toNat fun j => gfmul builtTables (entry X e j) (Memory.read s.dmem (addr (source d s j) + b))) ∧
  (∀ c, (∀ e < d.k.toNat, s.emap[e]? = some true → ¬ Holds s (addr e) c) →
    Memory.read t.dmem c = Memory.read s.dmem c)

/-- The valid blocks hold what the encoder makes of the source bytes `bytes j b` (R154: y = D x s). -/
def Consistent (d : Descriptor) (addr : Nat → Nat) (bytes : Fin d.k.toNat → Nat → Byte) (s : State) : Prop :=
  ∀ i : Fin d.n.toNat, s.emap[i.val]? = some false → ∀ b < s.len.toNat,
    Memory.read s.dmem (addr i + b) = xorSum d.k.toNat fun j => gfmul builtTables (entry d.gm i j) (bytes j b)

/-- The errors of one decode command in the order of R157; `inRange` and `overlap` are its rows 4 and 5. -/
def DecodeErrors (i : Instr) (inRange overlap : State → Descriptor → Prop) : Prop :=
  ∀ s, s.fatal = false → SizedDesc s →
    (s.desc = none → exec i s = .next (errored 0x11#8 s)) ∧
    ∀ d, s.desc = some d →
      (¬ LengthsAgree s (valid s 0 d.n.toNat) → exec i s = .next (errored 0x03#8 s)) ∧
      (LengthsAgree s (valid s 0 d.n.toNat) →
        (d.n.toNat - d.k.toNat < (erased s 0 d.k.toNat).length ∨
          (valid s d.k.toNat d.n.toNat).length < (erased s 0 d.k.toNat).length) →
        exec i s = .next (errored 0x05#8 s)) ∧
      (Decodable s d → ¬ inRange s d → exec i s = .next (errored 0x13#8 s)) ∧
      (Decodable s d → inRange s d → overlap s d → exec i s = .next (errored 0x14#8 s)) ∧
      (Decodable s d → inRange s d → ¬ overlap s d → erased s 0 d.k.toNat ≠ [] →
        matinv s.tablesNow (decodingMatrix d s) = none →
        exec i s = .next (errored 0x06#8 { s with fatal := true }))

/-- The code column of `60_exceptions.md` R170. -/
def statusCodes : List Nat :=
  [0x00, 0x01, 0x02, 0x03, 0x04, 0x05, 0x06, 0x07, 0x10, 0x11, 0x12, 0x13, 0x14, 0x1F]

/-- The statuses a command can end with besides `0x00` and `Halted` (R174). -/
def possibleStatuses : Instr → List Byte
  | .nop | .gfadd _ _ | .gfsub _ _ | .gfmul _ _ | .setl _ | .setbasea _ | .setbaseb _ | .setout _ | .emclr => []
  | .gfdiv _ _ => [0x07#8]
  | .logrd _ | .alogrd _ | .setblen _ _ | .emset _ | .emval _ => [0x04#8]
  | .create _ _ => [0x12#8, 0x01#8, 0x06#8]
  | .destroy => [0x11#8]
  | .gmrd _ _ => [0x11#8, 0x04#8]
  | .encodeBlock _ => [0x11#8, 0x04#8, 0x02#8, 0x13#8, 0x14#8]
  | .decinl => [0x11#8, 0x03#8, 0x05#8, 0x13#8, 0x06#8]
  | .decapp => [0x11#8, 0x03#8, 0x05#8, 0x13#8, 0x14#8, 0x06#8]

/-- The commands that run the lazy table build (R25, R81). -/
def buildsTables : Instr → Bool
  | .gfmul _ _ | .gfdiv _ _ | .logrd _ | .alogrd _ | .create _ _ => true
  | .nop | .gfadd _ _ | .gfsub _ _ | .destroy | .gmrd _ _ | .setl _ | .setblen _ _ | .setbasea _ | .setbaseb _
    | .setout _ | .emclr | .emset _ | .emval _ | .encodeBlock _ | .decinl | .decapp => false

/-- The commands that return a byte (R14). -/
def returnsByte : Instr → Bool
  | .gfadd _ _ | .gfsub _ _ | .gfmul _ _ | .gfdiv _ _ | .logrd _ | .alogrd _ | .gmrd _ _ => true
  | .nop | .create _ _ | .destroy | .setl _ | .setblen _ _ | .setbasea _ | .setbaseb _ | .setout _ | .emclr
    | .emset _ | .emval _ | .encodeBlock _ | .decinl | .decapp => false

/-- The commands that write data memory (R27). -/
def writesMemory : Instr → Bool
  | .encodeBlock _ | .decinl | .decapp => true
  | .nop | .gfadd _ _ | .gfsub _ _ | .gfmul _ _ | .gfdiv _ _ | .logrd _ | .alogrd _ | .create _ _ | .destroy
    | .gmrd _ _ | .setl _ | .setblen _ _ | .setbasea _ | .setbaseb _ | .setout _ | .emclr | .emset _ | .emval _ => false

/-- The commands that can raise `SingularMatrix`, and so set `FATAL` (R15, R177). -/
def mayBeSingular : Instr → Bool
  | .create _ _ | .decinl | .decapp => true
  | .nop | .gfadd _ _ | .gfsub _ _ | .gfmul _ _ | .gfdiv _ _ | .logrd _ | .alogrd _ | .destroy | .gmrd _ _
    | .setl _ | .setblen _ _ | .setbasea _ | .setbaseb _ | .setout _ | .emclr | .emset _ | .emval _
    | .encodeBlock _ => false

end Sys2Proof.Claims

open Sys2Proof.Claims

/-! ## Encoding -/

/-- Decoding the word of a well-formed command gives the command back: no operand bit is dropped. -/
def Obligations.DecodeOfEncodeIsTheCommand : Prop :=
  ∀ i : Instr, i.wellFormed = true → decode (encode i) = .command i

/-- A word that decodes to a command is that command's word, and the command is well-formed. -/
def Obligations.EncodeOfDecodedCommandIsTheWord : Prop :=
  ∀ (cw : Word) (i : Instr), decode cw = .command i → i.wellFormed = true ∧ encode i = cw

/-- R66: a word whose opcode is not assigned raises `IllegalCommand` and changes nothing else. -/
def Obligations.UnassignedOpcodeRaisesIllegalCommand : Prop :=
  ∀ (cw : Word) (s : State), cw.toNat / 2 ^ 24 ∉ assigned → s.fatal = false →
    execute cw s = .next (errored 0x10#8 s)

/-- R65: a word with an assigned opcode and a 1 in a bit its format requires to be zero raises `IllegalCommand` and
changes nothing else. -/
def Obligations.ReservedBitRaisesIllegalCommand : Prop :=
  ∀ (cw : Word) (s : State), reservedBitSet cw → s.fatal = false → execute cw s = .next (errored 0x10#8 s)

/-- Words of R69's examples decode to the commands it names. -/
def Obligations.ExampleWordsDecode : Prop :=
  decode 0x0153CA00#32 = .command (.gfadd 0x53#8 0xCA#8) ∧
  decode 0x04010200#32 = .command (.gfdiv 0x01#8 0x02#8) ∧
  decode 0x10060400#32 = .command (.create 6 4) ∧
  decode 0x20000004#32 = .command (.setl 4) ∧
  decode 0x21020004#32 = .command (.setblen 2 4) ∧
  decode 0x22001000#32 = .command (.setbasea 0x1000) ∧
  decode 0x29020000#32 = .command (.emset 2) ∧
  decode 0x30040000#32 = .command (.encodeBlock 4) ∧
  decode 0x31000000#32 = .command .decinl

/-! ## The step -/

/-- A step with a command word at the head of the port runs the decoded command, in every state, and takes the word off
the port (the port is the model's own, log entry 1). -/
def Obligations.StepRunsTheDecodedCommand : Prop :=
  ∀ (s : State) (cw : Word) (rest : List HostAction) (i : Instr),
    s.port = .command cw :: rest → decode cw = .command i → step s = exec i { s with port := rest }

/-- R171: `Halted` while `FATAL = 1` whatever the word is; else `IllegalCommand` for an illegal word; else the
command's own rule. -/
def Obligations.ExecuteFollowsThePrologue : Prop :=
  ∀ (cw : Word) (s : State),
    (s.fatal = true → execute cw s = .next (errored 0x1F#8 s)) ∧
    (s.fatal = false →
      (∀ why, decode cw = .illegal why → execute cw s = .next (errored 0x10#8 s)) ∧
      (∀ i, decode cw = .command i → execute cw s = exec i s))

/-- R177: while `FATAL = 1` every command answers `Halted` and changes nothing else. -/
def Obligations.FatalStateHaltsEveryCommand : Prop :=
  ∀ (i : Instr) (s : State), s.fatal = true → exec i s = .next (errored 0x1F#8 s)

/-- Every step answers a next state: any word, legal or not, in any state, and any host access of a 24-bit address.
(With no action pending the core is idle, log entry 1; that no address is refused rests on the default `MEM_BYTES`,
log entries 6 and 12.) -/
def Obligations.EveryStepAnswersNext : Prop := ∀ s : State, ∃ t, step s = .next t

/-- With no host action pending the core holds its state (the empty port is the model's choice, log entry 1). -/
def Obligations.IdleCoreHoldsItsState : Prop := ∀ s : State, s.port = [] → step s = .next s

/-- A host read returns the byte of its address, after a host write the byte written if it was that address, and neither
access touches anything else (`readData` and the port are the model's own, log entries 1 and 2; that no 24-bit address is
refused rests on the default `MEM_BYTES`, log entries 6 and 12). -/
def Obligations.HostReadReturnsTheLastByteWritten : Prop :=
  (∀ (s : State) (c : Addr) (rest : List HostAction), s.port = .read c :: rest →
    step s = .next { s with port := rest, readData := Memory.read s.dmem c.toNat }) ∧
  ∀ (s : State) (a c : Addr) (v : Byte) (rest : List HostAction), s.port = .write a v :: .read c :: rest →
    ∃ t, step s = .next t ∧ t = { s with dmem := t.dmem, port := .read c :: rest } ∧
      (∀ x, Memory.read t.dmem x = if x = a.toNat then v else Memory.read s.dmem x) ∧
      step t = .next { t with port := rest, readData := if c = a then v else Memory.read s.dmem c.toNat }

/-- R29: the values after reset, in `State.reset` and after the reset input, which leaves `DMEM` unchanged (that the input
is an action of the port is the model's own form, log entry 2). -/
def Obligations.ResetGivesTheStatedValues : Prop :=
  ResetValues State.reset ∧
  ∀ (s : State) (rest : List HostAction), s.port = .reset :: rest →
    ∃ t, step s = .next t ∧ ResetValues t ∧ t.dmem = s.dmem

/-! ## Field Engine -/

/-- R82: `GFADD a, b` answers a xor b. -/
def Obligations.GfaddAnswersXor : Prop :=
  ∀ (a b : Byte) (s : State), decode (word 0x01#8 a b) = .command (.gfadd a b) ∧
    (s.fatal = false → exec (.gfadd a b) s = .next (answered (a ^^^ b) s))

/-- R83: `GFSUB a, b` answers a xor b. -/
def Obligations.GfsubAnswersXor : Prop :=
  ∀ (a b : Byte) (s : State), decode (word 0x02#8 a b) = .command (.gfsub a b) ∧
    (s.fatal = false → exec (.gfsub a b) s = .next (answered (a ^^^ b) s))

/-- R84: `GFMUL a, b` answers 0 if either operand is 0, else `ALOG[(LOG[a] + LOG[b]) mod 255]`. -/
def Obligations.GfmulAnswersTheTableProduct : Prop :=
  ∀ (a b : Byte) (s : State), decode (word 0x03#8 a b) = .command (.gfmul a b) ∧
    (s.fatal = false → s.TablesOk → ∃ v, exec (.gfmul a b) s = .next (answered v (built s)) ∧
      (a = 0#8 ∨ b = 0#8 → v = 0#8) ∧
      ∀ (ha : a ≠ 0#8) (hb : b ≠ 0#8),
        builtTables.alog[((logOf builtTables a ha).toNat + (logOf builtTables b hb).toNat) % 255]? = some v)

/-- R85: `GFDIV a, b` raises `DivisionByZero` when b = 0, else answers 0 for a = 0 and
`ALOG[(LOG[a] - LOG[b] + 255) mod 255]` otherwise, the index computed on exact integers. -/
def Obligations.GfdivAnswersTheQuotient : Prop :=
  ∀ (a b : Byte) (s : State), decode (word 0x04#8 a b) = .command (.gfdiv a b) ∧
    (s.fatal = false → s.TablesOk →
      (b = 0#8 → exec (.gfdiv a b) s = .next (errored 0x07#8 (built s))) ∧
      ∀ hb : b ≠ 0#8, ∃ v, exec (.gfdiv a b) s = .next (answered v (built s)) ∧ (a = 0#8 → v = 0#8) ∧
        ∀ ha : a ≠ 0#8, ∃ i : Nat,
          (i : Int) = ((logOf builtTables a ha).toNat - (logOf builtTables b hb).toNat + 255 : Int) % 255 ∧
          builtTables.alog[i]? = some v)

/-- R86: `LOGRD a` raises `InvalidIndex` for a = 0, else answers the i in 0..254 with `ALOG[i] = a`. -/
def Obligations.LogrdAnswersTheLogarithm : Prop :=
  ∀ (a : Byte) (s : State), decode (word 0x08#8 a 0x00#8) = .command (.logrd a) ∧
    (s.fatal = false → s.TablesOk →
      (a = 0#8 → exec (.logrd a) s = .next (errored 0x04#8 (built s))) ∧
      (a ≠ 0#8 → ∃ v, exec (.logrd a) s = .next (answered v (built s)) ∧ v.toNat < 255 ∧
        builtTables.alog[v.toNat]? = some a))

/-- R87: `ALOGRD i` raises `InvalidIndex` for i = 255, else answers `ALOG[i]`, which is never 0. -/
def Obligations.AlogrdAnswersTheEntry : Prop :=
  ∀ (i : Byte) (s : State), decode (word 0x09#8 i 0x00#8) = .command (.alogrd i.toNat) ∧
    (s.fatal = false → s.TablesOk →
      (i = 0xFF#8 → exec (.alogrd i.toNat) s = .next (errored 0x04#8 (built s))) ∧
      (i ≠ 0xFF#8 → ∃ v, exec (.alogrd i.toNat) s = .next (answered v (built s)) ∧ v ≠ 0#8 ∧
        builtTables.alog[i.toNat]? = some v))

/-- The tables of `10_state.md` section 8: `ALOG` starts at 1, each entry is twice the one before reduced by `POLY`,
twice the last one is 1 again, its entries are the non-zero bytes, each once, and `LOG[a]` is where a stands. (The value
of `POLY` is PRESUMED, log entry 6.) -/
def Obligations.TablesHoldThePowersOfX : Prop :=
  builtTables.alog[0] = 0x01#8 ∧
  (∀ i < 255, ∃ v w, builtTables.alog[i]? = some v ∧ builtTables.alog[(i + 1) % 255]? = some w ∧
    w.toNat = if 2 * v.toNat < 256 then 2 * v.toNat else (2 * v.toNat) ^^^ 0x11D) ∧
  (∀ a : Byte, a ≠ 0#8 → ∃ i < 255, builtTables.alog[i]? = some a ∧ ∀ j < 255, builtTables.alog[j]? = some a → j = i) ∧
  (∀ i < 255, builtTables.alog[i]? ≠ some 0#8) ∧
  (∀ (a : Byte) (ha : a ≠ 0#8), (logOf builtTables a ha).toNat < 255 ∧
    builtTables.alog[(logOf builtTables a ha).toNat]? = some a)

/-- The laws of the field (R88, which the spec marks as derived), and that the table product is the shift-and-reduce
product of polynomials. (The value of `POLY` is PRESUMED, log entry 6.) -/
def Obligations.BytesFormTheField : Prop :=
  (∀ a b c, gfadd (gfadd a b) c = gfadd a (gfadd b c)) ∧ (∀ a b, gfadd a b = gfadd b a) ∧
  (∀ a, gfadd a 0#8 = a) ∧ (∀ a, gfadd a a = 0#8) ∧
  (∀ a b c, gfmul builtTables (gfmul builtTables a b) c = gfmul builtTables a (gfmul builtTables b c)) ∧
  (∀ a b, gfmul builtTables a b = gfmul builtTables b a) ∧
  (∀ a, gfmul builtTables a 0x01#8 = a) ∧ (∀ a, gfmul builtTables a 0#8 = 0#8) ∧
  (∀ a b c, gfmul builtTables a (gfadd b c) = gfadd (gfmul builtTables a b) (gfmul builtTables a c)) ∧
  (∀ a b, ∀ hb : b ≠ 0#8, gfmul builtTables (gfdiv builtTables a b hb) b = a ∧
    gfdiv builtTables (gfmul builtTables a b) b hb = a) ∧
  (∀ a b, a ≠ 0#8 → b ≠ 0#8 → gfmul builtTables a b ≠ 0#8) ∧
  (∀ a b, gfmul builtTables a b = reduced (carrylessProduct a b))

/-- R25: the lazy build runs in `GFMUL`, `GFDIV`, `LOGRD`, `ALOGRD` and `CREATE` and in no other command, and no command
can observe whether it has happened: from two states that differ in that alone, the answers differ at most in that. -/
def Obligations.LazyTableBuildIsUnobservable : Prop :=
  (∀ (i : Instr) (s t : State), s.fatal = false → exec i s = .next t →
    t.tblReady = (s.tblReady || buildsTables i)) ∧
  (∀ (i : Instr) (s : State), ∃ t u, exec i { s with tables := none } = .next t ∧
    exec i { s with tables := some builtTables } = .next u ∧ { t with tables := u.tables } = u)

/-! ## Matrix Builder -/

/-- R100: `CREATE n, k`: `DescriptorBusy` while a descriptor exists, then `InvalidParameters` unless 2 <= k <= n (<= 255),
else the descriptor (n, k, `build_gm(n, k)`); it never fails for a legal (n, k). -/
def Obligations.CreateBuildsTheDescriptor : Prop :=
  ∀ (n k : Byte) (s : State), decode (word 0x10#8 n k) = .command (.create n.toNat k.toNat) ∧
    (s.fatal = false → s.TablesOk →
      (s.desc ≠ none → exec (.create n.toNat k.toNat) s = .next (errored 0x12#8 (built s))) ∧
      (s.desc = none → ¬ (2 ≤ k.toNat ∧ k.toNat ≤ n.toNat) →
        exec (.create n.toNat k.toNat) s = .next (errored 0x01#8 (built s))) ∧
      (s.desc = none → 2 ≤ k.toNat → ∀ h : k.toNat ≤ n.toNat,
        ∃ G, buildGm builtTables Config.elem n.toNat k.toNat h = some G ∧
          exec (.create n.toNat k.toNat) s =
            .next (answered 0x00#8 { built s with desc := some { n := n, k := k, gm := G } })))

/-- R102 (marked as derived by the spec): `gfpow(e, 0)` is 1, each further power is one more product by e, and for e ≠
0 it is `ALOG[(LOG[e] * j) mod 255]`. -/
def Obligations.GfpowMultipliesByItself : Prop :=
  ∀ (e : Byte) (j : Nat), gfpow builtTables e 0 = 0x01#8 ∧
    gfpow builtTables e (j + 1) = gfmul builtTables (gfpow builtTables e j) e ∧
    ∀ he : e ≠ 0#8, builtTables.alog[(logOf builtTables e he).toNat * j % 255]? = some (gfpow builtTables e j)

/-- R101, with the consequences it marks as derived: for 2 <= k <= n <= 255 `build_gm(n, k)` is the matrix G with G
times the top k x k block of V equal to V, where `V[i][j]` is `ELEM(i)` to the j; its rows 0..k-1 are the identity; it
is the first n rows of `build_gm(255, k)`. -/
def Obligations.GeneratorMatrixConstruction : Prop :=
  ∀ (n k : Nat) (h : k ≤ n) (h255 : n ≤ 255), 2 ≤ k →
    ∃ (G : Mat n k) (G255 : Mat 255 k), buildGm builtTables Config.elem n k h = some G ∧
      buildGm builtTables Config.elem 255 k (Nat.le_trans h h255) = some G255 ∧
      (∃ (V : Mat n k) (T : Mat k k), (∀ i j, entry V i j = gfpow builtTables (BitVec.ofNat 8 (i.val + 1)) j.val) ∧
        (∀ i j, entry T i j = entry V (Fin.castLE h i) j) ∧ matmul builtTables G T = V) ∧
      (∀ i j : Fin k, entry G (Fin.castLE h i) j = if i = j then 0x01#8 else 0x00#8) ∧
      (∀ (i : Fin n) (j : Fin k), entry G i j = entry G255 (Fin.castLE h255 i) j)

/-- R103: `matinv(M)` is the unique two-sided inverse of M, and `singular` exactly when there is none. -/
def Obligations.MatinvIsTheInverse : Prop :=
  ∀ (k : Nat) (M : Mat k k),
    (∀ X, matinv builtTables M = some X ↔
      (matmul builtTables M X = identity k ∧ matmul builtTables X M = identity k)) ∧
    (matinv builtTables M = none ↔
      ¬ ∃ X, matmul builtTables M X = identity k ∧ matmul builtTables X M = identity k)

/-- R106 (marked as derived by the spec): for 2 <= k <= n <= 255, any k distinct rows of V and any k distinct rows of
`build_gm(n, k)` are invertible (the top block of V among them), and so is the decoding matrix of every recoverable
erasure map. -/
def Obligations.AnyKRowsAreInvertible : Prop :=
  (∀ (n k : Nat) (h : k ≤ n), 2 ≤ k → n ≤ 255 → ∀ rows : Fin k → Fin n, Function.Injective rows →
    matinv builtTables (matrixOf fun i j => entry (vandermonde builtTables Config.elem n k) (rows i) j) ≠ none ∧
    ∃ G, buildGm builtTables Config.elem n k h = some G ∧
      matinv builtTables (matrixOf fun i j => entry G (rows i) j) ≠ none) ∧
  (∀ (s : State) (d : Descriptor), s.DescOk → Decodable s d → matinv builtTables (decodingMatrix d s) ≠ none)

/-- R104: `DESTROY` raises `NoDescriptor` when there is none, else `N`, `K` and `GM` hold no value any more. -/
def Obligations.DestroyReleasesTheDescriptor : Prop :=
  decode (word 0x11#8 0x00#8 0x00#8) = .command .destroy ∧
  ∀ s : State, s.fatal = false →
    (s.desc = none → exec .destroy s = .next (errored 0x11#8 s)) ∧
    (s.desc ≠ none → exec .destroy s = .next (answered 0x00#8 { s with desc := none }))

/-- R105: `GMRD row, col` answers `GM[row][col]`; errors `NoDescriptor`, then `InvalidIndex`; with a descriptor that
`CREATE` built, rows below K read as the identity. -/
def Obligations.GmrdAnswersTheEntry : Prop :=
  ∀ (row col : Byte) (s : State), decode (word 0x12#8 row col) = .command (.gmrd row.toNat col.toNat) ∧
    (s.fatal = false →
      (s.desc = none → exec (.gmrd row.toNat col.toNat) s = .next (errored 0x11#8 s)) ∧
      ∀ d, s.desc = some d →
        (d.n.toNat ≤ row.toNat ∨ d.k.toNat ≤ col.toNat →
          exec (.gmrd row.toNat col.toNat) s = .next (errored 0x04#8 s)) ∧
        ∀ (hr : row.toNat < d.n.toNat) (hc : col.toNat < d.k.toNat),
          exec (.gmrd row.toNat col.toNat) s = .next (answered (entry d.gm ⟨row.toNat, hr⟩ ⟨col.toNat, hc⟩) s) ∧
          (s.DescOk → row.toNat < d.k.toNat →
            entry d.gm ⟨row.toNat, hr⟩ ⟨col.toNat, hc⟩ = if row = col then 0x01#8 else 0x00#8))

/-! ## Operand set-up -/

/-- R120, R121, R123 to R126: `NOP` does nothing; `SETL`, `SETBASEA`, `SETBASEB`, `SETOUT` write their register and
`EMCLR` clears the whole map; nothing else changes but `STATUS` and `RESULT`. -/
def Obligations.SetupCommandsWriteTheirRegister : Prop :=
  ∀ (len : Len) (addr : Addr) (s : State),
    (decode (word 0x00#8 0x00#8 0x00#8) = .command .nop ∧ decode (wordLen 0x20#8 0x00#8 len) = .command (.setl len.toNat) ∧
      decode (wordAddr 0x22#8 addr) = .command (.setbasea addr.toNat) ∧
      decode (wordAddr 0x23#8 addr) = .command (.setbaseb addr.toNat) ∧
      decode (wordAddr 0x24#8 addr) = .command (.setout addr.toNat) ∧
      decode (word 0x28#8 0x00#8 0x00#8) = .command .emclr) ∧
    (s.fatal = false →
      exec .nop s = .next (answered 0x00#8 s) ∧
      exec (.setl len.toNat) s = .next (answered 0x00#8 { s with len := len }) ∧
      exec (.setbasea addr.toNat) s = .next (answered 0x00#8 { s with baseA := addr }) ∧
      exec (.setbaseb addr.toNat) s = .next (answered 0x00#8 { s with baseB := addr }) ∧
      exec (.setout addr.toNat) s = .next (answered 0x00#8 { s with outBase := addr }) ∧
      ∃ t, exec .emclr s = .next t ∧ t = answered 0x00#8 { s with emap := t.emap } ∧
        ∀ i < 255, t.emap[i]? = some false)

/-- R122: `SETBLEN pos, len` writes `BLEN[pos]` and no other entry, whatever `N` is; position 255 raises
`InvalidIndex`. -/
def Obligations.SetblenWritesOneEntry : Prop :=
  ∀ (pos : Byte) (len : Len) (s : State),
    decode (wordLen 0x21#8 pos len) = .command (.setblen pos.toNat len.toNat) ∧
    (s.fatal = false →
      (pos = 0xFF#8 → exec (.setblen pos.toNat len.toNat) s = .next (errored 0x04#8 s)) ∧
      (pos ≠ 0xFF#8 → ∃ t, exec (.setblen pos.toNat len.toNat) s = .next t ∧
        t = answered 0x00#8 { s with blen := t.blen } ∧
        ∀ i < 255, t.blen[i]? = if i = pos.toNat then some len else s.blen[i]?))

/-- R127, R128: `EMSET pos` marks one position erased and `EMVAL pos` marks one valid; position 255 raises
`InvalidIndex`. -/
def Obligations.EmsetAndEmvalWriteOnePosition : Prop :=
  ∀ (pos : Byte) (s : State),
    (decode (word 0x29#8 pos 0x00#8) = .command (.emset pos.toNat) ∧
      decode (word 0x2A#8 pos 0x00#8) = .command (.emval pos.toNat)) ∧
    (s.fatal = false →
      (pos = 0xFF#8 → exec (.emset pos.toNat) s = .next (errored 0x04#8 s) ∧
        exec (.emval pos.toNat) s = .next (errored 0x04#8 s)) ∧
      (pos ≠ 0xFF#8 → ∃ t u, exec (.emset pos.toNat) s = .next t ∧ exec (.emval pos.toNat) s = .next u ∧
        t = answered 0x00#8 { s with emap := t.emap } ∧ u = answered 0x00#8 { s with emap := u.emap } ∧
        (∀ i < 255, t.emap[i]? = if i = pos.toNat then some true else s.emap[i]?) ∧
        (∀ i < 255, u.emap[i]? = if i = pos.toNat then some false else s.emap[i]?)))

/-! ## Encoder -/

/-- `ENCODE p` completes: byte b of the output block is the exclusive-or over j of `GM[p][j]` times byte b of source
block j, every other byte of `DMEM` and all other state but `STATUS` and `RESULT` are unchanged. -/
def Obligations.EncodeWritesTheParityBlock : Prop :=
  ∀ (p : Byte) (s : State) (d : Descriptor), s.fatal = false → s.TablesOk → s.desc = some d →
    d.k.toNat ≤ p.toNat → ∀ hp : p.toNat < d.n.toNat, LengthsAgree s (List.range d.k.toNat) → EncInRange s d →
    ¬ EncOverlap s d →
    decode (word 0x30#8 p 0x00#8) = .command (.encodeBlock p.toNat) ∧
    ∃ t, exec (.encodeBlock p.toNat) s = .next t ∧ t = answered 0x00#8 { s with dmem := t.dmem } ∧
      (∀ b < s.len.toNat, Memory.read t.dmem (s.outBase.toNat + b) =
        xorSum d.k.toNat fun j => gfmul builtTables (entry d.gm ⟨p.toNat, hp⟩ j)
          (Memory.read s.dmem (s.baseA.toNat + j.val * s.len.toNat + b))) ∧
      (∀ c, ¬ Holds s s.outBase.toNat c → Memory.read t.dmem c = Memory.read s.dmem c)

/-- R141: the errors of `ENCODE`, in the order they are tested; each changes nothing but `STATUS` and `RESULT`. -/
def Obligations.EncodeErrorsInOrder : Prop :=
  ∀ (p : Nat) (s : State), s.fatal = false → SizedDesc s →
    (s.desc = none → exec (.encodeBlock p) s = .next (errored 0x11#8 s)) ∧
    ∀ d, s.desc = some d →
      (p < d.k.toNat ∨ d.n.toNat ≤ p → exec (.encodeBlock p) s = .next (errored 0x04#8 s)) ∧
      (d.k.toNat ≤ p → p < d.n.toNat →
        (¬ LengthsAgree s (List.range d.k.toNat) → exec (.encodeBlock p) s = .next (errored 0x02#8 s)) ∧
        (LengthsAgree s (List.range d.k.toNat) →
          (¬ EncInRange s d → exec (.encodeBlock p) s = .next (errored 0x13#8 s)) ∧
          (EncInRange s d → EncOverlap s d → exec (.encodeBlock p) s = .next (errored 0x14#8 s))))

/-- `ENCODE` is a pure function: from two states with the same descriptor and `L`, byte b of the output depends on byte b
of the source blocks alone, wherever the blocks lie and whatever `EMAP`, `BASE_B` and the rest of memory hold; and the
source blocks are unchanged. -/
def Obligations.EncodeIsAPureFunctionOfItsBlocks : Prop :=
  ∀ (p : Nat) (s₁ s₂ t₁ t₂ : State) (d : Descriptor), s₁.TablesOk → s₂.TablesOk → s₁.desc = some d →
    s₂.desc = some d → s₁.len = s₂.len → exec (.encodeBlock p) s₁ = .next t₁ → exec (.encodeBlock p) s₂ = .next t₂ →
    t₁.status = 0x00#8 → t₂.status = 0x00#8 → ∀ b < s₁.len.toNat,
      ((∀ j < d.k.toNat, Memory.read s₁.dmem (s₁.baseA.toNat + j * s₁.len.toNat + b) =
          Memory.read s₂.dmem (s₂.baseA.toNat + j * s₂.len.toNat + b)) →
        Memory.read t₁.dmem (s₁.outBase.toNat + b) = Memory.read t₂.dmem (s₂.outBase.toNat + b)) ∧
      (∀ j < d.k.toNat, Memory.read t₁.dmem (s₁.baseA.toNat + j * s₁.len.toNat + b) =
        Memory.read s₁.dmem (s₁.baseA.toNat + j * s₁.len.toNat + b))

/-- Reading `DMEM` as it was before the command (log entry 9) and writing byte by byte with every read seeing the bytes
already written give the same memory, in whatever order the byte positions are taken. -/
def Obligations.EncodeByteByByteInAnyOrder : Prop :=
  ∀ (p : Byte) (s t : State) (d : Descriptor) (hp : p.toNat < d.n.toNat) (order : List Nat), s.TablesOk →
    s.desc = some d → exec (.encodeBlock p.toNat) s = .next t → t.status = 0x00#8 →
    order.Perm (List.range s.len.toNat) → ∀ c,
      Memory.read (order.foldl (fun m b => Memory.write m (s.outBase.toNat + b)
        (xorSum d.k.toNat fun j => gfmul builtTables (entry d.gm ⟨p.toNat, hp⟩ j)
          (Memory.read m (s.baseA.toNat + j.val * s.len.toNat + b)))) s.dmem) c = Memory.read t.dmem c

/-! ## Decoder -/

/-- R153, R154: on a recoverable erasure map the t-th erased source position takes the t-th surviving parity position.
Row j of the decoding matrix is row `src(j)` of `GM` for an erased j and row j of the identity for a surviving j, which,
with a descriptor that `CREATE` built, is row `src(j) = j` of `GM` too. -/
def Obligations.DecodingMatrixRows : Prop :=
  ∀ (s : State) (d : Descriptor), Decodable s d → ∀ j : Fin d.k.toNat,
    sourceOf d s j = source d s j ∧
    (s.emap[j.val]? = some true → ∃ p : Fin d.n.toNat, p.val = source d s j ∧ d.k.toNat ≤ p.val ∧
      s.emap[p.val]? = some false ∧ ∀ c, entry (decodingMatrix d s) j c = entry d.gm p c) ∧
    (s.emap[j.val]? = some false → source d s j = j.val ∧
      (∀ c, entry (decodingMatrix d s) j c = if j = c then 0x01#8 else 0x00#8) ∧
      (s.DescOk → ∃ p : Fin d.n.toNat, p.val = j.val ∧ ∀ c, entry (decodingMatrix d s) j c = entry d.gm p c))

/-- With no source position erased a decode succeeds and changes nothing but `STATUS` and `RESULT`, whatever the parity
positions' erasure bits are. -/
def Obligations.DecodeWithNothingErasedChangesNothing : Prop :=
  decode 0x31000000#32 = .command .decinl ∧ decode 0x32000000#32 = .command .decapp ∧
  ∀ (s : State) (d : Descriptor), s.fatal = false → Decodable s d → erased s 0 d.k.toNat = [] →
    (InlInRange s d → exec .decinl s = .next (answered 0x00#8 s)) ∧
    (AppInRange s d → ¬ AppOverlap s d → exec .decapp s = .next (answered 0x00#8 s))

/-- `DECINL` completes on every recoverable erasure map, and writes exactly the erased source blocks, from the inverse of
the decoding matrix and the blocks at `src(j)`. -/
def Obligations.DecinlReconstructsTheErasedBlocks : Prop :=
  ∀ (s : State) (d : Descriptor), s.Healthy → Decodable s d → InlInRange s d →
    ∃ t X, exec .decinl s = .next t ∧ t = answered 0x00#8 { s with dmem := t.dmem } ∧
      matmul builtTables X (decodingMatrix d s) = identity d.k.toNat ∧ Reconstructed d (addrInl s) X s t

/-- `DECAPP` completes on every recoverable erasure map, and writes exactly the erased source blocks, from the inverse of
the decoding matrix and the blocks at `src(j)`. -/
def Obligations.DecappReconstructsTheErasedBlocks : Prop :=
  ∀ (s : State) (d : Descriptor), s.Healthy → Decodable s d → AppInRange s d → ¬ AppOverlap s d →
    ∃ t X, exec .decapp s = .next t ∧ t = answered 0x00#8 { s with dmem := t.dmem } ∧
      matmul builtTables X (decodingMatrix d s) = identity d.k.toNat ∧ Reconstructed d (addrApp d.k s) X s t

/-- R157: the errors of `DECINL` and `DECAPP`, the first condition that applies; `SingularMatrix` sets `FATAL`, every
other changes nothing but `STATUS` and `RESULT`. -/
def Obligations.DecodeErrorsInOrder : Prop :=
  DecodeErrors .decinl InlInRange (fun _ _ => False) ∧ DecodeErrors .decapp AppInRange AppOverlap

/-- Round trip: when the valid blocks hold what the encoder makes of some source bytes, a decode on any recoverable
erasure map leaves exactly those source bytes in all K source blocks. -/
def Obligations.DecodeRestoresTheSourceBlocks : Prop :=
  ∀ (s : State) (d : Descriptor) (bytes : Fin d.k.toNat → Nat → Byte), s.Healthy → Decodable s d →
    (InlInRange s d → Consistent d (addrInl s) bytes s → ∃ t, exec .decinl s = .next t ∧ t.status = 0x00#8 ∧
      ∀ (j : Fin d.k.toNat), ∀ b < s.len.toNat, Memory.read t.dmem (addrInl s j + b) = bytes j b) ∧
    (AppInRange s d → ¬ AppOverlap s d → Consistent d (addrApp d.k s) bytes s →
      ∃ t, exec .decapp s = .next t ∧ t.status = 0x00#8 ∧
        ∀ (j : Fin d.k.toNat), ∀ b < s.len.toNat, Memory.read t.dmem (addrApp d.k s j + b) = bytes j b)

/-- Layout equivalence: with the same descriptor, `L`, `BLEN`, `EMAP` and the same bytes in the valid blocks, `DECINL` in
the one layout and `DECAPP` in the other end with the same status, and on success with the same recovered bytes. -/
def Obligations.LayoutsRecoverTheSameBytes : Prop :=
  ∀ (s₁ s₂ : State) (d : Descriptor), s₁.fatal = false → s₂.fatal = false → s₁.TablesOk → s₂.TablesOk →
    s₁.desc = some d → s₂.desc = some d → s₁.len = s₂.len → s₁.blen = s₂.blen → s₁.emap = s₂.emap →
    InlInRange s₁ d → AppInRange s₂ d → ¬ AppOverlap s₂ d →
    (∀ i < d.n.toNat, s₁.emap[i]? = some false → ∀ b < s₁.len.toNat,
      Memory.read s₁.dmem (addrInl s₁ i + b) = Memory.read s₂.dmem (addrApp d.k s₂ i + b)) →
    ∃ t₁ t₂, exec .decinl s₁ = .next t₁ ∧ exec .decapp s₂ = .next t₂ ∧ t₁.status = t₂.status ∧
      (t₁.status = 0x00#8 → ∀ e < d.k.toNat, s₁.emap[e]? = some true → ∀ b < s₁.len.toNat,
        Memory.read t₁.dmem (addrInl s₁ e + b) = Memory.read t₂.dmem (addrApp d.k s₂ e + b))

/-- What a decode recovers depends on no byte but those of the blocks at `src(j)`: not on an erased block's old content,
not on a surviving parity block it did not pick, not on the rest of memory. -/
def Obligations.DecodeReadsOnlyThePickedBlocks : Prop :=
  ∀ (s : State) (m : Memory) (d : Descriptor), Decodable s d →
    ∀ (i : Instr) (addr : Nat → Nat), (i = .decinl ∧ addr = addrInl s) ∨ (i = .decapp ∧ addr = addrApp d.k s) →
    (∀ j < d.k.toNat, ∀ b < s.len.toNat,
      Memory.read s.dmem (addr (source d s j) + b) = Memory.read m (addr (source d s j) + b)) →
    ∃ t u, exec i s = .next t ∧ exec i { s with dmem := m } = .next u ∧ t.status = u.status ∧
      (t.status = 0x00#8 → ∀ e < d.k.toNat, s.emap[e]? = some true → ∀ b < s.len.toNat,
        Memory.read t.dmem (addr e + b) = Memory.read u.dmem (addr e + b))

/-- Where `BASE_B = BASE_A + K*L` the two layouts coincide (R50), and `DECAPP` answers what `DECINL` answers, errors
included (R52, R53, R150 to R157), in every state whose descriptor has 2 <= K <= N (`SizedDesc`). -/
def Obligations.CoincidingLayoutsDecodeAlike : Prop :=
  ∀ (s : State) (d : Descriptor), s.desc = some d → SizedDesc s →
    s.baseB.toNat = s.baseA.toNat + d.k.toNat * s.len.toNat →
    (∀ i, addrApp d.k s i = addrInl s i) ∧ exec .decapp s = exec .decinl s

/-- A data command that succeeded succeeds again when repeated, and the second run changes no byte. -/
def Obligations.RepeatingADataCommandChangesNothing : Prop :=
  ∀ (i : Instr) (s t : State), writesMemory i = true → exec i s = .next t → t.status = 0x00#8 →
    ∃ u, exec i t = .next u ∧ u = { t with dmem := u.dmem } ∧ ∀ c, Memory.read u.dmem c = Memory.read t.dmem c

/-- Every byte address a data command that succeeds reads or writes lies below `MEM_BYTES`, and none that it writes is
one that it reads. -/
def Obligations.DataCommandsAccessInRangeAndDisjoint : Prop :=
  ∀ (s t : State) (d : Descriptor), s.fatal = false → s.desc = some d → t.status = 0x00#8 →
    (∀ p, exec (.encodeBlock p) s = .next t → ∀ j < d.k.toNat, ∀ b < s.len.toNat, ∀ c < s.len.toNat,
      addrSrc s j + b < Config.memBytes ∧ s.outBase.toNat + c < Config.memBytes ∧
        addrSrc s j + b ≠ s.outBase.toNat + c) ∧
    (exec .decinl s = .next t → ∀ j < d.n.toNat, ∀ e < d.n.toNat, ∀ b < s.len.toNat, ∀ c < s.len.toNat,
      addrInl s j + b < Config.memBytes ∧ (j ≠ e → addrInl s j + b ≠ addrInl s e + c)) ∧
    (exec .decapp s = .next t → ∀ j < d.n.toNat, ∀ e < d.n.toNat, ∀ b < s.len.toNat, ∀ c < s.len.toNat,
      addrApp d.k s j + b < Config.memBytes ∧ (j ≠ e → addrApp d.k s j + b ≠ addrApp d.k s e + c))

/-- `BLEN` and `EMAP` at positions a command does not use make no difference (R19, R23): at positions >= N none to a
decode, `BLEN` at positions >= K and all of `EMAP` none to `ENCODE`; nor does `BASE_B` to `DECINL` and `ENCODE`, nor
`OUT_BASE` to a decode. -/
def Obligations.UnusedOperandsAreIgnored : Prop :=
  ∀ (s u t : State) (d : Descriptor), s.desc = some d → SizedDesc s →
    u = { s with blen := u.blen, emap := u.emap, baseB := u.baseB, outBase := u.outBase } →
    (u.outBase = s.outBase → (∀ i < d.k.toNat, u.blen[i]? = s.blen[i]?) → ∀ p, exec (.encodeBlock p) s = .next t →
      exec (.encodeBlock p) u = .next { t with blen := u.blen, emap := u.emap, baseB := u.baseB }) ∧
    ((∀ i < d.n.toNat, u.blen[i]? = s.blen[i]? ∧ u.emap[i]? = s.emap[i]?) →
      (exec .decinl s = .next t →
        exec .decinl u =
          .next { t with blen := u.blen, emap := u.emap, baseB := u.baseB, outBase := u.outBase }) ∧
      (u.baseB = s.baseB → exec .decapp s = .next t →
        exec .decapp u = .next { t with blen := u.blen, emap := u.emap, outBase := u.outBase }))

/-! ## The whole machine -/

/-- R172: a command that ends with an error changes nothing but `STATUS` and `RESULT` (0), `FATAL` when the error is
`SingularMatrix`, and the unobservable table build; an illegal word changes nothing else at all. -/
def Obligations.ErrorsChangeNothingElse : Prop :=
  (∀ (i : Instr) (s t : State), exec i s = .next t → t.status ≠ 0x00#8 →
    t = { s with status := t.status, result := 0x00#8, fatal := s.fatal || t.status == 0x06#8, tables := t.tables } ∧
      (t.tables = s.tables ∨ (buildsTables i = true ∧ t.tables = some s.tablesNow))) ∧
  ∀ (cw : Word) (why : Illegal) (s : State), decode cw = .illegal why →
    execute cw s = .next (errored (if s.fatal then 0x1F#8 else 0x10#8) s)

/-- R174 (marked as derived by the spec): the statuses each command can end with. -/
def Obligations.StatusesOfEachCommand : Prop :=
  ∀ (i : Instr) (s t : State), exec i s = .next t →
    (s.fatal = true ∧ t.status = 0x1F#8) ∨ (s.fatal = false ∧ (t.status = 0x00#8 ∨ t.status ∈ possibleStatuses i))

/-- `RESULT` is 0 after a command that returns no byte and after every error. -/
def Obligations.ResultIsZeroUnlessAByteIsReturned : Prop :=
  ∀ (i : Instr) (s t : State), exec i s = .next t → returnsByte i = false ∨ t.status ≠ 0x00#8 → t.result = 0x00#8

/-- Which command may write which state: each operand register only its own set-up command, the descriptor only `CREATE`
and `DESTROY`, `DMEM` only the three data commands, `FATAL` only those that can be singular, the tables only those that
build them; and no command touches what the host still has to do. -/
def Obligations.EachStateHasItsWriters : Prop :=
  ∀ (i : Instr) (s t : State), exec i s = .next t →
    (t.len ≠ s.len → ∃ v, i = .setl v) ∧ (t.blen ≠ s.blen → ∃ p v, i = .setblen p v) ∧
    (t.baseA ≠ s.baseA → ∃ v, i = .setbasea v) ∧ (t.baseB ≠ s.baseB → ∃ v, i = .setbaseb v) ∧
    (t.outBase ≠ s.outBase → ∃ v, i = .setout v) ∧
    (t.emap ≠ s.emap → i = .emclr ∨ (∃ p, i = .emset p) ∨ ∃ p, i = .emval p) ∧
    (t.desc ≠ s.desc → (s.desc = none ∧ ∃ n k, i = .create n k) ∨ (t.desc = none ∧ i = .destroy)) ∧
    (t.dmem ≠ s.dmem → writesMemory i = true) ∧ (t.fatal ≠ s.fatal → t.fatal = true ∧ mayBeSingular i = true) ∧
    (t.tables ≠ s.tables → s.tables = none ∧ t.tables = some builtTables ∧ buildsTables i = true) ∧
    t.port = s.port ∧ t.readData = s.readData

/-- Only the reset input clears `FATAL` (that reset is an action of the port is the model's choice, log entry 2). -/
def Obligations.OnlyResetClearsFatal : Prop :=
  ∀ s t : State, step s = .next t → s.fatal = true → t.fatal = true ∨ ∃ rest, s.port = .reset :: rest

/-- Every step keeps the invariant: a legal status, `RESULT` 0 on an error, the tables those of the build, the descriptor
one that `CREATE` built, memory in its canonical form. -/
def Obligations.StepKeepsTheInvariant : Prop := ∀ s t : State, s.Inv → step s = .next t → t.Inv

/-- The state after reset meets the invariant and is not fatal. -/
def Obligations.ResetIsHealthy : Prop := State.reset.Healthy

/-- No step from a sound state sets `FATAL`: the singular matrix of R177 is unreachable. -/
def Obligations.NoStepSetsFatal : Prop := ∀ s t : State, s.Healthy → step s = .next t → t.fatal = false

/-- Whatever the host does after reset, in any number of steps, the run is safe and stays healthy: no word, access or
reset stops the machine or brings it to the fatal state. (The port is the model's own, log entry 1; that no 24-bit address
is refused rests on the default `MEM_BYTES`, log entries 6 and 12.) -/
def Obligations.NoHostCanBreakTheMachine : Prop :=
  ∀ acts : List HostAction, SafeRun { State.reset with port := acts } ∧
    ∀ steps t, Sys2Proof.core.run steps { State.reset with port := acts } = .next t → t.Healthy

/-- Every command word, legal or not, in every state, is taken off the port (the model's own, log entry 1) and answered in
the same step by a 16-bit response with `STATUS` in bits 15:8 and `RESULT` in bits 7:0 (R60): its high byte is a code of
R170, and its low byte is 0 beside every code but `0x00` (R175). -/
def Obligations.EveryWordGetsItsResponse : Prop :=
  ∀ (s : State) (cw : Word) (rest : List HostAction), s.port = .command cw :: rest →
    ∃ t, step s = .next t ∧ t.port = rest ∧
      t.response.extractLsb' 8 8 = t.status ∧ t.response.extractLsb' 0 8 = t.result ∧
      t.response.toNat / 2 ^ 8 ∈ statusCodes ∧ (t.response.toNat / 2 ^ 8 ≠ 0 → t.response.toNat % 2 ^ 8 = 0)
end

