-- ==== Sys2Proof/Laws/Decode.lean ====
section
/-!
SUPPORT. The fields of a laid out word, and the bits its format requires to be zero.
-/

namespace Sys2Proof.Laws

/-! ## Bit i of a word -/

theorem getLsbD_wordAB (op a b : Byte) (i : Nat) :
    (wordAB op a b).getLsbD i = if i < 8 then false else if i - 8 < 8 then b.getLsbD (i - 8)
      else if i - 8 - 8 < 8 then a.getLsbD (i - 8 - 8) else op.getLsbD (i - 8 - 8 - 8) := by
  have h : (wordAB op a b).getLsbD i = (op ++ a ++ b ++ 0#8 : BitVec (8 + 8 + 8 + 8)).getLsbD i := rfl
  rw [h, BitVec.getLsbD_append, BitVec.getLsbD_append, BitVec.getLsbD_append]
  simp

theorem getLsbD_wordAI (op a : Byte) (imm : Len) (i : Nat) :
    (wordAI op a imm).getLsbD i = if i < 16 then imm.getLsbD i
      else if i - 16 < 8 then a.getLsbD (i - 16) else op.getLsbD (i - 16 - 8) := by
  have h : (wordAI op a imm).getLsbD i = (op ++ a ++ imm : BitVec (8 + 8 + 16)).getLsbD i := rfl
  rw [h, BitVec.getLsbD_append, BitVec.getLsbD_append]

theorem getLsbD_wordI24 (op : Byte) (imm : Addr) (i : Nat) :
    (wordI24 op imm).getLsbD i = if i < 24 then imm.getLsbD i else op.getLsbD (i - 24) := by
  have h : (wordI24 op imm).getLsbD i = (op ++ imm : BitVec (8 + 24)).getLsbD i := rfl
  rw [h, BitVec.getLsbD_append]

/-! ## The fields of a word -/

@[simp] theorem opField_wordAB (op a b : Byte) : opField (wordAB op a b) = op := by
  ext i hi
  rw [opField, BitVec.getElem_extractLsb', getLsbD_wordAB]
  interval_cases i <;> simp

@[simp] theorem aField_wordAB (op a b : Byte) : aField (wordAB op a b) = a := by
  ext i hi
  rw [aField, BitVec.getElem_extractLsb', getLsbD_wordAB]
  interval_cases i <;> simp

@[simp] theorem bField_wordAB (op a b : Byte) : bField (wordAB op a b) = b := by
  ext i hi
  rw [bField, BitVec.getElem_extractLsb', getLsbD_wordAB]
  interval_cases i <;> simp

@[simp] theorem opField_wordAI (op a : Byte) (imm : Len) : opField (wordAI op a imm) = op := by
  ext i hi
  rw [opField, BitVec.getElem_extractLsb', getLsbD_wordAI]
  interval_cases i <;> simp

@[simp] theorem aField_wordAI (op a : Byte) (imm : Len) : aField (wordAI op a imm) = a := by
  ext i hi
  rw [aField, BitVec.getElem_extractLsb', getLsbD_wordAI]
  interval_cases i <;> simp

@[simp] theorem imm16Field_wordAI (op a : Byte) (imm : Len) : imm16Field (wordAI op a imm) = imm := by
  ext i hi
  rw [imm16Field, BitVec.getElem_extractLsb', getLsbD_wordAI]
  simp [hi]

@[simp] theorem opField_wordI24 (op : Byte) (imm : Addr) : opField (wordI24 op imm) = op := by
  ext i hi
  rw [opField, BitVec.getElem_extractLsb', getLsbD_wordI24]
  interval_cases i <;> simp

@[simp] theorem imm24Field_wordI24 (op : Byte) (imm : Addr) : imm24Field (wordI24 op imm) = imm := by
  ext i hi
  rw [imm24Field, BitVec.getElem_extractLsb', getLsbD_wordI24]
  simp [hi]

/-! ## The bits a format requires to be zero -/

@[simp] theorem wordAB_and_AB (op a b : Byte) : wordAB op a b &&& Format.mustBeZero .AB = 0#32 := by
  ext i hi
  rw [BitVec.getElem_and, ← BitVec.getLsbD_eq_getElem, getLsbD_wordAB]
  interval_cases i <;> simp [Format.mustBeZero]

@[simp] theorem wordAB_and_A (op a : Byte) : wordAB op a 0#8 &&& Format.mustBeZero .A = 0#32 := by
  ext i hi
  rw [BitVec.getElem_and, ← BitVec.getLsbD_eq_getElem, getLsbD_wordAB]
  interval_cases i <;> simp [Format.mustBeZero]

@[simp] theorem wordAB_and_Z (op : Byte) : wordAB op 0#8 0#8 &&& Format.mustBeZero .Z = 0#32 := by
  ext i hi
  rw [BitVec.getElem_and, ← BitVec.getLsbD_eq_getElem, getLsbD_wordAB]
  interval_cases i <;> simp [Format.mustBeZero]

@[simp] theorem wordAI_and_I16 (op : Byte) (imm : Len) : wordAI op 0#8 imm &&& Format.mustBeZero .I16 = 0#32 := by
  ext i hi
  rw [BitVec.getElem_and, ← BitVec.getLsbD_eq_getElem, getLsbD_wordAI]
  interval_cases i <;> simp [Format.mustBeZero]

@[simp] theorem and_AI (cw : Word) : cw &&& Format.mustBeZero .AI = 0#32 := by simp [Format.mustBeZero]

@[simp] theorem and_I24 (cw : Word) : cw &&& Format.mustBeZero .I24 = 0#32 := by simp [Format.mustBeZero]

/-! ## The decoder row by row -/

/-- What `decode` answers once the row of the word's opcode is known. -/
theorem decode_of_row {cw : Word} {row : Row} (h : opcodeTable.find? (fun r => r.op == opField cw) = some row) :
    decode cw = if cw &&& row.format.mustBeZero = 0#32 then .command (row.make cw) else .illegal .reservedBits := by
  rw [decode, h]

/-- A row the decoder finds is of the table and has the word's opcode. -/
theorem row_of_find {cw : Word} {row : Row} (h : opcodeTable.find? (fun r => r.op == opField cw) = some row) :
    row ∈ opcodeTable ∧ row.op = opField cw := by
  refine ⟨List.mem_of_find?_eq_some h, ?_⟩
  simpa using List.find?_some h

/-- The rows' opcodes differ, so at most one row matches a word (`30_encoding.md` R62). -/
theorem opcodes_pairwise_ne : opcodeTable.Pairwise fun r q => r.op ≠ q.op := by
  simp [opcodeTable]

end Sys2Proof.Laws
end

