-- ==== Sys2Proof/Laws/Tabulate.lean ====
section
/-!
SUPPORT. The small lemmas of tables, matrices given by their entries, and `xorSum`.
-/

namespace Sys2Proof.Laws
open Sys2Proof.Machine

theorem getElem_tabulate {α : Type} (n : Nat) (f : Fin n → α) (i : Nat) (h : i < (tabulate n f).length) :
    (tabulate n f)[i] = f ⟨i, by simpa using h⟩ := by
  induction n generalizing i with
  | zero => simp at h
  | succ n ih =>
    cases i with
    | zero => rfl
    | succ i => simpa [tabulate] using ih (fun j => f j.succ) i (by simpa [tabulate] using h)

@[simp] theorem getElem_vectorOf {α : Type} (n : Nat) (f : Fin n → α) (i : Nat) (h : i < n) :
    (vectorOf n f)[i] = f ⟨i, h⟩ := getElem_tabulate n f i _

@[simp] theorem entry_matrixOf {n m : Nat} (f : Fin n → Fin m → Byte) (i : Fin n) (j : Fin m) :
    entry (matrixOf f) i j = f i j := by
  simp [entry, matrixOf]

/-- Two matrices with the same entries are the same. -/
theorem matrix_ext {n m : Nat} {A B : Mat n m} (h : ∀ i j, entry A i j = entry B i j) : A = B := by
  apply Vector.ext
  intro i hi
  apply Vector.ext
  intro j hj
  exact h ⟨i, hi⟩ ⟨j, hj⟩

@[simp] theorem xorSum_zero (f : Fin 0 → Byte) : xorSum 0 f = 0#8 := rfl

theorem xorSum_succ (n : Nat) (f : Fin (n + 1) → Byte) :
    xorSum (n + 1) f = xorSum n (fun j => f j.castSucc) ^^^ f (Fin.last n) := rfl

/-- The exclusive-or of zeros is zero. -/
theorem xorSum_eq_zero {n : Nat} {f : Fin n → Byte} (h : ∀ j, f j = 0#8) : xorSum n f = 0#8 := by
  induction n with
  | zero => rfl
  | succ n ih => rw [xorSum_succ, ih fun j => h _, h]; rfl

end Sys2Proof.Laws
end

