-- ==== Sys2Proof/Laws/Decoder.lean ====
section
/-!
SUPPORT. The erased and surviving positions of a decode, and which surviving position stands in for which erased one
(`44_decoder.md` R153, R154).
-/

namespace Sys2Proof.Laws
open Sys2Proof.Machine

/-! ## Positions by their number -/

theorem emap_getElem? (s : State) {n : Byte} (i : Fin n.toNat) : s.emap[i.val]? = some (erasedAt s i) :=
  Vector.getElem?_eq_getElem (posBelow n i).isLt

theorem blen_getElem? (s : State) {n : Byte} (i : Fin n.toNat) : s.blen[i.val]? = some (blenAt s i) :=
  Vector.getElem?_eq_getElem (posBelow n i).isLt

/-- The positions that a test picks, as numbers. -/
theorem map_val_filter_finRange {n : Nat} (p : Fin n → Bool) (q : Nat → Bool) (h : ∀ i, p i = q i.val) :
    ((List.finRange n).filter p).map Fin.val = (List.range n).filter q := by
  rw [← List.map_coe_finRange_eq_range, List.filter_map]
  congr 1
  exact List.filter_congr fun i _ => h i

/-- The position that a number i of an ascending selection holds has i selected positions below it. -/
theorem getElem?_filter_range {n j : Nat} (q : Nat → Bool) (hj : j < n) (hq : q j = true) :
    ((List.range n).filter q)[((List.range j).filter q).length]? = some j := by
  obtain ⟨m, rfl⟩ : ∃ m, n = j + (m + 1) := ⟨n - j - 1, by omega⟩
  rw [List.range_add, List.filter_append, List.getElem?_append_right (le_refl _), Nat.sub_self,
    List.range_succ_eq_map, List.map_cons, Nat.add_zero, List.filter_cons_of_pos hq]
  rfl

/-! ## Erased and surviving positions -/

@[simp] theorem mem_erasedSources {d : Descriptor} {s : State} {j : Fin d.k.toNat} :
    j ∈ erasedSources d s ↔ erasedAt s j = true := by simp [erasedSources]

@[simp] theorem mem_survivingParity {d : Descriptor} {s : State} {p : Fin d.n.toNat} :
    p ∈ survivingParity d s ↔ d.k.toNat ≤ p.val ∧ erasedAt s p = false := by simp [survivingParity]

theorem nodup_erasedSources (d : Descriptor) (s : State) : (erasedSources d s).Nodup :=
  (List.nodup_finRange _).filter _

theorem nodup_survivingParity (d : Descriptor) (s : State) : (survivingParity d s).Nodup :=
  (List.nodup_finRange _).filter _

/-- |P| <= N - K, so that the second test of R153 alone decides. -/
theorem length_survivingParity_le (d : Descriptor) (s : State) :
    (survivingParity d s).length ≤ d.n.toNat - d.k.toNat := by
  have h : ((survivingParity d s).map fun p => p.val - d.k.toNat).Nodup := by
    refine (List.nodup_map_iff_inj_on (nodup_survivingParity d s)).mpr fun p hp q hq e => Fin.ext ?_
    have := (mem_survivingParity.mp hp).1
    have := (mem_survivingParity.mp hq).1
    omega
  have hsub : (survivingParity d s).map (fun p => p.val - d.k.toNat) ⊆ List.range (d.n.toNat - d.k.toNat) := by
    intro x hx
    obtain ⟨p, hp, rfl⟩ := List.mem_map.mp hx
    have := (mem_survivingParity.mp hp).1
    have := p.isLt
    exact List.mem_range.mpr (by omega)
  simpa using (List.subperm_of_subset h hsub).length_le

theorem unrecoverable_eq_false {d : Descriptor} {s : State} :
    unrecoverable d s = false ↔ (erasedSources d s).length ≤ (survivingParity d s).length := by
  have := length_survivingParity_le d s
  simp only [unrecoverable, Bool.or_eq_false_iff, decide_eq_false_iff_not, not_lt]
  omega

/-! ## The pairing -/

theorem lookup_zip_getElem {α β : Type} [DecidableEq α] {E : List α} {P : List β} (hE : E.Nodup) {i : Nat}
    (hi : i < E.length) (hp : i < P.length) : (E.zip P).lookup E[i] = some P[i] := by
  induction E generalizing P i with
  | nil => simp at hi
  | cons e E ih =>
    cases P with
    | nil => simp at hp
    | cons p P =>
      cases i with
      | zero => simp
      | succ i =>
        have hne : E[i]'(by simpa using hi) ≠ e :=
          fun h => (List.nodup_cons.mp hE).1 (h ▸ List.getElem_mem _)
        simpa [List.lookup, beq_false_of_ne hne] using ih (List.nodup_cons.mp hE).2 (by simpa using hi) (by simpa using hp)

theorem lookup_zip_eq_none {α β : Type} [DecidableEq α] {E : List α} {P : List β} {a : α} (h : a ∉ E) :
    (E.zip P).lookup a = none := by
  induction E generalizing P with
  | nil => rfl
  | cons e E ih =>
    cases P with
    | nil => rfl
    | cons p P =>
      have hne : a ≠ e := fun h' => h (by simp [h'])
      simpa [List.lookup, beq_false_of_ne hne] using ih fun hm => h (List.mem_cons_of_mem _ hm)

theorem substitute_of_valid {d : Descriptor} {s : State} {j : Fin d.k.toNat} (h : erasedAt s j = false) :
    substitute d s j = none :=
  lookup_zip_eq_none (by simp [h])

/-- The t-th erased source position takes the t-th surviving parity position. -/
theorem substitute_of_erased {d : Descriptor} {s : State} (hu : unrecoverable d s = false) {j : Fin d.k.toNat}
    (h : erasedAt s j = true) :
    ∃ (t : Nat) (ht : t < (erasedSources d s).length) (hp : t < (survivingParity d s).length),
      (erasedSources d s)[t] = j ∧ substitute d s j = some (survivingParity d s)[t] := by
  obtain ⟨t, ht, rfl⟩ := List.getElem_of_mem (mem_erasedSources.mpr h)
  have hp := Nat.lt_of_lt_of_le ht (unrecoverable_eq_false.mp hu)
  exact ⟨t, ht, hp, rfl, lookup_zip_getElem (nodup_erasedSources d s) ht hp⟩

theorem sourceOf_of_valid {d : Descriptor} {s : State} {j : Fin d.k.toNat} (h : erasedAt s j = false) :
    sourceOf d s j = j.val := by simp [sourceOf, substitute_of_valid h]

/-- What stands in for an erased position is a valid parity position, and row j of the decoding matrix is its row. -/
theorem sourceOf_of_erased {d : Descriptor} {s : State} (hu : unrecoverable d s = false) {j : Fin d.k.toNat}
    (h : erasedAt s j = true) :
    ∃ p : Fin d.n.toNat, sourceOf d s j = p.val ∧ d.k.toNat ≤ p.val ∧ erasedAt s p = false ∧
      ∀ c, entry (decodingMatrix d s) j c = entry d.gm p c := by
  obtain ⟨t, -, hp, -, e⟩ := substitute_of_erased hu h
  have hm := mem_survivingParity.mp (List.getElem_mem hp)
  exact ⟨_, by simp [sourceOf, e], hm.1, hm.2, fun c => by simp [decodingMatrix, entry_matrixOf, e]⟩

theorem entry_decodingMatrix_of_valid {d : Descriptor} {s : State} {j : Fin d.k.toNat} (h : erasedAt s j = false)
    (c : Fin d.k.toNat) : entry (decodingMatrix d s) j c = entry (identity d.k.toNat) j c := by
  simp [decodingMatrix, entry_matrixOf, substitute_of_valid h]

/-- R154: the `src(j)` are distinct. -/
theorem sourceOf_injective {d : Descriptor} {s : State} (hu : unrecoverable d s = false) :
    Function.Injective (sourceOf d s) := by
  intro i j e
  cases hi : erasedAt s i <;> cases hj : erasedAt s j
  · rw [sourceOf_of_valid hi, sourceOf_of_valid hj] at e
    exact Fin.ext e
  · obtain ⟨p, hp, hk, -⟩ := sourceOf_of_erased hu hj
    rw [sourceOf_of_valid hi, hp] at e
    have := i.isLt
    omega
  · obtain ⟨p, hp, hk, -⟩ := sourceOf_of_erased hu hi
    rw [sourceOf_of_valid hj, hp] at e
    have := j.isLt
    omega
  · obtain ⟨t, ht, hp, rfl, es⟩ := substitute_of_erased hu hi
    obtain ⟨u, hu', hq, rfl, eu⟩ := substitute_of_erased hu hj
    have h : (survivingParity d s)[t] = (survivingParity d s)[u] := by
      apply Fin.ext
      simpa [sourceOf, es, eu] using e
    have := (List.Nodup.getElem_inj_iff (nodup_survivingParity d s)).mp h
    subst this
    rfl

/-- R154: every `src(j)` is a valid logical position. -/
theorem sourceOf_valid {d : Descriptor} {s : State} (hu : unrecoverable d s = false) (hkn : d.k.toNat ≤ d.n.toNat)
    (j : Fin d.k.toNat) : ∃ p : Fin d.n.toNat, sourceOf d s j = p.val ∧ erasedAt s p = false := by
  cases hj : erasedAt s j
  · exact ⟨Fin.castLE hkn j, sourceOf_of_valid hj, hj⟩
  · obtain ⟨p, hp, -, hv, -⟩ := sourceOf_of_erased hu hj
    exact ⟨p, hp, hv⟩

end Sys2Proof.Laws
end

