-- ==== Sys2Proof/Laws/State.lean ====
section
/-!
SUPPORT. One lemma per field for each named update of the state.
-/

namespace Sys2Proof.Laws
open Sys2Proof.Machine

/-! ## The response -/

/-- The response as a number: `STATUS` above `RESULT`. -/
theorem response_toNat (s : State) : s.response.toNat = s.status.toNat * 2 ^ 8 + s.result.toNat := by
  rw [State.response, BitVec.toNat_append, ← Nat.shiftLeft_add_eq_or_of_lt s.result.isLt, Nat.shiftLeft_eq]

/-! ## respond -/

@[simp] theorem respond_status (x : Status) (v : Byte) (s : State) : (respond x v s).status = x.code := rfl
@[simp] theorem respond_result (x : Status) (v : Byte) (s : State) : (respond x v s).result = v := rfl
@[simp] theorem respond_response (x : Status) (v : Byte) (s : State) : (respond x v s).response = x.code ++ v := rfl
@[simp] theorem respond_fatal (x : Status) (v : Byte) (s : State) : (respond x v s).fatal = s.fatal := rfl
@[simp] theorem respond_tables (x : Status) (v : Byte) (s : State) : (respond x v s).tables = s.tables := rfl
@[simp] theorem respond_desc (x : Status) (v : Byte) (s : State) : (respond x v s).desc = s.desc := rfl
@[simp] theorem respond_len (x : Status) (v : Byte) (s : State) : (respond x v s).len = s.len := rfl
@[simp] theorem respond_blen (x : Status) (v : Byte) (s : State) : (respond x v s).blen = s.blen := rfl
@[simp] theorem respond_baseA (x : Status) (v : Byte) (s : State) : (respond x v s).baseA = s.baseA := rfl
@[simp] theorem respond_baseB (x : Status) (v : Byte) (s : State) : (respond x v s).baseB = s.baseB := rfl
@[simp] theorem respond_outBase (x : Status) (v : Byte) (s : State) : (respond x v s).outBase = s.outBase := rfl
@[simp] theorem respond_emap (x : Status) (v : Byte) (s : State) : (respond x v s).emap = s.emap := rfl
@[simp] theorem respond_dmem (x : Status) (v : Byte) (s : State) : (respond x v s).dmem = s.dmem := rfl
@[simp] theorem respond_port (x : Status) (v : Byte) (s : State) : (respond x v s).port = s.port := rfl
@[simp] theorem respond_readData (x : Status) (v : Byte) (s : State) : (respond x v s).readData = s.readData := rfl

/-! ## done -/

@[simp] theorem done_status (v : Byte) (s : State) : (done v s).status = 0x00#8 := rfl
@[simp] theorem done_result (v : Byte) (s : State) : (done v s).result = v := rfl
@[simp] theorem done_fatal (v : Byte) (s : State) : (done v s).fatal = s.fatal := rfl
@[simp] theorem done_tables (v : Byte) (s : State) : (done v s).tables = s.tables := rfl
@[simp] theorem done_desc (v : Byte) (s : State) : (done v s).desc = s.desc := rfl
@[simp] theorem done_len (v : Byte) (s : State) : (done v s).len = s.len := rfl
@[simp] theorem done_blen (v : Byte) (s : State) : (done v s).blen = s.blen := rfl
@[simp] theorem done_baseA (v : Byte) (s : State) : (done v s).baseA = s.baseA := rfl
@[simp] theorem done_baseB (v : Byte) (s : State) : (done v s).baseB = s.baseB := rfl
@[simp] theorem done_outBase (v : Byte) (s : State) : (done v s).outBase = s.outBase := rfl
@[simp] theorem done_emap (v : Byte) (s : State) : (done v s).emap = s.emap := rfl
@[simp] theorem done_dmem (v : Byte) (s : State) : (done v s).dmem = s.dmem := rfl
@[simp] theorem done_port (v : Byte) (s : State) : (done v s).port = s.port := rfl
@[simp] theorem done_readData (v : Byte) (s : State) : (done v s).readData = s.readData := rfl

/-! ## raise -/

@[simp] theorem raise_status (x : Status) (s : State) : (raise x s).status = x.code := rfl
@[simp] theorem raise_result (x : Status) (s : State) : (raise x s).result = 0x00#8 := rfl
@[simp] theorem raise_fatal (x : Status) (s : State) : (raise x s).fatal = s.fatal := rfl
@[simp] theorem raise_tables (x : Status) (s : State) : (raise x s).tables = s.tables := rfl
@[simp] theorem raise_desc (x : Status) (s : State) : (raise x s).desc = s.desc := rfl
@[simp] theorem raise_len (x : Status) (s : State) : (raise x s).len = s.len := rfl
@[simp] theorem raise_blen (x : Status) (s : State) : (raise x s).blen = s.blen := rfl
@[simp] theorem raise_baseA (x : Status) (s : State) : (raise x s).baseA = s.baseA := rfl
@[simp] theorem raise_baseB (x : Status) (s : State) : (raise x s).baseB = s.baseB := rfl
@[simp] theorem raise_outBase (x : Status) (s : State) : (raise x s).outBase = s.outBase := rfl
@[simp] theorem raise_emap (x : Status) (s : State) : (raise x s).emap = s.emap := rfl
@[simp] theorem raise_dmem (x : Status) (s : State) : (raise x s).dmem = s.dmem := rfl
@[simp] theorem raise_port (x : Status) (s : State) : (raise x s).port = s.port := rfl
@[simp] theorem raise_readData (x : Status) (s : State) : (raise x s).readData = s.readData := rfl

/-! ## raiseSingular -/

@[simp] theorem raiseSingular_status (s : State) : (raiseSingular s).status = 0x06#8 := rfl
@[simp] theorem raiseSingular_result (s : State) : (raiseSingular s).result = 0x00#8 := rfl
@[simp] theorem raiseSingular_fatal (s : State) : (raiseSingular s).fatal = true := rfl
@[simp] theorem raiseSingular_tables (s : State) : (raiseSingular s).tables = s.tables := rfl
@[simp] theorem raiseSingular_desc (s : State) : (raiseSingular s).desc = s.desc := rfl
@[simp] theorem raiseSingular_len (s : State) : (raiseSingular s).len = s.len := rfl
@[simp] theorem raiseSingular_blen (s : State) : (raiseSingular s).blen = s.blen := rfl
@[simp] theorem raiseSingular_baseA (s : State) : (raiseSingular s).baseA = s.baseA := rfl
@[simp] theorem raiseSingular_baseB (s : State) : (raiseSingular s).baseB = s.baseB := rfl
@[simp] theorem raiseSingular_outBase (s : State) : (raiseSingular s).outBase = s.outBase := rfl
@[simp] theorem raiseSingular_emap (s : State) : (raiseSingular s).emap = s.emap := rfl
@[simp] theorem raiseSingular_dmem (s : State) : (raiseSingular s).dmem = s.dmem := rfl
@[simp] theorem raiseSingular_port (s : State) : (raiseSingular s).port = s.port := rfl
@[simp] theorem raiseSingular_readData (s : State) : (raiseSingular s).readData = s.readData := rfl

/-! ## ensureTables -/

@[simp] theorem ensureTables_status (s : State) : (ensureTables s).status = s.status := rfl
@[simp] theorem ensureTables_result (s : State) : (ensureTables s).result = s.result := rfl
@[simp] theorem ensureTables_fatal (s : State) : (ensureTables s).fatal = s.fatal := rfl
@[simp] theorem ensureTables_tables (s : State) : (ensureTables s).tables = some s.tablesNow := rfl
@[simp] theorem ensureTables_desc (s : State) : (ensureTables s).desc = s.desc := rfl
@[simp] theorem ensureTables_len (s : State) : (ensureTables s).len = s.len := rfl
@[simp] theorem ensureTables_blen (s : State) : (ensureTables s).blen = s.blen := rfl
@[simp] theorem ensureTables_baseA (s : State) : (ensureTables s).baseA = s.baseA := rfl
@[simp] theorem ensureTables_baseB (s : State) : (ensureTables s).baseB = s.baseB := rfl
@[simp] theorem ensureTables_outBase (s : State) : (ensureTables s).outBase = s.outBase := rfl
@[simp] theorem ensureTables_emap (s : State) : (ensureTables s).emap = s.emap := rfl
@[simp] theorem ensureTables_dmem (s : State) : (ensureTables s).dmem = s.dmem := rfl
@[simp] theorem ensureTables_port (s : State) : (ensureTables s).port = s.port := rfl
@[simp] theorem ensureTables_readData (s : State) : (ensureTables s).readData = s.readData := rfl

/-! ## setDescriptor -/

@[simp] theorem setDescriptor_status {n k : Nat} (hn : n < 2 ^ 8) (hk : k < 2 ^ 8) (G : Mat n k) (s : State) : (setDescriptor hn hk G s).status = s.status := rfl
@[simp] theorem setDescriptor_result {n k : Nat} (hn : n < 2 ^ 8) (hk : k < 2 ^ 8) (G : Mat n k) (s : State) : (setDescriptor hn hk G s).result = s.result := rfl
@[simp] theorem setDescriptor_fatal {n k : Nat} (hn : n < 2 ^ 8) (hk : k < 2 ^ 8) (G : Mat n k) (s : State) : (setDescriptor hn hk G s).fatal = s.fatal := rfl
@[simp] theorem setDescriptor_tables {n k : Nat} (hn : n < 2 ^ 8) (hk : k < 2 ^ 8) (G : Mat n k) (s : State) : (setDescriptor hn hk G s).tables = s.tables := rfl
@[simp] theorem setDescriptor_desc {n k : Nat} (hn : n < 2 ^ 8) (hk : k < 2 ^ 8) (G : Mat n k) (s : State) : (setDescriptor hn hk G s).desc = some ⟨BitVec.ofNatLT n hn, BitVec.ofNatLT k hk, G⟩ := rfl
@[simp] theorem setDescriptor_len {n k : Nat} (hn : n < 2 ^ 8) (hk : k < 2 ^ 8) (G : Mat n k) (s : State) : (setDescriptor hn hk G s).len = s.len := rfl
@[simp] theorem setDescriptor_blen {n k : Nat} (hn : n < 2 ^ 8) (hk : k < 2 ^ 8) (G : Mat n k) (s : State) : (setDescriptor hn hk G s).blen = s.blen := rfl
@[simp] theorem setDescriptor_baseA {n k : Nat} (hn : n < 2 ^ 8) (hk : k < 2 ^ 8) (G : Mat n k) (s : State) : (setDescriptor hn hk G s).baseA = s.baseA := rfl
@[simp] theorem setDescriptor_baseB {n k : Nat} (hn : n < 2 ^ 8) (hk : k < 2 ^ 8) (G : Mat n k) (s : State) : (setDescriptor hn hk G s).baseB = s.baseB := rfl
@[simp] theorem setDescriptor_outBase {n k : Nat} (hn : n < 2 ^ 8) (hk : k < 2 ^ 8) (G : Mat n k) (s : State) : (setDescriptor hn hk G s).outBase = s.outBase := rfl
@[simp] theorem setDescriptor_emap {n k : Nat} (hn : n < 2 ^ 8) (hk : k < 2 ^ 8) (G : Mat n k) (s : State) : (setDescriptor hn hk G s).emap = s.emap := rfl
@[simp] theorem setDescriptor_dmem {n k : Nat} (hn : n < 2 ^ 8) (hk : k < 2 ^ 8) (G : Mat n k) (s : State) : (setDescriptor hn hk G s).dmem = s.dmem := rfl
@[simp] theorem setDescriptor_port {n k : Nat} (hn : n < 2 ^ 8) (hk : k < 2 ^ 8) (G : Mat n k) (s : State) : (setDescriptor hn hk G s).port = s.port := rfl
@[simp] theorem setDescriptor_readData {n k : Nat} (hn : n < 2 ^ 8) (hk : k < 2 ^ 8) (G : Mat n k) (s : State) : (setDescriptor hn hk G s).readData = s.readData := rfl

/-! ## resetInput -/

@[simp] theorem resetInput_status (s : State) : (resetInput s).status = State.reset.status := rfl
@[simp] theorem resetInput_result (s : State) : (resetInput s).result = State.reset.result := rfl
@[simp] theorem resetInput_fatal (s : State) : (resetInput s).fatal = State.reset.fatal := rfl
@[simp] theorem resetInput_tables (s : State) : (resetInput s).tables = State.reset.tables := rfl
@[simp] theorem resetInput_desc (s : State) : (resetInput s).desc = State.reset.desc := rfl
@[simp] theorem resetInput_len (s : State) : (resetInput s).len = State.reset.len := rfl
@[simp] theorem resetInput_blen (s : State) : (resetInput s).blen = State.reset.blen := rfl
@[simp] theorem resetInput_baseA (s : State) : (resetInput s).baseA = State.reset.baseA := rfl
@[simp] theorem resetInput_baseB (s : State) : (resetInput s).baseB = State.reset.baseB := rfl
@[simp] theorem resetInput_outBase (s : State) : (resetInput s).outBase = State.reset.outBase := rfl
@[simp] theorem resetInput_emap (s : State) : (resetInput s).emap = State.reset.emap := rfl
@[simp] theorem resetInput_dmem (s : State) : (resetInput s).dmem = s.dmem := rfl
@[simp] theorem resetInput_port (s : State) : (resetInput s).port = s.port := rfl
@[simp] theorem resetInput_readData (s : State) : (resetInput s).readData = s.readData := rfl

/-! ## the views -/

@[simp] theorem tablesNow_of_some {s : State} {t : Tables} (h : s.tables = some t) : s.tablesNow = t := by
  simp [State.tablesNow, h]

@[simp] theorem tablesNow_of_none {s : State} (h : s.tables = none) : s.tablesNow = builtTables := by
  simp [State.tablesNow, h]

@[simp] theorem ensureTables_tablesNow (s : State) : (ensureTables s).tablesNow = s.tablesNow := rfl

theorem descValid_eq (s : State) : s.descValid = s.desc.isSome := rfl

theorem tblReady_eq (s : State) : s.tblReady = s.tables.isSome := rfl

end Sys2Proof.Laws
end

