-- ==== Sys2Proof/Laws/Ops.lean ====
section
/-!
SUPPORT. One lemma per shared operation, and per command with cases of its own, that says everything it can do.
-/

namespace Sys2Proof.Laws
open Sys2Proof.Machine

/-! ## The prologue -/

theorem prologue_of_fatal {own : State → State} {s : State} (h : s.fatal = true) :
    prologue own s = raise .halted s := by simp [prologue, h]

@[simp] theorem prologue_of_not_fatal {own : State → State} {s : State} (h : s.fatal = false) :
    prologue own s = own s := by simp [prologue, h]

/-- A command answers `Halted`, or runs its own rule while `FATAL = 0`. -/
theorem prologue_cases (own : State → State) (s : State) :
    (s.fatal = true ∧ prologue own s = raise .halted s) ∨ (s.fatal = false ∧ prologue own s = own s) := by
  cases h : s.fatal
  · exact .inr ⟨rfl, prologue_of_not_fatal h⟩
  · exact .inl ⟨rfl, prologue_of_fatal h⟩

/-! ## Matrix Builder -/

theorem createOwn_cases (n k : Nat) (s : State) :
    (s.desc ≠ none ∧ createOwn n k s = raise .descriptorBusy (ensureTables s)) ∨
    (s.desc = none ∧ ¬ (2 ≤ k ∧ k ≤ n ∧ n ≤ 255) ∧ createOwn n k s = raise .invalidParameters (ensureTables s)) ∨
    (s.desc = none ∧ ∃ h : 2 ≤ k ∧ k ≤ n ∧ n ≤ 255, buildGm s.tablesNow Config.elem n k h.2.1 = none ∧
      createOwn n k s = raiseSingular (ensureTables s)) ∨
    (s.desc = none ∧ ∃ (h : 2 ≤ k ∧ k ≤ n ∧ n ≤ 255) (G : Mat n k), buildGm s.tablesNow Config.elem n k h.2.1 = some G ∧
      createOwn n k s = done 0x00#8 (setDescriptor (by omega) (by omega) G (ensureTables s))) := by
  unfold createOwn
  split
  · next h => exact .inl ⟨by simp [h], rfl⟩
  · next h =>
    split
    · next hp =>
      split
      · next hb => exact .inr (.inr (.inl ⟨h, hp, hb, rfl⟩))
      · next G hb => exact .inr (.inr (.inr ⟨h, hp, G, hb, rfl⟩))
    · next hp => exact .inr (.inl ⟨h, hp, rfl⟩)

theorem destroyOwn_cases (s : State) :
    (s.desc = none ∧ destroyOwn s = raise .noDescriptor s) ∨
    (s.desc ≠ none ∧ destroyOwn s = done 0x00#8 { s with desc := none }) := by
  unfold destroyOwn
  split
  · next h => exact .inl ⟨h, rfl⟩
  · next h => exact .inr ⟨by simp [h], rfl⟩

theorem gmrdOwn_cases (row col : Nat) (s : State) :
    (s.desc = none ∧ gmrdOwn row col s = raise .noDescriptor s) ∨
    (∃ d, s.desc = some d ∧ ¬ (row < d.n.toNat ∧ col < d.k.toNat) ∧ gmrdOwn row col s = raise .invalidIndex s) ∨
    (∃ d, s.desc = some d ∧ ∃ h : row < d.n.toNat ∧ col < d.k.toNat,
      gmrdOwn row col s = done (entry d.gm ⟨row, h.1⟩ ⟨col, h.2⟩) s) := by
  unfold gmrdOwn
  split
  · next h => exact .inl ⟨h, rfl⟩
  · next d h =>
    split
    · next hr => exact .inr (.inr ⟨d, h, hr, rfl⟩)
    · next hr => exact .inr (.inl ⟨d, h, hr, rfl⟩)

/-! ## Operand set-up -/

theorem setErased_cases (pos : Nat) (e : Bool) (s : State) :
    (∃ h : pos < 255, setErased pos e s = done 0x00#8 { s with emap := s.emap.set pos e }) ∨
    (¬ pos < 255 ∧ setErased pos e s = raise .invalidIndex s) := by
  unfold setErased
  split
  · next h => exact .inl ⟨h, rfl⟩
  · next h => exact .inr ⟨h, rfl⟩

/-! ## Encoder -/

theorem encodeOwn_cases (p : Nat) (s : State) :
    (∃ x : Status, x ∈ [.noDescriptor, .invalidIndex, .invalidLength, .addressRange, .bufferOverlap] ∧
      encodeOwn p s = raise x s) ∨
    (∃ d, s.desc = some d ∧ ∃ hp : d.k.toNat ≤ p ∧ p < d.n.toNat, sourceLengthsAgree d s = true ∧
      (regionSources d s).inRange Config.memBytes = true ∧ (regionOut s).inRange Config.memBytes = true ∧
      (regionSources d s).overlaps (regionOut s) = false ∧
      encodeOwn p s = done 0x00#8 { s with dmem := encodedMemory d ⟨p, hp.2⟩ s }) := by
  unfold encodeOwn
  split
  · exact .inl ⟨_, by simp, rfl⟩
  · next d h =>
    split_ifs with h1 h2 h3 h4
    case neg => exact .inr ⟨d, h, h1, h2, h3.1, h3.2, by simpa using h4, rfl⟩
    all_goals exact .inl ⟨_, by simp, rfl⟩

/-! ## Decoder -/

theorem reconstructOwn_cases (d : Descriptor) (addr : Nat → Nat) (s : State) :
    (erasedSources d s = [] ∧ reconstructOwn d addr s = done 0x00#8 s) ∨
    (erasedSources d s ≠ [] ∧ matinv s.tablesNow (decodingMatrix d s) = none ∧
      reconstructOwn d addr s = raiseSingular s) ∨
    (erasedSources d s ≠ [] ∧ ∃ inv, matinv s.tablesNow (decodingMatrix d s) = some inv ∧
      reconstructOwn d addr s = done 0x00#8 { s with dmem := reconstructedMemory d addr inv s }) := by
  unfold reconstructOwn
  split
  · next h => exact .inl ⟨h, rfl⟩
  · next h =>
    split
    · next hi => exact .inr (.inl ⟨h, hi, rfl⟩)
    · next inv hi => exact .inr (.inr ⟨h, inv, hi, rfl⟩)

theorem decodeOwn_cases (addr : Descriptor → State → Nat → Nat) (regions : Descriptor → State → List Region)
    (s : State) :
    (∃ x : Status, x ∈ [.noDescriptor, .lengthMismatch, .unrecoverableErasure, .addressRange, .bufferOverlap] ∧
      decodeOwn addr regions s = raise x s) ∨
    (∃ d, s.desc = some d ∧ validLengthsAgree d s = true ∧ unrecoverable d s = false ∧
      (regions d s).all (Region.inRange Config.memBytes) = true ∧ someOverlap (regions d s) = false ∧
      decodeOwn addr regions s = reconstructOwn d (addr d s) s) := by
  unfold decodeOwn
  split
  · exact .inl ⟨_, by simp, rfl⟩
  · next d h =>
    split_ifs with h1 h2 h3 h4
    case neg => exact .inr ⟨d, h, h1, by simpa using h2, h3, by simpa using h4, rfl⟩
    all_goals exact .inl ⟨_, by simp, rfl⟩

/-- Two of one region never overlap (`20_memory.md` R53: DECINL never raises `BufferOverlap`). -/
@[simp] theorem someOverlap_singleton (r : Region) : someOverlap [r] = false := by simp [someOverlap]

@[simp] theorem someOverlap_pair (r q : Region) : someOverlap [r, q] = r.overlaps q := by
  cases h : r.overlaps q <;> simp [someOverlap, h]

/-! ## The step -/

theorem takeAction_of_nil {s : State} (h : s.port = []) : takeAction s = none := by simp [takeAction, h]

theorem takeAction_of_cons {s : State} {act : HostAction} {rest : List HostAction} (h : s.port = act :: rest) :
    takeAction s = some (act, { s with port := rest }) := by simp [takeAction, h]

theorem step_of_nil {s : State} (h : s.port = []) : step s = .next s := by simp [step, takeAction_of_nil h]

theorem step_of_command {s : State} {cw : Word} {rest : List HostAction} (h : s.port = .command cw :: rest) :
    step s = execute cw { s with port := rest } := by simp [step, takeAction_of_cons h]

theorem step_of_write {s : State} {a : Addr} {v : Byte} {rest : List HostAction} (h : s.port = .write a v :: rest) :
    step s = hostWrite a v { s with port := rest } := by simp [step, takeAction_of_cons h]

theorem step_of_read {s : State} {a : Addr} {rest : List HostAction} (h : s.port = .read a :: rest) :
    step s = hostRead a { s with port := rest } := by simp [step, takeAction_of_cons h]

theorem step_of_reset {s : State} {rest : List HostAction} (h : s.port = .reset :: rest) :
    step s = .next (resetInput { s with port := rest }) := by simp [step, takeAction_of_cons h]

/-- A 24-bit address is below the default `MEM_BYTES`. -/
theorem addr_lt_memBytes (a : Addr) : a.toNat < Config.memBytes := a.isLt

end Sys2Proof.Laws
end

