-- ==== Sys2Proof/Laws/Exec.lean ====
section
/-!
SUPPORT. Everything a command can do, in one lemma: it halts, ends with one of its own errors, meets a singular matrix,
or succeeds with its effect.
-/

namespace Sys2Proof.Laws
open Sys2Proof.Machine

/-- The errors of a command's own rule, in test order; `SingularMatrix` stands apart. -/
def ownErrors : Instr → List Status
  | .nop | .gfadd _ _ | .gfsub _ _ | .gfmul _ _ | .setl _ | .setbasea _ | .setbaseb _ | .setout _ | .emclr => []
  | .gfdiv _ _ => [.divisionByZero]
  | .logrd _ | .alogrd _ | .setblen _ _ | .emset _ | .emval _ => [.invalidIndex]
  | .create _ _ => [.descriptorBusy, .invalidParameters]
  | .destroy => [.noDescriptor]
  | .gmrd _ _ => [.noDescriptor, .invalidIndex]
  | .encodeBlock _ => [.noDescriptor, .invalidIndex, .invalidLength, .addressRange, .bufferOverlap]
  | .decinl => [.noDescriptor, .lengthMismatch, .unrecoverableErasure, .addressRange]
  | .decapp => [.noDescriptor, .lengthMismatch, .unrecoverableErasure, .addressRange, .bufferOverlap]

/-- The state in which a command's own rule tests its operands: the tables are built by the commands that build them. -/
def begun (i : Instr) (s : State) : State :=
  match i with
  | .gfmul _ _ | .gfdiv _ _ | .logrd _ | .alogrd _ | .create _ _ => ensureTables s
  | .nop | .gfadd _ _ | .gfsub _ _ | .destroy | .gmrd _ _ | .setl _ | .setblen _ _ | .setbasea _ | .setbaseb _
    | .setout _ | .emclr | .emset _ | .emval _ | .encodeBlock _ | .decinl | .decapp => s

/-- A decode whose checks have all passed writes the reconstructed blocks, or nothing when nothing is erased. -/
def DecodeEffect (d : Descriptor) (addr : Nat → Nat) (rs : List Region) (s u : State) : Prop :=
  s.desc = some d ∧ validLengthsAgree d s = true ∧ unrecoverable d s = false ∧
    rs.all (Region.inRange Config.memBytes) = true ∧ someOverlap rs = false ∧
    ((erasedSources d s = [] ∧ u = s) ∨
      ∃ inv, matinv s.tablesNow (decodingMatrix d s) = some inv ∧
        u = { s with dmem := reconstructedMemory d addr inv s })

/-- A command that succeeds answers the byte v, and is in state u but for the response. -/
def Effect (i : Instr) (s : State) (v : Byte) (u : State) : Prop :=
  match i with
  | .nop => v = 0x00#8 ∧ u = s
  | .gfadd a b => v = gfadd a b ∧ u = s
  | .gfsub a b => v = gfsub a b ∧ u = s
  | .gfmul a b => v = gfmul s.tablesNow a b ∧ u = ensureTables s
  | .gfdiv a b => (∃ hb, v = gfdiv s.tablesNow a b hb) ∧ u = ensureTables s
  | .logrd a => (∃ ha, v = logOf s.tablesNow a ha) ∧ u = ensureTables s
  | .alogrd e => (∃ h : e < 255, v = s.tablesNow.alog[e]) ∧ u = ensureTables s
  | .create n k => v = 0x00#8 ∧ s.desc = none ∧ ∃ (h : 2 ≤ k ∧ k ≤ n ∧ n ≤ 255) (G : Mat n k),
      buildGm s.tablesNow Config.elem n k h.2.1 = some G ∧
        u = setDescriptor (by omega) (by omega) G (ensureTables s)
  | .destroy => v = 0x00#8 ∧ s.desc ≠ none ∧ u = { s with desc := none }
  | .gmrd row col => u = s ∧ ∃ d, s.desc = some d ∧ ∃ h : row < d.n.toNat ∧ col < d.k.toNat,
      v = entry d.gm ⟨row, h.1⟩ ⟨col, h.2⟩
  | .setl len => v = 0x00#8 ∧ u = { s with len := BitVec.ofNat 16 len }
  | .setblen pos len => v = 0x00#8 ∧ ∃ h : pos < 255, u = { s with blen := s.blen.set pos (BitVec.ofNat 16 len) }
  | .setbasea addr => v = 0x00#8 ∧ u = { s with baseA := BitVec.ofNat 24 addr }
  | .setbaseb addr => v = 0x00#8 ∧ u = { s with baseB := BitVec.ofNat 24 addr }
  | .setout addr => v = 0x00#8 ∧ u = { s with outBase := BitVec.ofNat 24 addr }
  | .emclr => v = 0x00#8 ∧ u = { s with emap := Vector.replicate 255 false }
  | .emset pos => v = 0x00#8 ∧ ∃ h : pos < 255, u = { s with emap := s.emap.set pos true }
  | .emval pos => v = 0x00#8 ∧ ∃ h : pos < 255, u = { s with emap := s.emap.set pos false }
  | .encodeBlock p => v = 0x00#8 ∧ ∃ d, s.desc = some d ∧ ∃ hp : d.k.toNat ≤ p ∧ p < d.n.toNat,
      sourceLengthsAgree d s = true ∧ (regionSources d s).inRange Config.memBytes = true ∧
        (regionOut s).inRange Config.memBytes = true ∧ (regionSources d s).overlaps (regionOut s) = false ∧
        u = { s with dmem := encodedMemory d ⟨p, hp.2⟩ s }
  | .decinl => v = 0x00#8 ∧ ∃ d, DecodeEffect d (addrInl s) [regionInl d s] s u
  | .decapp => v = 0x00#8 ∧ ∃ d, DecodeEffect d (addrApp d.k s) [regionSources d s, regionParity d s] s u

/-- The command meets a singular matrix (R177). -/
def MeetsSingular (i : Instr) (s : State) : Prop :=
  match i with
  | .create n k => s.desc = none ∧ ∃ h : 2 ≤ k ∧ k ≤ n ∧ n ≤ 255, buildGm s.tablesNow Config.elem n k h.2.1 = none
  | .decinl | .decapp => ∃ d, s.desc = some d ∧ unrecoverable d s = false ∧
      matinv s.tablesNow (decodingMatrix d s) = none
  | .nop | .gfadd _ _ | .gfsub _ _ | .gfmul _ _ | .gfdiv _ _ | .logrd _ | .alogrd _ | .destroy | .gmrd _ _
    | .setl _ | .setblen _ _ | .setbasea _ | .setbaseb _ | .setout _ | .emclr | .emset _ | .emval _
    | .encodeBlock _ => False

/-- How a command's own rule ends. -/
def OwnEnd (i : Instr) (s t : State) : Prop :=
  (∃ x ∈ ownErrors i, t = raise x (begun i s)) ∨ (MeetsSingular i s ∧ t = raiseSingular (begun i s)) ∨
    ∃ v u, Effect i s v u ∧ t = done v u

theorem ownEnd_decode {i : Instr} {addr : Descriptor → State → Nat → Nat} {regions : Descriptor → State → List Region}
    {s : State} (hb : begun i s = s)
    (hx : ∀ x ∈ ([.noDescriptor, .lengthMismatch, .unrecoverableErasure, .addressRange] : List Status), x ∈ ownErrors i)
    (ho : (∀ d, someOverlap (regions d s) = false) ∨ Status.bufferOverlap ∈ ownErrors i)
    (hs : (∃ d, s.desc = some d ∧ unrecoverable d s = false ∧ matinv s.tablesNow (decodingMatrix d s) = none) →
      MeetsSingular i s)
    (he : ∀ d u, DecodeEffect d (addr d s) (regions d s) s u → Effect i s 0x00#8 u) :
    OwnEnd i s (decodeOwn addr regions s) := by
  have err : ∀ x ∈ ownErrors i, OwnEnd i s (raise x s) := fun x h => .inl ⟨x, h, by rw [hb]⟩
  unfold decodeOwn
  split
  · exact err _ (hx _ (by simp))
  · next d hd =>
    split
    · exact err _ (hx _ (by simp))
    split
    · exact err _ (hx _ (by simp))
    split
    · exact err _ (hx _ (by simp))
    split
    · next h4 =>
      rcases ho with ho | ho
      · rw [ho d] at h4
        cases h4
      · exact err _ ho
    · next h1 h2 h3 h4 =>
      replace h1 : validLengthsAgree d s = true := not_not.mp h1
      replace h2 : unrecoverable d s = false := Bool.eq_false_iff.mpr h2
      replace h3 : (regions d s).all (Region.inRange Config.memBytes) = true := not_not.mp h3
      replace h4 : someOverlap (regions d s) = false := Bool.eq_false_iff.mpr h4
      rcases reconstructOwn_cases d (addr d s) s with ⟨hn, e⟩ | ⟨-, hm, e⟩ | ⟨-, inv, hi, e⟩ <;> rw [e]
      · exact .inr (.inr ⟨_, s, he d s ⟨hd, h1, h2, h3, h4, .inl ⟨hn, rfl⟩⟩, rfl⟩)
      · exact .inr (.inl ⟨hs ⟨d, hd, h2, hm⟩, by rw [hb]⟩)
      · exact .inr (.inr ⟨_, _, he d _ ⟨hd, h1, h2, h3, h4, .inr ⟨inv, hi, rfl⟩⟩, rfl⟩)

/-- Everything a command can do. -/
theorem exec_cases {i : Instr} {s t : State} (h : exec i s = .next t) :
    (s.fatal = true ∧ t = raise .halted s) ∨ (s.fatal = false ∧ OwnEnd i s t) := by
  have key : ∀ own : State → State, Host.Outcome.next (prologue own s) = (.next t : Answer) → OwnEnd i s (own s) →
      (s.fatal = true ∧ t = raise .halted s) ∨ (s.fatal = false ∧ OwnEnd i s t) := by
    intro own e ho
    obtain rfl := Host.Outcome.next.inj e
    rcases prologue_cases own s with ⟨hf, e⟩ | ⟨hf, e⟩
    · exact .inl ⟨hf, e⟩
    · exact .inr ⟨hf, e ▸ ho⟩
  have ok : ∀ {v u}, Effect i s v u → OwnEnd i s (done v u) := fun e => .inr (.inr ⟨_, _, e, rfl⟩)
  have err : ∀ {x}, x ∈ ownErrors i → OwnEnd i s (raise x (begun i s)) := fun e => .inl ⟨_, e, rfl⟩
  cases i with
  | nop => exact key _ h (ok ⟨rfl, rfl⟩)
  | gfadd a b => exact key _ h (ok ⟨rfl, rfl⟩)
  | gfsub a b => exact key _ h (ok ⟨rfl, rfl⟩)
  | gfmul a b => exact key _ h (ok ⟨rfl, rfl⟩)
  | gfdiv a b =>
    refine key _ h ?_
    split
    · exact err (by simp [ownErrors])
    · next hb => exact ok ⟨⟨hb, rfl⟩, rfl⟩
  | logrd a =>
    refine key _ h ?_
    split
    · exact err (by simp [ownErrors])
    · next ha => exact ok ⟨⟨ha, rfl⟩, rfl⟩
  | alogrd e =>
    refine key _ h ?_
    split
    · next he => exact ok ⟨⟨he, rfl⟩, rfl⟩
    · exact err (by simp [ownErrors])
  | create n k =>
    refine key _ h ?_
    rcases createOwn_cases n k s with ⟨-, e⟩ | ⟨-, -, e⟩ | ⟨hd, hp, hb, e⟩ | ⟨hd, hp, G, hb, e⟩ <;> rw [e]
    · exact err (by simp [ownErrors])
    · exact err (by simp [ownErrors])
    · exact .inr (.inl ⟨⟨hd, hp, hb⟩, rfl⟩)
    · exact ok ⟨rfl, hd, hp, G, hb, rfl⟩
  | destroy =>
    refine key _ h ?_
    rcases destroyOwn_cases s with ⟨-, e⟩ | ⟨hd, e⟩ <;> rw [e]
    · exact err (by simp [ownErrors])
    · exact ok ⟨rfl, hd, rfl⟩
  | gmrd row col =>
    refine key _ h ?_
    rcases gmrdOwn_cases row col s with ⟨-, e⟩ | ⟨d, -, -, e⟩ | ⟨d, hd, hr, e⟩ <;> rw [e]
    · exact err (by simp [ownErrors])
    · exact err (by simp [ownErrors])
    · exact ok ⟨rfl, d, hd, hr, rfl⟩
  | setl len => exact key _ h (ok ⟨rfl, rfl⟩)
  | setblen pos len =>
    refine key _ h ?_
    split
    · next hp => exact ok ⟨rfl, hp, rfl⟩
    · exact err (by simp [ownErrors])
  | setbasea addr => exact key _ h (ok ⟨rfl, rfl⟩)
  | setbaseb addr => exact key _ h (ok ⟨rfl, rfl⟩)
  | setout addr => exact key _ h (ok ⟨rfl, rfl⟩)
  | emclr => exact key _ h (ok ⟨rfl, rfl⟩)
  | emset pos =>
    refine key _ h ?_
    rcases setErased_cases pos true s with ⟨hp, e⟩ | ⟨-, e⟩ <;> rw [e]
    · exact ok ⟨rfl, hp, rfl⟩
    · exact err (by simp [ownErrors])
  | emval pos =>
    refine key _ h ?_
    rcases setErased_cases pos false s with ⟨hp, e⟩ | ⟨-, e⟩ <;> rw [e]
    · exact ok ⟨rfl, hp, rfl⟩
    · exact err (by simp [ownErrors])
  | encodeBlock p =>
    refine key _ h ?_
    rcases encodeOwn_cases p s with ⟨x, hx, e⟩ | ⟨d, hd, hp, h1, h2, h3, h4, e⟩ <;> rw [e]
    · exact err hx
    · exact ok ⟨rfl, d, hd, hp, h1, h2, h3, h4, rfl⟩
  | decinl =>
    exact key _ h (ownEnd_decode rfl (by simp [ownErrors]) (.inl fun d => someOverlap_singleton _) id
      fun d u e => ⟨rfl, d, e⟩)
  | decapp =>
    exact key _ h (ownEnd_decode rfl (by simp [ownErrors]) (.inr (by simp [ownErrors])) id fun d u e => ⟨rfl, d, e⟩)

/-- A run of one step more whose first step answers goes on from there. -/
theorem run_succ {M : Host.Core} {s t : M.State} (n : Nat) (h : M.step s = .next t) : M.run (n + 1) s = M.run n t := by
  rw [Host.Core.run, h]

end Sys2Proof.Laws
end

