-- ==== Sys2Proof/Laws/Field.lean ====
section
/-!
SUPPORT. What the field tables hold, and the laws of `gfmul` and `gfdiv` over them: `ALOG[i] = x^i`, `LOG` is its
inverse, and the bytes form a field (`40_field_engine.md` R88).
-/

namespace Sys2Proof.Laws
open Sys2Proof.Machine

/-! ## One turn of the table loop is linear -/

theorem timesX_xor (p : BitVec 9) (a b : Byte) : timesX p (a ^^^ b) = timesX p a ^^^ timesX p b := by
  have aux : ∀ x y : BitVec 9, ∀ c d : Bool,
      (if xor c d then (x ^^^ y) ^^^ p else x ^^^ y) = (if c then x ^^^ p else x) ^^^ (if d then y ^^^ p else y) := by
    intro x y c d
    cases c <;> cases d <;> simp <;> (ext i hi; simp; try (cases y[i] <;> cases p[i] <;> rfl))
  simp only [timesX, BitVec.setWidth_xor, BitVec.shiftLeft_xor_distrib, BitVec.getLsbD_xor]
  rw [aux, BitVec.setWidth_xor]

theorem timesX_zero (p : BitVec 9) : timesX p 0#8 = 0#8 := by simp [timesX]

theorem iterate_timesX_zero (p : BitVec 9) (n : Nat) : (timesX p)^[n] 0#8 = 0#8 := Function.iterate_fixed (timesX_zero p) n

theorem iterate_timesX_xor (p : BitVec 9) (n : Nat) (a b : Byte) :
    (timesX p)^[n] (a ^^^ b) = (timesX p)^[n] a ^^^ (timesX p)^[n] b := by
  induction n generalizing a b with
  | zero => rfl
  | succ n ih => rw [Function.iterate_succ_apply, Function.iterate_succ_apply, Function.iterate_succ_apply, timesX_xor, ih]

/-! ## The powers of x -/

/-- x^i: what the table loop holds after i turns. -/
def powerOfX (i : Nat) : Byte := (timesX Config.poly)^[i] 1#8

theorem getElem_alogFrom (p : BitVec 9) (n : Nat) (v : Byte) (i : Nat) (h : i < (alogFrom p n v).length) :
    (alogFrom p n v)[i] = (timesX p)^[i] v := by
  induction n generalizing v i with
  | zero => simp at h
  | succ n ih =>
    cases i with
    | zero => rfl
    | succ i => simpa [alogFrom] using ih (timesX p v) i (by simpa using h)

theorem powerOfX_succ (i : Nat) : powerOfX (i + 1) = timesX Config.poly (powerOfX i) :=
  Function.iterate_succ_apply' ..

theorem powerOfX_add (i j : Nat) : powerOfX (i + j) = (timesX Config.poly)^[i] (powerOfX j) := by
  rw [powerOfX, Function.iterate_add_apply]; rfl

/-- R20: afterwards v = 1 again, because `POLY` is primitive. -/
theorem powerOfX_255 : powerOfX 255 = 1#8 := by decide +kernel

/-- x has order 255: `POLY` is primitive. -/
theorem minimalPeriod_timesX : Function.minimalPeriod (timesX Config.poly) 1#8 = 255 := by
  have hp : Function.IsPeriodicPt (timesX Config.poly) 255 1#8 := by
    simpa only [powerOfX, Function.IsPeriodicPt, Function.IsFixedPt] using powerOfX_255
  have hm : Function.minimalPeriod (timesX Config.poly) 1#8 ∈ Nat.divisors 255 :=
    Nat.mem_divisors.mpr ⟨hp.minimalPeriod_dvd, by decide⟩
  have hdiv : Nat.divisors 255 = {1, 3, 5, 15, 17, 51, 85, 255} := by decide +kernel
  have hper : ∀ n, Function.minimalPeriod (timesX Config.poly) 1#8 = n → powerOfX n = 1#8 := by
    rintro n rfl
    exact Function.isPeriodicPt_minimalPeriod _ _
  have hne : powerOfX 1 ≠ 1#8 ∧ powerOfX 3 ≠ 1#8 ∧ powerOfX 5 ≠ 1#8 ∧ powerOfX 15 ≠ 1#8 ∧ powerOfX 17 ≠ 1#8 ∧ powerOfX 51 ≠ 1#8 ∧
      powerOfX 85 ≠ 1#8 := by
    decide +kernel
  rw [hdiv] at hm
  simp only [Finset.mem_insert, Finset.mem_singleton] at hm
  obtain ⟨h1, h3, h5, h15, h17, h51, h85⟩ := hne
  rcases hm with h | h | h | h | h | h | h | h
  · exact absurd (hper _ h) h1
  · exact absurd (hper _ h) h3
  · exact absurd (hper _ h) h5
  · exact absurd (hper _ h) h15
  · exact absurd (hper _ h) h17
  · exact absurd (hper _ h) h51
  · exact absurd (hper _ h) h85
  · exact h

theorem powerOfX_injOn {i j : Nat} (hi : i < 255) (hj : j < 255) (h : powerOfX i = powerOfX j) : i = j := by
  have := Function.iterate_injOn_Iio_minimalPeriod (f := timesX Config.poly) (x := 1#8)
  rw [minimalPeriod_timesX] at this
  exact this hi hj h

theorem powerOfX_mod (i : Nat) : powerOfX (i % 255) = powerOfX i := by
  rw [powerOfX, ← minimalPeriod_timesX, Function.iterate_mod_minimalPeriod_eq]; rfl

theorem timesX_ne_zero : ∀ a : Byte, a ≠ 0#8 → timesX Config.poly a ≠ 0#8 := by decide +kernel

theorem powerOfX_ne_zero (i : Nat) : powerOfX i ≠ 0#8 := by
  induction i with
  | zero => decide
  | succ i ih => rw [powerOfX_succ]; exact timesX_ne_zero _ ih

theorem toNat_ne_zero {a : Byte} (ha : a ≠ 0#8) : a.toNat ≠ 0 := fun h => ha (BitVec.eq_of_toNat_eq h)

/-- The 255 powers of x are all the non-zero bytes. -/
theorem exists_powerOfX {a : Byte} (ha : a ≠ 0#8) : ∃ i < 255, powerOfX i = a := by
  have hcard : ((Finset.range 255).image fun i => (powerOfX i).toNat) = Finset.Icc 1 255 := by
    apply Finset.eq_of_subset_of_card_le
    · intro x hx
      obtain ⟨i, -, rfl⟩ := Finset.mem_image.mp hx
      have := toNat_ne_zero (powerOfX_ne_zero i)
      have := (powerOfX i).isLt
      exact Finset.mem_Icc.mpr ⟨by omega, by omega⟩
    · rw [Finset.card_image_of_injOn]
      · simp
      · intro i hi j hj h
        exact powerOfX_injOn (Finset.mem_range.mp hi) (Finset.mem_range.mp hj) (BitVec.eq_of_toNat_eq h)
  have hmem : a.toNat ∈ Finset.Icc 1 255 := by
    have := toNat_ne_zero ha
    have := a.isLt
    exact Finset.mem_Icc.mpr ⟨by omega, by omega⟩
  rw [← hcard] at hmem
  obtain ⟨i, hi, h⟩ := Finset.mem_image.mp hmem
  exact ⟨i, Finset.mem_range.mp hi, BitVec.eq_of_toNat_eq h⟩

/-! ## What the tables hold -/

theorem alogMod_builtTables (i : Nat) : alogMod builtTables i = powerOfX i := by
  rw [← powerOfX_mod i]
  exact getElem_alogFrom Config.poly 255 1#8 (i % 255) _

theorem getElem_alog_builtTables (i : Nat) (h : i < 255) : builtTables.alog[i] = powerOfX i :=
  getElem_alogFrom Config.poly 255 1#8 i _

/-- R21: `LOG[ALOG[i]] = i`. -/
theorem logOf_powerOfX {i : Nat} (hi : i < 255) (h : powerOfX i ≠ 0#8) :
    (logOf builtTables (powerOfX i) h).toNat = i := by
  have hlt := (powerOfX i).isLt
  have hne := toNat_ne_zero h
  have hfind : (alogFrom Config.poly 255 1#8).findIdx (fun v => v == powerOfX i) = i := by
    rw [List.findIdx_eq (by simpa using hi)]
    refine ⟨by rw [getElem_alogFrom]; exact beq_self_eq_true _, fun j hj => ?_⟩
    rw [getElem_alogFrom]
    exact beq_false_of_ne fun e => absurd (powerOfX_injOn (by omega) hi e) (by omega)
  have hval : logOf builtTables (powerOfX i) h = BitVec.ofNat 8
      ((alogFrom Config.poly 255 1#8).findIdx (fun v => v == BitVec.ofNat 8 ((powerOfX i).toNat - 1 + 1))) :=
    getElem_vectorOf _ _ _ (by omega)
  rw [hval, Nat.sub_add_cancel (by omega), BitVec.ofNat_toNat, BitVec.setWidth_eq, hfind]
  simp
  omega

theorem logOf_lt {a : Byte} (ha : a ≠ 0#8) : (logOf builtTables a ha).toNat < 255 := by
  obtain ⟨i, hi, rfl⟩ := exists_powerOfX ha
  rw [logOf_powerOfX hi]
  exact hi

/-- R21: `ALOG[LOG[a]] = a`. -/
theorem powerOfX_logOf {a : Byte} (ha : a ≠ 0#8) : powerOfX (logOf builtTables a ha).toNat = a := by
  obtain ⟨i, hi, rfl⟩ := exists_powerOfX ha
  rw [logOf_powerOfX hi]

/-! ## The laws of multiplication and division -/

@[simp] theorem zero_gfmul (t : Tables) (a : Byte) : gfmul t 0#8 a = 0#8 := by simp [gfmul]

@[simp] theorem gfmul_zero (t : Tables) (a : Byte) : gfmul t a 0#8 = 0#8 := by simp [gfmul]

theorem gfmul_of_ne (t : Tables) {a b : Byte} (ha : a ≠ 0#8) (hb : b ≠ 0#8) :
    gfmul t a b = alogMod t ((logOf t a ha).toNat + (logOf t b hb).toNat) := by simp [gfmul, ha, hb]

theorem gfmul_powerOfX (i j : Nat) : gfmul builtTables (powerOfX i) (powerOfX j) = powerOfX (i + j) := by
  have hi := Nat.mod_lt i (y := 255) (by decide)
  have hj := Nat.mod_lt j (y := 255) (by decide)
  rw [← powerOfX_mod i, ← powerOfX_mod j, gfmul_of_ne _ (powerOfX_ne_zero _) (powerOfX_ne_zero _),
    logOf_powerOfX hi, logOf_powerOfX hj, alogMod_builtTables, ← powerOfX_mod, Nat.add_mod_mod, Nat.mod_add_mod,
    powerOfX_mod]

/-- Multiplying by x^i is i turns of the table loop. -/
theorem powerOfX_gfmul (i : Nat) (b : Byte) : gfmul builtTables (powerOfX i) b = (timesX Config.poly)^[i] b := by
  by_cases hb : b = 0#8
  · rw [hb, gfmul_zero, iterate_timesX_zero]
  · obtain ⟨j, -, rfl⟩ := exists_powerOfX hb
    rw [gfmul_powerOfX, powerOfX_add]

theorem gfmul_comm (t : Tables) (a b : Byte) : gfmul t a b = gfmul t b a := by
  by_cases ha : a = 0#8
  · simp [ha]
  · by_cases hb : b = 0#8
    · simp [hb]
    · rw [gfmul_of_ne t ha hb, gfmul_of_ne t hb ha, Nat.add_comm]

theorem gfmul_ne_zero {a b : Byte} (ha : a ≠ 0#8) (hb : b ≠ 0#8) : gfmul builtTables a b ≠ 0#8 := by
  rw [gfmul_of_ne _ ha hb, alogMod_builtTables]
  exact powerOfX_ne_zero _

theorem gfmul_mul_assoc (a b c : Byte) :
    gfmul builtTables (gfmul builtTables a b) c = gfmul builtTables a (gfmul builtTables b c) := by
  by_cases ha : a = 0#8
  · simp [ha]
  · by_cases hb : b = 0#8
    · simp [hb]
    · by_cases hc : c = 0#8
      · simp [hc]
      · obtain ⟨i, -, rfl⟩ := exists_powerOfX ha
        obtain ⟨j, -, rfl⟩ := exists_powerOfX hb
        obtain ⟨l, -, rfl⟩ := exists_powerOfX hc
        simp only [gfmul_powerOfX, Nat.add_assoc]

theorem gfmul_xor (a b c : Byte) :
    gfmul builtTables a (b ^^^ c) = gfmul builtTables a b ^^^ gfmul builtTables a c := by
  by_cases ha : a = 0#8
  · simp [ha]
  · obtain ⟨i, -, rfl⟩ := exists_powerOfX ha
    simp only [powerOfX_gfmul, iterate_timesX_xor]

theorem one_gfmul (a : Byte) : gfmul builtTables 1#8 a = a := powerOfX_gfmul 0 a

theorem gfmul_gfdiv (a b : Byte) (hb : b ≠ 0#8) : gfmul builtTables b (gfdiv builtTables a b hb) = a := by
  by_cases ha : a = 0#8
  · simp [gfdiv, ha]
  · have h : gfdiv builtTables a b hb =
        powerOfX ((logOf builtTables a ha).toNat + 255 - (logOf builtTables b hb).toNat) := by
      simp [gfdiv, ha, alogMod_builtTables]
    have hlt := logOf_lt hb
    rw [h]
    generalize hl : logOf builtTables b hb = l at hlt ⊢
    have hb' : b = powerOfX l.toNat := by rw [← hl, powerOfX_logOf]
    rw [hb', gfmul_powerOfX, show l.toNat +
      ((logOf builtTables a ha).toNat + 255 - l.toNat) = (logOf builtTables a ha).toNat + 255
      by omega, ← powerOfX_mod, Nat.add_mod_right, powerOfX_mod, powerOfX_logOf]

/-! ## The bytes as a field of Mathlib -/

/-- A byte read as a field element: a type of its own, since bytes already have an integer arithmetic. -/
structure GF where
  byte : Byte
  deriving DecidableEq

/-- R88: with `gfadd`, `gfmul` and `gfdiv` the bytes form a field. -/
@[reducible] def gfField : Field GF :=
  letI : Add GF := ⟨fun a b => ⟨gfadd a.byte b.byte⟩⟩
  letI : Mul GF := ⟨fun a b => ⟨gfmul builtTables a.byte b.byte⟩⟩
  letI : Neg GF := ⟨fun a => a⟩
  letI : Zero GF := ⟨⟨0#8⟩⟩
  letI : One GF := ⟨⟨1#8⟩⟩
  letI : Inv GF := ⟨fun a => ⟨if h : a.byte = 0#8 then 0#8 else gfdiv builtTables 1#8 a.byte h⟩⟩
  Field.ofMinimalAxioms GF
    (fun a b c => congrArg GF.mk (BitVec.xor_assoc a.byte b.byte c.byte))
    (fun a => congrArg GF.mk (BitVec.zero_xor (x := a.byte)))
    (fun a => congrArg GF.mk (BitVec.xor_self (x := a.byte)))
    (fun a b c => congrArg GF.mk (gfmul_mul_assoc a.byte b.byte c.byte))
    (fun a b => congrArg GF.mk (gfmul_comm builtTables a.byte b.byte))
    (fun a => congrArg GF.mk (one_gfmul a.byte))
    (fun a ha => by
      have h : a.byte ≠ 0#8 := fun e => ha (congrArg GF.mk e)
      exact congrArg GF.mk ((congrArg (gfmul builtTables a.byte) (dif_neg h)).trans (gfmul_gfdiv 1 a.byte h)))
    (congrArg GF.mk (by decide))
    (fun a b c => congrArg GF.mk (gfmul_xor a.byte b.byte c.byte))
    ⟨⟨0#8⟩, ⟨1#8⟩, fun h => absurd (congrArg GF.byte h) (by decide)⟩

/-- `φ` reads the bytes, with the arithmetic of the tables `t`, as the field `K`. -/
structure ReadsAsField (t : Tables) (K : Type) [Field K] (φ : Byte → K) : Prop where
  injective : Function.Injective φ
  surjective : Function.Surjective φ
  map_zero : φ 0#8 = 0
  map_one : φ 1#8 = 1
  map_xor : ∀ a b, φ (a ^^^ b) = φ a + φ b
  map_gfmul : ∀ a b, φ (gfmul t a b) = φ a * φ b
  map_gfdiv : ∀ a b (hb : b ≠ 0#8), φ (gfdiv t a b hb) = φ a / φ b

/-- This machine's tables read as a field. -/
theorem exists_field : ∃ (K : Type) (_ : Field K) (φ : Byte → K), ReadsAsField builtTables K φ := by
  let _ := gfField
  have hmul : ∀ a b : Byte, (⟨gfmul builtTables a b⟩ : GF) = ⟨a⟩ * ⟨b⟩ := fun _ _ => rfl
  refine ⟨GF, gfField, GF.mk, ⟨fun a b h => congrArg GF.byte h, fun a => ⟨a.byte, rfl⟩, rfl, rfl, fun _ _ => rfl, hmul,
    fun a b hb => ?_⟩⟩
  have hb' : (⟨b⟩ : GF) ≠ 0 := fun e => hb (congrArg GF.byte e)
  rw [eq_div_iff hb', mul_comm, ← hmul, gfmul_gfdiv]

end Sys2Proof.Laws
end

