-- ==== Sys2Proof/Laws/Matrix.lean ====
section
/-!
SUPPORT. The matrix functions read as matrices over a field: `matmul` is the matrix product, one turn of the
elimination multiplies by an invertible matrix and makes one more column a unit vector, and a turn without a pivot
shows a singular matrix.
-/

namespace Sys2Proof.Laws
open Sys2Proof.Machine

variable {t : Tables} {K : Type} [Field K] {φ : Byte → K}

/-- A matrix of bytes read over the field. -/
def readMat (φ : Byte → K) {n m : Nat} (M : Mat n m) : Matrix (Fin n) (Fin m) K :=
  Matrix.of fun i j => φ (entry M i j)

omit [Field K] in
@[simp] theorem readMat_apply (φ : Byte → K) {n m : Nat} (M : Mat n m) (i : Fin n) (j : Fin m) :
    readMat φ M i j = φ (entry M i j) := rfl

namespace ReadsAsField

theorem map_xorSum (h : ReadsAsField t K φ) {n : Nat} (f : Fin n → Byte) : φ (xorSum n f) = ∑ j, φ (f j) := by
  induction n with
  | zero => simpa using h.map_zero
  | succ n ih => rw [xorSum_succ, h.map_xor, ih, Fin.sum_univ_castSucc]

theorem add_self (h : ReadsAsField t K φ) (x : K) : x + x = 0 := by
  obtain ⟨a, rfl⟩ := h.surjective x
  rw [← h.map_xor, BitVec.xor_self]
  exact h.map_zero

theorem map_eq_zero (h : ReadsAsField t K φ) {a : Byte} : φ a = 0 ↔ a = 0#8 :=
  ⟨fun e => h.injective (e.trans h.map_zero.symm), fun e => e ▸ h.map_zero⟩

theorem map_gfpow (h : ReadsAsField t K φ) (e : Byte) (j : Nat) : φ (gfpow t e j) = φ e ^ j := by
  induction j with
  | zero => simpa [gfpow] using h.map_one
  | succ j ih => rw [gfpow, h.map_gfmul, ih, pow_succ]

theorem readMat_injective (h : ReadsAsField t K φ) {n m : Nat} {A B : Mat n m} (e : readMat φ A = readMat φ B) :
    A = B :=
  matrix_ext fun i j => h.injective (congrFun (congrFun e i) j)

theorem exists_readMat (h : ReadsAsField t K φ) {n m : Nat} (A : Matrix (Fin n) (Fin m) K) :
    ∃ M : Mat n m, readMat φ M = A := by
  choose f hf using fun i j => h.surjective (A i j)
  exact ⟨matrixOf f, by ext i j; simp [hf]⟩

theorem readMat_matmul (h : ReadsAsField t K φ) {p q s : Nat} (A : Mat p q) (B : Mat q s) :
    readMat φ (matmul t A B) = readMat φ A * readMat φ B := by
  ext r c
  simp [matmul, h.map_xorSum, h.map_gfmul, Matrix.mul_apply]

theorem readMat_identity (h : ReadsAsField t K φ) (k : Nat) : readMat φ (identity k) = 1 := by
  ext r c
  by_cases e : r = c
  · simp [identity, e, h.map_one, Matrix.one_apply]
  · simp [identity, e, h.map_zero]

theorem readMat_vandermonde (h : ReadsAsField t K φ) (elem : Nat → Byte) (n k : Nat) :
    readMat φ (vandermonde t elem n k) =
      Matrix.of fun (i : Fin n) (j : Fin k) => φ (elem i.val) ^ j.val := by
  ext i j
  simp [vandermonde, h.map_gfpow]

/-! ## One turn of the elimination -/

/-- The row that stands at r once rows c and p are swapped. -/
def swapped {k : Nat} (c p r : Fin k) : Fin k := if r = c then p else if r = p then c else r

theorem swapped_swapped {k : Nat} (c p r : Fin k) : swapped c p (swapped c p r) = r := by
  unfold swapped
  split_ifs <;> simp_all

/-- What one turn does to every entry, read over the field. -/
theorem readMat_turn (h : ReadsAsField t K φ) {k m : Nat} (W : Mat k m) (c p : Fin k) (v : Fin m)
    (hd : entry W p v ≠ 0#8) (r : Fin k) (u : Fin m) :
    φ (entry (clearColumn t (scaleRow t (swapRows W c p) c (entry W p v) hd) c v) r u) =
      if r = c then φ (entry W p u) / φ (entry W p v)
      else φ (entry W (swapped c p r) u)
        + φ (entry W (swapped c p r) v) * (φ (entry W p u) / φ (entry W p v)) := by
  by_cases hr : r = c
  · simp [clearColumn, scaleRow, swapRows, hr, h.map_gfdiv]
  · by_cases hz : entry W (swapped c p r) v = 0#8
    · have hz' := hz
      simp only [swapped, hr, if_false] at hz'
      simp [clearColumn, scaleRow, swapRows, hr, hz', h.map_zero, swapped]
    · have hz' := hz
      simp only [swapped, hr, if_false] at hz'
      simp [clearColumn, scaleRow, swapRows, hr, hz', swapped, gfadd, h.map_xor, h.map_gfmul, h.map_gfdiv]

/-- A matrix whose rows are each a multiple of one row plus a multiple of row c of W is a product with W. -/
theorem exists_mul_of_rows {k m : Nat} (W W' : Matrix (Fin k) (Fin m) K) (π : Fin k → Fin k) (a b : Fin k → K)
    (c : Fin k) (hrow : ∀ r u, W' r u = a r * W (π r) u + b r * W c u) : ∃ E : Matrix (Fin k) (Fin k) K, W' = E * W := by
  refine ⟨Matrix.of fun r s => (if s = π r then a r else 0) + (if s = c then b r else 0), ?_⟩
  ext r u
  simp [Matrix.mul_apply, add_mul, Finset.sum_add_distrib, hrow]

/-- The first c columns of W are those of the identity. -/
def UnitColumns (φ : Byte → K) {k : Nat} (c : Nat) (W : Mat k (k + k)) : Prop :=
  ∀ j : Fin k, j.val < c → ∀ r, φ (entry W r (Fin.castAdd k j)) = if r = j then 1 else 0

/-- A pivot row is at or below the diagonal. -/
theorem le_of_pivotRow {k m : Nat} {W : Mat k m} {c p : Fin k} {u : Fin m} (h : pivotRow W c u = some p) : c ≤ p := by
  have := List.find?_some h
  simp at this
  exact this.1

/-- A turn that finds a pivot: the rows of W and of W' are combinations of each other, and one more column is a unit
vector. -/
theorem gaussColumn_some (h : ReadsAsField t K φ) {k : Nat} {c : Fin k} {W W' : Mat k (k + k)}
    (e : gaussColumn t c W = some W') (hu : UnitColumns φ c.val W) :
    (∃ E : Matrix (Fin k) (Fin k) K, readMat φ W' = E * readMat φ W) ∧
      (∃ E : Matrix (Fin k) (Fin k) K, readMat φ W = E * readMat φ W') ∧ UnitColumns φ (c.val + 1) W' := by
  unfold gaussColumn at e
  split at e
  · cases e
  · next p hp =>
    have hcp := le_of_pivotRow hp
    have hd := pivotRow_ne_zero hp
    have hd' : φ (entry W p (Fin.castAdd k c)) ≠ 0 := fun z => hd (h.map_eq_zero.mp z)
    have key := h.readMat_turn W c p (Fin.castAdd k c) hd
    rw [Option.some.injEq] at e
    rw [e] at key
    refine ⟨?_, ?_, ?_⟩
    · refine exists_mul_of_rows (readMat φ W) (readMat φ W') (fun r => if r = c then p else swapped c p r)
        (fun r => if r = c then 1 / φ (entry W p (Fin.castAdd k c)) else 1)
        (fun r => if r = c then 0 else φ (entry W (swapped c p r) (Fin.castAdd k c)) / φ (entry W p (Fin.castAdd k c)))
        p fun r u => ?_
      rw [readMat_apply, key]
      split_ifs <;> simp <;> field_simp
    · refine exists_mul_of_rows (readMat φ W') (readMat φ W) (swapped c p)
        (fun s => if s = p then 0 else 1)
        (fun s => if s = p then φ (entry W p (Fin.castAdd k c)) else φ (entry W s (Fin.castAdd k c))) c fun s u => ?_
      have hs : swapped c p s = c ↔ s = p := by
        unfold swapped
        constructor
        · intro x; split_ifs at x <;> simp_all
        · rintro rfl; split_ifs <;> simp_all
      simp only [readMat_apply, key, swapped_swapped, hs, if_true]
      by_cases hsp : s = p
      · simp only [hsp, if_true]; field_simp; ring
      · simp only [hsp, if_false, one_mul, add_assoc, h.add_self, add_zero]
    · intro j hj r
      rw [key]
      by_cases hjc : j = c
      · subst hjc
        by_cases hr : r = j
        · simp [hr, hd']
        · simp only [hr, if_false]
          rw [div_self hd', mul_one, h.add_self]
      · have hjlt : j.val < c.val := by
          have : j.val ≠ c.val := fun x => hjc (Fin.ext x)
          omega
        have hpj : p ≠ j := fun x => by subst x; have : c.val ≤ p.val := hcp; omega
        have hcj : c ≠ j := fun x => hjc x.symm
        rw [hu j hjlt p, if_neg hpj, zero_div, mul_zero, add_zero, hu j hjlt]
        by_cases hr : r = c
        · simp [hr, hcj]
        · simp only [hr, if_false, swapped]
          by_cases hrp : r = p
          · simp [hrp, hpj, hcj]
          · simp [hrp]

/-- A turn that finds none: some combination of the columns of the left half, not all of them with factor zero, is
zero. -/
theorem gaussColumn_none (h : ReadsAsField t K φ) {k : Nat} {c : Fin k} {W : Mat k (k + k)}
    (e : gaussColumn t c W = none) (hu : UnitColumns φ c.val W) :
    ∃ x : Fin k → K, x ≠ 0 ∧ ∀ r, ∑ j, φ (entry W r (Fin.castAdd k j)) * x j = 0 := by
  have hz : ∀ r : Fin k, c ≤ r → φ (entry W r (Fin.castAdd k c)) = 0 := by
    unfold gaussColumn at e
    split at e
    · next hp =>
      intro r hr
      have := List.find?_eq_none.mp hp r (List.mem_finRange r)
      simp [hr] at this
      rw [this]
      exact h.map_zero
    · cases e
  refine ⟨fun j => if j.val < c.val then φ (entry W j (Fin.castAdd k c)) else if j = c then 1 else 0, ?_, ?_⟩
  · intro x
    have := congrFun x c
    simp at this
  · intro r
    have hterm : ∀ j : Fin k, φ (entry W r (Fin.castAdd k j)) *
        (if j.val < c.val then φ (entry W j (Fin.castAdd k c)) else if j = c then 1 else 0) =
        (if j = r then (if r.val < c.val then φ (entry W r (Fin.castAdd k c)) else 0) else 0) +
        (if j = c then φ (entry W r (Fin.castAdd k c)) else 0) := by
      intro j
      by_cases hj : j.val < c.val
      · have hjc : j ≠ c := fun x => by subst x; omega
        rw [hu j hj]
        by_cases hjr : j = r
        · subst hjr; simp [hj, hjc]
        · simp [hj, hjc, hjr, Ne.symm hjr]
      · by_cases hjc : j = c
        · subst hjc
          by_cases hjr : j = r
          · subst hjr; simp
          · simp [hjr]
        · by_cases hjr : j = r
          · subst hjr; simp [hj, hjc]
          · simp [hj, hjc, hjr]
    rw [Finset.sum_congr rfl fun j _ => hterm j, Finset.sum_add_distrib]
    simp only [Finset.sum_ite_eq', Finset.mem_univ, if_true]
    by_cases hr : r.val < c.val
    · simp only [hr, if_true, h.add_self]
    · simp only [hr, if_false, zero_add]
      exact hz r (by simpa using hr)

/-! ## The whole elimination -/

/-- What holds after the turns for the first c columns of `[ M | I ]`. -/
structure Eliminated (φ : Byte → K) {k : Nat} (M : Mat k k) (c : Nat) (W : Mat k (k + k)) : Prop where
  forth : ∃ E : Matrix (Fin k) (Fin k) K, readMat φ W = E * readMat φ (augmented M)
  back : ∃ E : Matrix (Fin k) (Fin k) K, readMat φ (augmented M) = E * readMat φ W
  unitColumns : UnitColumns φ c W

theorem eliminated_of_gaussColumns (h : ReadsAsField t K φ) {k : Nat} {M : Mat k k} :
    ∀ {c : Nat} (hc : c ≤ k) {W : Mat k (k + k)}, gaussColumns t c hc (augmented M) = some W → Eliminated φ M c W
  | 0, _, W, e => by
    cases e
    exact ⟨⟨1, by simp⟩, ⟨1, by simp⟩, fun j hj => absurd hj (Nat.not_lt_zero _)⟩
  | c + 1, hc, W, e => by
    rw [gaussColumns, Option.bind_eq_some_iff] at e
    obtain ⟨V, hV, hW⟩ := e
    obtain ⟨⟨E, hE⟩, ⟨F, hF⟩, hu⟩ := eliminated_of_gaussColumns h _ hV
    obtain ⟨⟨E', hE'⟩, ⟨F', hF'⟩, hu'⟩ := h.gaussColumn_some hW hu
    exact ⟨⟨E' * E, by rw [hE', hE, Matrix.mul_assoc]⟩, ⟨F * F', by rw [hF, hF', Matrix.mul_assoc]⟩, hu'⟩

omit [Field K] in
theorem readMat_augmented_left (M : Mat k k) (r j : Fin k) :
    readMat φ (augmented M) r (Fin.castAdd k j) = readMat φ M r j := by simp [augmented]

theorem readMat_augmented_right (h : ReadsAsField t K φ) {k : Nat} (M : Mat k k) (r j : Fin k) :
    readMat φ (augmented M) r (Fin.natAdd k j) = (1 : Matrix (Fin k) (Fin k) K) r j := by
  rw [← h.readMat_identity, readMat_apply, readMat_apply, augmented, entry_matrixOf, Fin.addCases_right]

/-- What `matinv` returns is a left inverse, read over the field. -/
theorem mul_of_matinv_eq_some (h : ReadsAsField t K φ) {k : Nat} {M X : Mat k k} (e : matinv t M = some X) :
    readMat φ X * readMat φ M = 1 := by
  obtain ⟨W, hW, rfl⟩ := Option.map_eq_some_iff.mp e
  obtain ⟨⟨E, hE⟩, -, hu⟩ := h.eliminated_of_gaussColumns (le_refl k) hW
  have hX : readMat φ (rightHalf W) = E := by
    ext r j
    have : readMat φ (rightHalf W) r j = readMat φ W r (Fin.natAdd k j) := by simp [rightHalf]
    rw [this, hE, Matrix.mul_apply]
    simp only [h.readMat_augmented_right]
    rw [← Matrix.mul_apply, Matrix.mul_one]
  rw [hX]
  ext r j
  have h1 := hu j j.isLt r
  have h2 : readMat φ W r (Fin.castAdd k j) = (E * readMat φ (augmented M)) r (Fin.castAdd k j) := by rw [hE]
  rw [Matrix.mul_apply] at h2
  simp only [readMat_augmented_left] at h2
  rw [Matrix.mul_apply, ← h2, readMat_apply, h1, Matrix.one_apply]

/-- Where `matinv` answers `singular`, the matrix kills a non-zero vector. -/
theorem exists_mulVec_of_matinv_eq_none (h : ReadsAsField t K φ) {k : Nat} {M : Mat k k} (e : matinv t M = none) :
    ∃ x : Fin k → K, x ≠ 0 ∧ (readMat φ M).mulVec x = 0 := by
  have e' : gaussColumns t k (le_refl k) (augmented M) = none := Option.map_eq_none_iff.mp e
  have step : ∀ (c : Nat) (hc : c ≤ k), gaussColumns t c hc (augmented M) = none →
      ∃ (c' : Fin k) (W : Mat k (k + k)), Eliminated φ M c'.val W ∧ gaussColumn t c' W = none := by
    intro c
    induction c with
    | zero => intro hc e; cases e
    | succ c ih =>
      intro hc e
      rw [gaussColumns] at e
      cases hV : gaussColumns t c (Nat.le_of_succ_le hc) (augmented M) with
      | none => exact ih _ hV
      | some V =>
        rw [hV] at e
        exact ⟨⟨c, hc⟩, V, h.eliminated_of_gaussColumns _ hV, e⟩
  obtain ⟨c, W, ⟨-, ⟨F, hF⟩, hu⟩, hnone⟩ := step k (le_refl k) e'
  obtain ⟨x, hx, hsum⟩ := h.gaussColumn_none hnone hu
  refine ⟨x, hx, ?_⟩
  ext r
  simp only [Matrix.mulVec, dotProduct, Pi.zero_apply]
  have hentry : ∀ j, readMat φ M r j = ∑ s, F r s * φ (entry W s (Fin.castAdd k j)) := by
    intro j
    rw [← readMat_augmented_left, hF, Matrix.mul_apply]
    rfl
  simp only [hentry, Finset.sum_mul]
  rw [Finset.sum_comm]
  refine Finset.sum_eq_zero fun s _ => ?_
  simp only [mul_assoc]
  rw [← Finset.mul_sum, hsum, mul_zero]

/-- A matrix with non-zero determinant has an inverse that `matinv` finds. -/
theorem exists_matinv_of_det_ne_zero (h : ReadsAsField t K φ) {k : Nat} {M : Mat k k} (hdet : (readMat φ M).det ≠ 0) :
    ∃ X, matinv t M = some X := by
  cases e : matinv t M with
  | some X => exact ⟨X, rfl⟩
  | none =>
    obtain ⟨x, hx, hMx⟩ := h.exists_mulVec_of_matinv_eq_none e
    exact absurd (Matrix.exists_mulVec_eq_zero_iff.mp ⟨x, hx, hMx⟩) hdet

end ReadsAsField

/-! ## Rows of a Vandermonde matrix -/

/-- K rows of V with distinct row elements have non-zero determinant (`41_matrix_builder.md` R106). -/
theorem det_vandermonde_rows_ne_zero {k : Nat} (v : Fin k → K) (hv : Function.Injective v) :
    (Matrix.of fun (i j : Fin k) => v i ^ j.val).det ≠ 0 :=
  Matrix.det_vandermonde_ne_zero_iff.mpr hv

/-- The row elements of `Config.elem` are distinct (`00_scope.md` R5). -/
theorem elem_injective {i j : Nat} (hi : i < 255) (hj : j < 255) (h : Config.elem i = Config.elem j) : i = j := by
  have := congrArg BitVec.toNat h
  simp [Config.elem] at this
  omega

end Sys2Proof.Laws
end

