-- ==== Sys2Proof/Laws/Memory.lean ====
section
/-!
SUPPORT. The laws of data memory: read after write, and the canonical form kept by every memory operation.
-/

namespace Sys2Proof.Laws
open Sys2Proof.Machine

/-! ## Read after write -/

theorem lookup_write_self (m : Memory) (a : Nat) (v : Byte) : Memory.lookup (Memory.write m a v) a = some v := by
  induction m with
  | nil => simp [Memory.write, Memory.lookup]
  | cons c m ih =>
    obtain ⟨b, w⟩ := c
    simp only [Memory.write]
    split_ifs with h1 h2
    · simp [Memory.lookup]
    · simp [Memory.lookup]
    · simp [Memory.lookup, h2, ih]

theorem lookup_write_ne (m : Memory) {a c : Nat} (v : Byte) (h : c ≠ a) :
    Memory.lookup (Memory.write m a v) c = Memory.lookup m c := by
  induction m with
  | nil => simp [Memory.write, Memory.lookup, h]
  | cons d m ih =>
    obtain ⟨b, w⟩ := d
    simp only [Memory.write]
    split_ifs with h1 h2
    · simp [Memory.lookup, h]
    · subst h2; simp [Memory.lookup, h]
    · simp [Memory.lookup, ih]

@[simp] theorem read_write_self (m : Memory) (a : Nat) (v : Byte) : Memory.read (Memory.write m a v) a = v := by
  simp [Memory.read, lookup_write_self]

theorem read_write_ne (m : Memory) {a c : Nat} (v : Byte) (h : c ≠ a) :
    Memory.read (Memory.write m a v) c = Memory.read m c := by
  simp [Memory.read, lookup_write_ne m v h]

/-- Writing a block gives its bytes inside it and changes nothing outside. -/
theorem read_writeBlock (m : Memory) (base len : Nat) (f : Nat → Byte) (a : Nat) :
    Memory.read (Memory.writeBlock m base len f) a =
      if base ≤ a ∧ a < base + len then f (a - base) else Memory.read m a := by
  induction len with
  | zero => simp [Memory.writeBlock]
  | succ len ih =>
    by_cases h : a = base + len
    · subst h
      simp [Memory.writeBlock]
    · rw [Memory.writeBlock, read_write_ne _ _ h, ih]
      congr 1
      simp only [eq_iff_iff]
      omega

theorem read_writeBlock_inside (m : Memory) (base len : Nat) (f : Nat → Byte) {b : Nat} (h : b < len) :
    Memory.read (Memory.writeBlock m base len f) (base + b) = f b := by
  rw [read_writeBlock, if_pos (by omega), Nat.add_sub_cancel_left]

theorem read_writeBlock_outside (m : Memory) (base len : Nat) (f : Nat → Byte) {a : Nat}
    (h : ¬ (base ≤ a ∧ a < base + len)) : Memory.read (Memory.writeBlock m base len f) a = Memory.read m a := by
  rw [read_writeBlock, if_neg h]

/-- Blocks written one after another change no byte outside them all. -/
theorem read_foldl_writeBlock_outside {α : Type} (E : List α) (addr : α → Nat) (len : Nat) (f : α → Nat → Byte)
    (m : Memory) {a : Nat} (h : ∀ e ∈ E, ¬ (addr e ≤ a ∧ a < addr e + len)) :
    Memory.read (E.foldl (fun m e => Memory.writeBlock m (addr e) len (f e)) m) a = Memory.read m a := by
  induction E generalizing m with
  | nil => rfl
  | cons e E ih =>
    rw [List.foldl_cons, ih _ fun e' he' => h e' (List.mem_cons_of_mem _ he'),
      read_writeBlock_outside _ _ _ _ (h e List.mem_cons_self)]

/-- A byte of a block that no later block of the list meets reads as that block's byte. -/
theorem read_foldl_writeBlock_inside {α : Type} (E : List α) (addr : α → Nat) (len : Nat) (f : α → Nat → Byte)
    (m : Memory) {e : α} {b : Nat} (he : e ∈ E) (hb : b < len)
    (h : ∀ e' ∈ E, addr e' ≤ addr e + b → addr e + b < addr e' + len → e' = e) :
    Memory.read (E.foldl (fun m e => Memory.writeBlock m (addr e) len (f e)) m) (addr e + b) = f e b := by
  induction E generalizing m with
  | nil => simp at he
  | cons d E ih =>
    rw [List.foldl_cons]
    by_cases hE : e ∈ E
    · exact ih _ hE fun e' he' => h e' (List.mem_cons_of_mem _ he')
    · have hed : e = d := by simpa [hE] using he
      subst hed
      rw [read_foldl_writeBlock_outside, read_writeBlock_inside _ _ _ _ hb]
      rintro e' he' ⟨h1, h2⟩
      exact hE (h e' (List.mem_cons_of_mem _ he') h1 h2 ▸ he')

/-! ## The canonical form -/

theorem wf_nil : Memory.wf [] = true := by decide

theorem wf_iff (m : Memory) :
    Memory.wf m = true ↔ m.Pairwise (fun c d => c.1 < d.1) ∧ ∀ c ∈ m, c.1 < Config.memBytes := by
  simp [Memory.wf]

theorem mem_write {m : Memory} {a : Nat} {v : Byte} {c : Host.Cell} (h : c ∈ Memory.write m a v) :
    c = (a, v) ∨ c ∈ m := by
  induction m with
  | nil => simpa [Memory.write] using h
  | cons d m ih =>
    obtain ⟨b, w⟩ := d
    simp only [Memory.write] at h
    split_ifs at h with h1 h2
    · simpa using h
    · rcases List.mem_cons.mp h with h | h
      · exact .inl h
      · exact .inr (List.mem_cons_of_mem _ h)
    · rcases List.mem_cons.mp h with h | h
      · exact .inr (h ▸ List.mem_cons_self)
      · exact (ih h).imp_right (List.mem_cons_of_mem _)

theorem wf_write {m : Memory} {a : Nat} (v : Byte) (hm : Memory.wf m = true) (ha : a < Config.memBytes) :
    Memory.wf (Memory.write m a v) = true := by
  rw [wf_iff] at hm ⊢
  refine ⟨?_, fun c hc => (mem_write hc).elim (fun e => e ▸ ha) (hm.2 c)⟩
  obtain ⟨hp, -⟩ := hm
  induction m with
  | nil => simp [Memory.write]
  | cons d m ih =>
    obtain ⟨b, w⟩ := d
    rw [List.pairwise_cons] at hp
    simp only [Memory.write]
    split_ifs with h1 h2
    · rw [List.pairwise_cons, List.pairwise_cons]
      refine ⟨fun c hc => ?_, hp⟩
      rcases List.mem_cons.mp hc with rfl | hc
      · exact h1
      · exact Nat.lt_trans h1 (hp.1 c hc)
    · subst h2
      exact List.pairwise_cons.mpr hp
    · refine List.pairwise_cons.mpr ⟨fun c hc => ?_, ih hp.2⟩
      rcases mem_write hc with rfl | hc
      · exact Nat.lt_of_le_of_ne (Nat.le_of_not_lt h1) (Ne.symm h2)
      · exact hp.1 c hc

theorem wf_writeBlock {m : Memory} (base len : Nat) (f : Nat → Byte) (hm : Memory.wf m = true)
    (h : len = 0 ∨ base + len ≤ Config.memBytes) : Memory.wf (Memory.writeBlock m base len f) = true := by
  induction len with
  | zero => exact hm
  | succ len ih => exact wf_write _ (ih (by omega)) (by omega)

theorem wf_foldl_writeBlock {α : Type} (E : List α) (addr : α → Nat) (len : Nat) (f : α → Nat → Byte) {m : Memory}
    (hm : Memory.wf m = true) (h : ∀ e ∈ E, len = 0 ∨ addr e + len ≤ Config.memBytes) :
    Memory.wf (E.foldl (fun m e => Memory.writeBlock m (addr e) len (f e)) m) = true := by
  induction E generalizing m with
  | nil => exact hm
  | cons e E ih =>
    exact ih (wf_writeBlock _ _ _ hm (h e List.mem_cons_self)) fun e' he' => h e' (List.mem_cons_of_mem _ he')

/-- Equal reads of listed bytes and equal listings: two canonical memories that look up alike are the same. -/
theorem eq_of_lookup {m m' : Memory} (hm : Memory.wf m = true) (hm' : Memory.wf m' = true)
    (h : ∀ a, Memory.lookup m a = Memory.lookup m' a) : m = m' := by
  rw [wf_iff] at hm hm'
  replace hm := hm.1
  replace hm' := hm'.1
  revert hm hm'
  have hnone : ∀ {l : Memory} {a : Nat}, (∀ c ∈ l, a < c.1) → Memory.lookup l a = none := by
    intro l a hl
    induction l with
    | nil => rfl
    | cons c l ih =>
      obtain ⟨b, w⟩ := c
      have : a ≠ b := Nat.ne_of_lt (hl _ List.mem_cons_self)
      simpa [Memory.lookup, this] using ih fun c hc => hl c (List.mem_cons_of_mem _ hc)
  induction m generalizing m' with
  | nil =>
    intro _ _
    cases m' with
    | nil => rfl
    | cons c m' => have := h c.1; simp [Memory.lookup] at this
  | cons c m ih =>
    intro hm hm'
    obtain ⟨b, w⟩ := c
    cases m' with
    | nil => have := h b; simp [Memory.lookup] at this
    | cons c' m' =>
      obtain ⟨b', w'⟩ := c'
      rw [List.pairwise_cons] at hm hm'
      have hb : b = b' := by
        rcases Nat.lt_trichotomy b b' with hlt | heq | hlt
        · have hn : Memory.lookup ((b', w') :: m') b = none := hnone fun c hc => by
            rcases List.mem_cons.mp hc with rfl | hc
            · exact hlt
            · exact Nat.lt_trans hlt (hm'.1 c hc)
          have := h b
          rw [hn] at this
          simp [Memory.lookup] at this
        · exact heq
        · have hn : Memory.lookup ((b, w) :: m) b' = none := hnone fun c hc => by
            rcases List.mem_cons.mp hc with rfl | hc
            · exact hlt
            · exact Nat.lt_trans hlt (hm.1 c hc)
          have := h b'
          rw [hn] at this
          simp [Memory.lookup] at this
      subst hb
      have hw : w = w' := by have := h b; simpa [Memory.lookup] using this
      subst hw
      congr 1
      refine ih (fun a => ?_) hm.2 hm'.2
      by_cases hab : a = b
      · subst hab
        rw [hnone fun c hc => hm.1 c hc, hnone fun c hc => hm'.1 c hc]
      · have := h a
        simpa [Memory.lookup, hab] using this

end Sys2Proof.Laws
end

