-- ==== Sys2Proof/Laws/Operands.lean ====
section
/-!
SUPPORT. The checks of a data command as statements about numbers (`20_memory.md` R49 to R53).
-/

namespace Sys2Proof.Laws
open Sys2Proof.Machine

/-! ## Regions -/

theorem inRange_eq_true {m : Nat} {r : Region} :
    r.inRange m = true ↔ r.length = 0 ∨ r.start + r.length ≤ m := by simp [Region.inRange]

theorem overlaps_eq_true {r q : Region} :
    r.overlaps q = true ↔ 0 < r.length ∧ 0 < q.length ∧ r.start < q.start + q.length ∧ q.start < r.start + r.length := by
  simp only [Region.overlaps, Bool.and_eq_true, decide_eq_true_eq, and_assoc]

@[simp] theorem regionInl_start (d : Descriptor) (s : State) : (regionInl d s).start = s.baseA.toNat := rfl
@[simp] theorem regionInl_length (d : Descriptor) (s : State) : (regionInl d s).length = d.n.toNat * s.len.toNat := rfl
@[simp] theorem regionSources_start (d : Descriptor) (s : State) : (regionSources d s).start = s.baseA.toNat := rfl
@[simp] theorem regionSources_length (d : Descriptor) (s : State) :
    (regionSources d s).length = d.k.toNat * s.len.toNat := rfl
@[simp] theorem regionParity_start (d : Descriptor) (s : State) : (regionParity d s).start = s.baseB.toNat := rfl
@[simp] theorem regionParity_length (d : Descriptor) (s : State) :
    (regionParity d s).length = (d.n.toNat - d.k.toNat) * s.len.toNat := rfl
@[simp] theorem regionOut_start (s : State) : (regionOut s).start = s.outBase.toNat := rfl
@[simp] theorem regionOut_length (s : State) : (regionOut s).length = s.len.toNat := rfl

/-! ## Block addresses -/

theorem addrApp_of_lt {k : Byte} (s : State) {i : Nat} (h : i < k.toNat) : addrApp k s i = addrInl s i := by
  simp [addrApp, addrInl, h]

theorem addrApp_of_le {k : Byte} (s : State) {i : Nat} (h : k.toNat ≤ i) :
    addrApp k s i = s.baseB.toNat + (i - k.toNat) * s.len.toNat := by simp [addrApp, Nat.not_lt.mpr h]

/-- A block below position m ends where the block of position m would start, or earlier. -/
theorem mul_add_lt {i m len b : Nat} (h : i < m) (hb : b < len) : i * len + b < m * len := by
  have := Nat.mul_le_mul_right len (show i + 1 ≤ m from h)
  rw [Nat.succ_mul] at this
  omega

/-- Bytes of different blocks of one packed region differ (R48). -/
theorem mul_add_ne {i j len b c : Nat} (h : i ≠ j) (hb : b < len) (hc : c < len) : i * len + b ≠ j * len + c := by
  rcases Nat.lt_or_gt_of_ne h with h | h
  · have := mul_add_lt h hb
    omega
  · have := mul_add_lt h hc
    omega

/-! ## The length tests -/

theorem sourceLengthsAgree_eq_true {d : Descriptor} {s : State} :
    sourceLengthsAgree d s = true ↔ ∀ j : Fin d.k.toNat, blenAt s j = s.len := by simp [sourceLengthsAgree]

theorem validLengthsAgree_eq_true {d : Descriptor} {s : State} :
    validLengthsAgree d s = true ↔ ∀ i : Fin d.n.toNat, erasedAt s i = false → blenAt s i = s.len := by
  simp [validLengthsAgree]

end Sys2Proof.Laws
end

