-- ==== Sys2Proof/Laws/PerInstr.lean ====
section
/-!
SUPPORT. Per instruction: its word stands in the row of the opcode map with its mnemonic's opcode, and has no bit set
that the row's format requires to be zero (`30_encoding.md` R62, R63).
-/

namespace Sys2Proof.Laws.OpcodeRow

/-- The word of the command selects one row of the opcode map, and only that row. -/
def Statement (i : Instr) : Prop :=
  ∃ row ∈ opcodeTable, row.op = opField (encode i) ∧ encode i &&& row.format.mustBeZero = 0#32 ∧
    ∀ q ∈ opcodeTable, q.op = opField (encode i) → q.op = row.op ∧ q.format = row.format

/-- Row n of the opcode map is the only row of its opcode. -/
theorem of_row {i : Instr} (n : Fin 21) (hop : opcodeTable[n].op = opField (encode i))
    (hz : encode i &&& opcodeTable[n].format.mustBeZero = 0#32) : Statement i := by
  have unique : ∀ m : Fin 21, ∀ q ∈ opcodeTable, q.op = opcodeTable[m].op → q.format = opcodeTable[m].format := by
    decide
  exact ⟨opcodeTable[n], List.getElem_mem _, hop, hz, fun q hq h => ⟨h.trans hop.symm, unique n q hq (h.trans hop.symm)⟩⟩

theorem nop : Statement .nop := of_row 0 (opField_wordAB _ _ _).symm (wordAB_and_Z _)

theorem gfadd (a : Byte) (b : Byte) : Statement (.gfadd a b) := of_row 1 (opField_wordAB _ _ _).symm (wordAB_and_AB _ _ _)

theorem gfsub (a : Byte) (b : Byte) : Statement (.gfsub a b) := of_row 2 (opField_wordAB _ _ _).symm (wordAB_and_AB _ _ _)

theorem gfmul (a : Byte) (b : Byte) : Statement (.gfmul a b) := of_row 3 (opField_wordAB _ _ _).symm (wordAB_and_AB _ _ _)

theorem gfdiv (a : Byte) (b : Byte) : Statement (.gfdiv a b) := of_row 4 (opField_wordAB _ _ _).symm (wordAB_and_AB _ _ _)

theorem logrd (a : Byte) : Statement (.logrd a) := of_row 5 (opField_wordAB _ _ _).symm (wordAB_and_A _ _)

theorem alogrd (e : Nat) : Statement (.alogrd e) := of_row 6 (opField_wordAB _ _ _).symm (wordAB_and_A _ _)

theorem create (n : Nat) (k : Nat) : Statement (.create n k) := of_row 7 (opField_wordAB _ _ _).symm (wordAB_and_AB _ _ _)

theorem destroy : Statement .destroy := of_row 8 (opField_wordAB _ _ _).symm (wordAB_and_Z _)

theorem gmrd (row : Nat) (col : Nat) : Statement (.gmrd row col) := of_row 9 (opField_wordAB _ _ _).symm (wordAB_and_AB _ _ _)

theorem setl (len : Nat) : Statement (.setl len) := of_row 10 (opField_wordAI _ _ _).symm (wordAI_and_I16 _ _)

theorem setblen (pos : Nat) (len : Nat) : Statement (.setblen pos len) := of_row 11 (opField_wordAI _ _ _).symm (and_AI _)

theorem setbasea (addr : Nat) : Statement (.setbasea addr) := of_row 12 (opField_wordI24 _ _).symm (and_I24 _)

theorem setbaseb (addr : Nat) : Statement (.setbaseb addr) := of_row 13 (opField_wordI24 _ _).symm (and_I24 _)

theorem setout (addr : Nat) : Statement (.setout addr) := of_row 14 (opField_wordI24 _ _).symm (and_I24 _)

theorem emclr : Statement .emclr := of_row 15 (opField_wordAB _ _ _).symm (wordAB_and_Z _)

theorem emset (pos : Nat) : Statement (.emset pos) := of_row 16 (opField_wordAB _ _ _).symm (wordAB_and_A _ _)

theorem emval (pos : Nat) : Statement (.emval pos) := of_row 17 (opField_wordAB _ _ _).symm (wordAB_and_A _ _)

theorem encodeBlock (p : Nat) : Statement (.encodeBlock p) := of_row 18 (opField_wordAB _ _ _).symm (wordAB_and_A _ _)

theorem decinl : Statement .decinl := of_row 19 (opField_wordAB _ _ _).symm (wordAB_and_Z _)

theorem decapp : Statement .decapp := of_row 20 (opField_wordAB _ _ _).symm (wordAB_and_Z _)

end Sys2Proof.Laws.OpcodeRow
end

