-- ==== Sys2Proof/Machine/Assembler.lean ====
section
/-!
DEFINITION. The text syntax of commands (`30_encoding.md` R69, R70), for writing programs down; the hardware knows
nothing of it, and no step uses it (log entry 14).
-/

namespace Sys2Proof.Assembler

/-! ## Numbers -/

/-- The digits in the order of their values; the first ten are the decimal ones. -/
def digitChars : List Char := "0123456789ABCDEF".toList

/-- The value of a digit of the base: its place among the base's digits (a lower case letter as its capital). -/
def digit (base : Nat) (c : Char) : Option Nat := (digitChars.take base).idxOf? c.toUpper

/-- The number that the digits spell after the value v, in the base. -/
def digitsFrom (base v : Nat) : List Char → Option Nat
  | [] => some v
  | c :: cs => (digit base c).bind fun d => digitsFrom base (v * base + d) cs

/-- "Numbers are decimal, or hexadecimal with `0x`" (R69). -/
def number : List Char → Option Nat
  | [] => none
  | ['0', 'x'] => none
  | '0' :: 'x' :: cs => digitsFrom 16 0 cs
  | cs => digitsFrom 10 0 cs

/-! ## Commands by their mnemonic and operands -/

/-- A field element operand. -/
def fieldElement (v : Nat) : Option Byte := if fitsByte v then some (BitVec.ofNat 8 v) else none

/-- A command whose integer operands fit their fields. -/
def fitting (i : Instr) : Option Instr := if i.wellFormed then some i else none

/-- The commands without operands. -/
def noOperand : List (String × Instr) :=
  [("NOP", .nop), ("DESTROY", .destroy), ("EMCLR", .emclr), ("DECINL", .decinl), ("DECAPP", .decapp)]

/-- The commands with one operand. -/
def oneOperand : List (String × (Nat → Option Instr)) :=
  [("LOGRD", fun a => (fieldElement a).map .logrd), ("ALOGRD", fun i => fitting (.alogrd i)),
    ("SETL", fun len => fitting (.setl len)), ("SETBASEA", fun addr => fitting (.setbasea addr)),
    ("SETBASEB", fun addr => fitting (.setbaseb addr)), ("SETOUT", fun addr => fitting (.setout addr)),
    ("EMSET", fun pos => fitting (.emset pos)), ("EMVAL", fun pos => fitting (.emval pos)),
    ("ENCODE", fun p => fitting (.encodeBlock p))]

/-- A command of two field elements. -/
def twoElements (f : Byte → Byte → Instr) (a b : Nat) : Option Instr :=
  (fieldElement a).bind fun x => (fieldElement b).map (f x)

/-- The commands with two operands. -/
def twoOperands : List (String × (Nat → Nat → Option Instr)) :=
  [("GFADD", twoElements .gfadd), ("GFSUB", twoElements .gfsub), ("GFMUL", twoElements .gfmul),
    ("GFDIV", twoElements .gfdiv), ("CREATE", fun n k => fitting (.create n k)),
    ("GMRD", fun row col => fitting (.gmrd row col)), ("SETBLEN", fun pos len => fitting (.setblen pos len))]

/-- The command with this mnemonic and these operands. -/
def command (mnemonic : String) : List Nat → Option Instr
  | [] => noOperand.lookup mnemonic
  | [x] => (oneOperand.lookup mnemonic).bind fun f => f x
  | [x, y] => (twoOperands.lookup mnemonic).bind fun f => f x y
  | _ => none

/-- `SETBLENS cnt, len`: `SETBLEN 0, len` to `SETBLEN cnt-1, len`, in that order (R70). -/
def expandSetblens (cnt len : Nat) : List Instr := (List.range cnt).map fun pos => .setblen pos len

/-! ## Lines -/

/-- Space and tab. -/
def isBlank (c : Char) : Bool := c == ' ' || c == '\t'

/-- The text without the blanks around it. -/
def trim (cs : List Char) : List Char := ((cs.dropWhile isBlank).reverse.dropWhile isBlank).reverse

/-- The pieces between the separators. -/
def pieces (sep : Char) : List Char → List (List Char)
  | [] => [[]]
  | c :: cs =>
    if c = sep then [] :: pieces sep cs
    else
      match pieces sep cs with
      | [] => [[c]]
      | p :: ps => (c :: p) :: ps

/-- The operands, "separated by commas" (R69). -/
def operands (cs : List Char) : Option (List Nat) :=
  if cs = [] then some [] else (pieces ',' cs).mapM fun p => number (trim p)

/-- The commands of one line: none at all for a line of blanks and comment, one, or those of a `SETBLENS`. The answer
is none where the line is no command of R69 and R70. -/
def line (cs : List Char) : Option (List Instr) :=
  let text := trim (cs.takeWhile (· ≠ ';'))
  if text = [] then some []
  else
    let mnemonic := String.ofList (text.takeWhile fun c => !isBlank c)
    (operands (trim (text.dropWhile fun c => !isBlank c))).bind fun ops =>
      if mnemonic = "SETBLENS" then
        match ops with
        | [cnt, len] => if cnt ≤ 255 ∧ fitsImm16 len then some (expandSetblens cnt len) else none
        | _ => none
      else (command mnemonic ops).map fun i => [i]

/-- The words of a text, one command a line (R69). -/
def assemble (text : String) : Option (List Word) :=
  ((pieces '\n' text.toList).mapM line).map fun is => is.flatten.map encode

end Sys2Proof.Assembler
end

