-- ==== Sys2Proof/Tests/Slice0.lean ====
section
/-!
SUPPORT. The model's own tests. Every expected value is the spec's: the listings of `10_state.md` R20 and R21, the words
of `30_encoding.md` R69, and the vectors of `95_test_vectors.md`, named by their id.
-/

set_option Elab.async false

open Sys2Proof Sys2Proof.Machine Sys2Proof.Claims

namespace Sys2Proof.Tests

/-! ## WellFormed: an operand one past its field is refused, the largest one is not -/

theorem test_alogrd_operand : (Instr.alogrd 256).wellFormed = false ∧ (Instr.alogrd 255).wellFormed = true := by decide

theorem test_create_operands : (Instr.create 256 4).wellFormed = false ∧ (Instr.create 4 256).wellFormed = false ∧
    (Instr.create 255 255).wellFormed = true := by decide

theorem test_gmrd_operands : (Instr.gmrd 256 0).wellFormed = false ∧ (Instr.gmrd 0 256).wellFormed = false ∧
    (Instr.gmrd 255 255).wellFormed = true := by decide

theorem test_setl_operand : (Instr.setl 65536).wellFormed = false ∧ (Instr.setl 65535).wellFormed = true := by decide

theorem test_setblen_operands : (Instr.setblen 256 0).wellFormed = false ∧ (Instr.setblen 0 65536).wellFormed = false ∧
    (Instr.setblen 255 65535).wellFormed = true := by decide

theorem test_address_operands : (Instr.setbasea 16777216).wellFormed = false ∧
    (Instr.setbaseb 16777216).wellFormed = false ∧ (Instr.setout 16777216).wellFormed = false ∧
    (Instr.setbasea 16777215).wellFormed = true := by decide

theorem test_position_operands : (Instr.emset 256).wellFormed = false ∧ (Instr.emval 256).wellFormed = false ∧
    (Instr.encodeBlock 256).wellFormed = false ∧ (Instr.emset 255).wellFormed = true := by decide

/-! ## Decode: the words of R69, and of 95 section 3.5 -/

theorem test_decode_nop : decode 0x00000000#32 = .command .nop := by decide
theorem test_decode_gfadd : decode 0x0153CA00#32 = .command (.gfadd 0x53#8 0xCA#8) := by decide
theorem test_decode_gfsub : decode 0x02D48300#32 = .command (.gfsub 0xD4#8 0x83#8) := by decide
theorem test_decode_gfmul : decode 0x03578300#32 = .command (.gfmul 0x57#8 0x83#8) := by decide
theorem test_decode_gfdiv : decode 0x04010200#32 = .command (.gfdiv 0x01#8 0x02#8) := by decide
theorem test_decode_logrd : decode 0x08030000#32 = .command (.logrd 0x03#8) := by decide
theorem test_decode_alogrd : decode 0x09080000#32 = .command (.alogrd 8) := by decide
theorem test_decode_create : decode 0x10060400#32 = .command (.create 6 4) := by decide
theorem test_decode_destroy : decode 0x11000000#32 = .command .destroy := by decide
theorem test_decode_gmrd : decode 0x12040000#32 = .command (.gmrd 4 0) := by decide
theorem test_decode_setl : decode 0x20000004#32 = .command (.setl 4) := by decide
theorem test_decode_setblen : decode 0x21020004#32 = .command (.setblen 2 4) := by decide
theorem test_decode_setbasea : decode 0x22001000#32 = .command (.setbasea 0x1000) := by decide
theorem test_decode_setbaseb : decode 0x23002000#32 = .command (.setbaseb 0x2000) := by decide
theorem test_decode_setout : decode 0x24001010#32 = .command (.setout 0x1010) := by decide
theorem test_decode_emclr : decode 0x28000000#32 = .command .emclr := by decide
theorem test_decode_emset : decode 0x29020000#32 = .command (.emset 2) := by decide
theorem test_decode_emval : decode 0x2A020000#32 = .command (.emval 2) := by decide
theorem test_decode_encode : decode 0x30040000#32 = .command (.encodeBlock 4) := by decide
theorem test_decode_decinl : decode 0x31000000#32 = .command .decinl := by decide
theorem test_decode_decapp : decode 0x32000000#32 = .command .decapp := by decide

/-- IL-2, IL-3, IL-5, IL-6, IL-7, IL-13: a reserved bit is 1. -/
theorem test_reserved_bits : [0x00000001#32, 0x01010101#32, 0x08010001#32, 0x20010004#32, 0x31000001#32,
    0x100604FF#32].map decode = List.replicate 6 (.illegal .reservedBits) := by decide +kernel

/-- IL-4, IL-8, IL-9: the opcode is not assigned. -/
theorem test_unassigned : [0x05000000#32, 0x33000000#32, 0xFF000000#32, 0xFFFFFFFF#32].map decode =
    List.replicate 4 (.illegal .unassignedOpcode) := by decide +kernel

/-- IL-10 to IL-12: formats AI and I24 have no reserved bit, and AB has none in a and b. -/
theorem test_full_operands : decode 0x21FFFFFF#32 = .command (.setblen 255 0xFFFF) ∧
    decode 0x22FFFFFF#32 = .command (.setbasea 0xFFFFFF) ∧ decode 0x10FFFF00#32 = .command (.create 255 255) := by decide

/-- The `match` value of every row of `opcode_table.json` decodes. -/
theorem test_table_words : (assigned.map fun op => (decodeTableWord 32 (op * 2 ^ 24)).isSome) =
    List.replicate 21 true := by decide +kernel

/-- A word put where the next step takes its command runs as the first command after reset. -/
theorem test_fetch : step (State.reset.withFetchWord 32 0x09FE0000) = execute (tableWord 32 0x09FE0000) State.reset ∧
    tableWord 32 0x09FE0000 = 0x09FE0000#32 := ⟨Laws.step_of_command rfl, by decide⟩

/-! ## The assembler: every row of R69, and R70 as SU-18 -/

theorem test_assemble_fields : Assembler.assemble
    "NOP\nGFADD 0x53, 0xCA\nGFMUL 0x57, 0x83\nGFDIV 1, 2\nLOGRD 3\nALOGRD 8\nCREATE 6, 4\nDESTROY\nGMRD 4, 0" =
    some [0x00000000#32, 0x0153CA00#32, 0x03578300#32, 0x04010200#32, 0x08030000#32, 0x09080000#32, 0x10060400#32,
      0x11000000#32, 0x12040000#32] := by decide +kernel

theorem test_assemble_operands : Assembler.assemble
    "SETL 4\nSETBLEN 2, 4\nSETBASEA 0x001000\nSETBASEB 0x002000\nSETOUT 0x001010 ; the output\nEMCLR\nEMSET 2" =
    some [0x20000004#32, 0x21020004#32, 0x22001000#32, 0x23002000#32, 0x24001010#32, 0x28000000#32,
      0x29020000#32] := by decide +kernel

theorem test_assemble_data : Assembler.assemble "EMVAL 2\nENCODE 4\n\nDECINL\nDECAPP\nSETBLENS 4, 4" =
    some [0x2A020000#32, 0x30040000#32, 0x31000000#32, 0x32000000#32, 0x21000004#32, 0x21010004#32, 0x21020004#32,
      0x21030004#32] := by decide +kernel

theorem test_assemble_refuses : Assembler.assemble "GFADD 1" = none ∧ Assembler.assemble "EMSET 256" = none ∧
    Assembler.assemble "nop" = none ∧ Assembler.assemble "SETL 0x" = none ∧
    Assembler.assemble "SETL 0xG" = none ∧ Assembler.assemble "SETL 1A" = none := by decide +kernel

/-! ## The field tables -/


/-- `ALOG[0..254]` as `10_state.md` R20 lists it for `POLY = 0x11D`. -/
def listedAlog : List Nat :=
  [0x01, 0x02, 0x04, 0x08, 0x10, 0x20, 0x40, 0x80, 0x1D, 0x3A, 0x74, 0xE8, 0xCD, 0x87, 0x13, 0x26] ++
  [0x4C, 0x98, 0x2D, 0x5A, 0xB4, 0x75, 0xEA, 0xC9, 0x8F, 0x03, 0x06, 0x0C, 0x18, 0x30, 0x60, 0xC0] ++
  [0x9D, 0x27, 0x4E, 0x9C, 0x25, 0x4A, 0x94, 0x35, 0x6A, 0xD4, 0xB5, 0x77, 0xEE, 0xC1, 0x9F, 0x23] ++
  [0x46, 0x8C, 0x05, 0x0A, 0x14, 0x28, 0x50, 0xA0, 0x5D, 0xBA, 0x69, 0xD2, 0xB9, 0x6F, 0xDE, 0xA1] ++
  [0x5F, 0xBE, 0x61, 0xC2, 0x99, 0x2F, 0x5E, 0xBC, 0x65, 0xCA, 0x89, 0x0F, 0x1E, 0x3C, 0x78, 0xF0] ++
  [0xFD, 0xE7, 0xD3, 0xBB, 0x6B, 0xD6, 0xB1, 0x7F, 0xFE, 0xE1, 0xDF, 0xA3, 0x5B, 0xB6, 0x71, 0xE2] ++
  [0xD9, 0xAF, 0x43, 0x86, 0x11, 0x22, 0x44, 0x88, 0x0D, 0x1A, 0x34, 0x68, 0xD0, 0xBD, 0x67, 0xCE] ++
  [0x81, 0x1F, 0x3E, 0x7C, 0xF8, 0xED, 0xC7, 0x93, 0x3B, 0x76, 0xEC, 0xC5, 0x97, 0x33, 0x66, 0xCC] ++
  [0x85, 0x17, 0x2E, 0x5C, 0xB8, 0x6D, 0xDA, 0xA9, 0x4F, 0x9E, 0x21, 0x42, 0x84, 0x15, 0x2A, 0x54] ++
  [0xA8, 0x4D, 0x9A, 0x29, 0x52, 0xA4, 0x55, 0xAA, 0x49, 0x92, 0x39, 0x72, 0xE4, 0xD5, 0xB7, 0x73] ++
  [0xE6, 0xD1, 0xBF, 0x63, 0xC6, 0x91, 0x3F, 0x7E, 0xFC, 0xE5, 0xD7, 0xB3, 0x7B, 0xF6, 0xF1, 0xFF] ++
  [0xE3, 0xDB, 0xAB, 0x4B, 0x96, 0x31, 0x62, 0xC4, 0x95, 0x37, 0x6E, 0xDC, 0xA5, 0x57, 0xAE, 0x41] ++
  [0x82, 0x19, 0x32, 0x64, 0xC8, 0x8D, 0x07, 0x0E, 0x1C, 0x38, 0x70, 0xE0, 0xDD, 0xA7, 0x53, 0xA6] ++
  [0x51, 0xA2, 0x59, 0xB2, 0x79, 0xF2, 0xF9, 0xEF, 0xC3, 0x9B, 0x2B, 0x56, 0xAC, 0x45, 0x8A, 0x09] ++
  [0x12, 0x24, 0x48, 0x90, 0x3D, 0x7A, 0xF4, 0xF5, 0xF7, 0xF3, 0xFB, 0xEB, 0xCB, 0x8B, 0x0B, 0x16] ++
  [0x2C, 0x58, 0xB0, 0x7D, 0xFA, 0xE9, 0xCF, 0x83, 0x1B, 0x36, 0x6C, 0xD8, 0xAD, 0x47, 0x8E]

theorem test_alog_listing : builtTables.alog.toList.map BitVec.toNat = listedAlog := by decide +kernel

/-- The line `0x50` of R21's listing of `LOG`. -/
theorem test_log_listing : (builtTables.log.toList.drop 79).take 16 =
    [0x36#8, 0xD0#8, 0x94#8, 0xCE#8, 0x8F#8, 0x96#8, 0xDB#8, 0xBD#8, 0xF1#8, 0xD2#8, 0x13#8, 0x5C#8, 0x83#8, 0x38#8,
      0x46#8, 0x40#8] := by decide +kernel

/-! ## One command on a small state -/

/-- The state after the command of a word. -/
def after (cw : Word) (s : State) : State :=
  match execute cw s with
  | .next t => t
  | .fault _ => s
  | .refused _ => s

/-- RS(3,2) of GM-2. -/
def rs32 : Descriptor := { n := 3#8, k := 2#8, gm := #v[#v[0x01#8, 0x00#8], #v[0x00#8, 0x01#8], #v[0xF4#8, 0xF5#8]] }

/-- RS(3,2), L = 1, sources `AB`, `CD`, parity `EF` (95 section 3.3) in both layouts. -/
def group : State :=
  { State.reset with
    tables := some builtTables, desc := some rs32, len := 1#16
    blen := (((Vector.replicate 255 0#16).set 0 1#16).set 1 1#16).set 2 1#16
    baseA := 0x001000#24, baseB := 0x002000#24, outBase := 0x001002#24
    dmem := [(0x1000, 0xAB#8), (0x1001, 0xCD#8), (0x1002, 0xEF#8), (0x2000, 0xEF#8)] }

/-- DEC-13: the first source block lost. -/
def lost : State :=
  { group with
    emap := group.emap.set 0 true
    dmem := [(0x1000, 0xEE#8), (0x1001, 0xCD#8), (0x1002, 0xEF#8), (0x2000, 0xEF#8)] }

/-- 95 section 3.6: RS(4,2) given two equal parity rows, both source blocks lost. -/
def singular : State :=
  { group with
    desc := some { n := 4#8, k := 2#8, gm := #v[#v[0x01#8, 0x00#8], #v[0x00#8, 0x01#8], #v[0xF4#8, 0xF5#8],
      #v[0xF4#8, 0xF5#8]] }
    blen := group.blen.set 3 1#16
    emap := (group.emap.set 0 true).set 1 true }

/-- A state of 95 section 3.6 with `FATAL = 1`. -/
def fatal : State := { group with fatal := true }

theorem test_gfadd : (after 0x01578300#32 State.reset).result = 0xD4#8 := by decide +kernel          -- ADD-1
theorem test_gfsub : (after 0x02123400#32 State.reset).result = 0x26#8 := by decide +kernel          -- ADD-7
theorem test_gfmul : (after 0x03578300#32 State.reset).result = 0x31#8 := by decide +kernel          -- MUL-10
theorem test_gfmul_255 : (after 0x03028E00#32 State.reset).result = 0x01#8 := by decide +kernel      -- MUL-9
theorem test_gfdiv : (after 0x04030700#32 State.reset).result = 0xD3#8 := by decide +kernel          -- DIV-8
theorem test_gfdiv_zero : (after 0x04000000#32 State.reset).status = 0x07#8 := by decide +kernel     -- DIV-15
theorem test_logrd : (after 0x088E0000#32 State.reset).result = 0xFE#8 := by decide +kernel          -- TBL-5
theorem test_logrd_zero : (after 0x08000000#32 State.reset).status = 0x04#8 := by decide +kernel     -- TBL-6
theorem test_alogrd : (after 0x09FE0000#32 State.reset).result = 0x8E#8 := by decide +kernel         -- TBL-9
theorem test_alogrd_255 : (after 0x09FF0000#32 State.reset).status = 0x04#8 := by decide +kernel     -- TBL-10

/-- GM-2. -/
theorem test_create : (after 0x10030200#32 State.reset).desc = some rs32 := by decide +kernel

/-- CR-3. -/
theorem test_create_k_above_n : (after 0x10030400#32 State.reset).status = 0x01#8 := by decide +kernel

/-- GM-5, row 4. -/
theorem test_build_gm : (buildGm builtTables Config.elem 6 4 (by decide)).map (fun G => G[4]) =
    some #v[0x52#8, 0xF7#8, 0x02#8, 0xA6#8] := by decide +kernel

/-- DM-1: the inverse of the decoding matrix of the source's scenario. -/
theorem test_matinv : matinv (k := 4) builtTables #v[#v[0x52#8, 0xF7#8, 0x02#8, 0xA6#8], #v[0x00#8, 0x01#8, 0x00#8, 0x00#8],
      #v[0xF7#8, 0x07#8, 0x04#8, 0xF5#8], #v[0x00#8, 0x00#8, 0x00#8, 0x01#8]] =
    some #v[#v[0x05#8, 0x8F#8, 0x8C#8, 0x07#8], #v[0x00#8, 0x01#8, 0x00#8, 0x00#8], #v[0x03#8, 0x46#8, 0xC8#8, 0x8C#8],
      #v[0x00#8, 0x00#8, 0x00#8, 0x01#8]] := by decide +kernel

theorem test_destroy : (after 0x11000000#32 group).desc = none := by decide +kernel                  -- CR-10
theorem test_destroy_none : (after 0x11000000#32 State.reset).status = 0x11#8 := by decide +kernel   -- CR-11
theorem test_gmrd : (after 0x12020100#32 group).result = 0xF5#8 := by decide +kernel                 -- GM-2
theorem test_gmrd_row : (after 0x12030000#32 group).status = 0x04#8 := by decide +kernel             -- row = N
theorem test_nop : (after 0x00000000#32 { group with status := 0x10#8 }).status = 0x00#8 := by decide +kernel -- SU-1
theorem test_setl : (after 0x2000FFFF#32 State.reset).len = 0xFFFF#16 := by decide +kernel           -- SU-3
theorem test_setblen : (after 0x21FE0001#32 State.reset).blen[254] = 1#16 := by decide +kernel       -- SU-7
theorem test_setblen_255 : (after 0x21FF0001#32 State.reset).status = 0x04#8 := by decide +kernel    -- SU-8
theorem test_setbasea : (after 0x22001000#32 State.reset).baseA = 0x001000#24 := by decide +kernel   -- SU-9
theorem test_setbaseb : (after 0x23FFFFFF#32 State.reset).baseB = 0xFFFFFF#24 := by decide +kernel   -- SU-10
theorem test_setout : (after 0x24001010#32 State.reset).outBase = 0x001010#24 := by decide +kernel   -- SU-11
theorem test_emset : (after 0x29030000#32 State.reset).emap[3] = true := by decide +kernel           -- SU-12
theorem test_emset_255 : (after 0x29FF0000#32 State.reset).status = 0x04#8 := by decide +kernel      -- SU-15
theorem test_emval : (after 0x2A000000#32 lost).emap[0] = false := by decide +kernel                 -- SU-14
theorem test_emclr : (after 0x28000000#32 lost).emap[0] = false := by decide +kernel                 -- SU-16

/-- R60: `STATUS` in bits 15:8; MUL-10 and IL-4. -/
theorem test_response : (after 0x03578300#32 State.reset).response = 0x0031#16 ∧
    (after 0x05000000#32 State.reset).response = 0x1000#16 := by decide +kernel

/-- 95 section 3.3: `ENCODE 2` writes `EF`. -/
theorem test_encode : (after 0x30020000#32 { group with dmem := [(0x1000, 0xAB#8), (0x1001, 0xCD#8)] }).dmem =
    [(0x1000, 0xAB#8), (0x1001, 0xCD#8), (0x1002, 0xEF#8)] := by decide +kernel

/-- ENC-14: the output starts on the last source byte. -/
theorem test_encode_overlap : (after 0x30020000#32 { group with outBase := 0x001001#24 }).status = 0x14#8 := by
  decide +kernel

theorem test_decinl : (after 0x31000000#32 lost).dmem = group.dmem := by decide +kernel              -- DEC-13
theorem test_decapp : (after 0x32000000#32 lost).dmem = group.dmem := by decide +kernel              -- DEC-13, DEC-9
theorem test_decapp_overlap : (after 0x32000000#32 { lost with baseB := 0x001001#24 }).status = 0x14#8 := by
  decide +kernel                                                                                     -- DEC-26

/-- 95 section 3.6: `FATAL = 1`, `STATUS = 06`, `DMEM` unchanged. -/
theorem test_singular : (after 0x31000000#32 singular).fatal = true ∧ (after 0x31000000#32 singular).status = 0x06#8 ∧
    (after 0x31000000#32 singular).dmem = singular.dmem := by decide +kernel

/-- FT-3: `Halted` wins over `IllegalCommand`. -/
theorem test_halted : (after 0x05000000#32 fatal).status = 0x1F#8 := by decide +kernel

/-- FT-5. -/
theorem test_reset : step { fatal with port := [.reset] } = .next { State.reset with dmem := group.dmem } :=
  Laws.step_of_reset rfl

/-! ## A state and operands that meet the hypotheses of each statement -/

theorem group_healthy : group.Healthy := by
  refine ⟨⟨⟨⟨.ok, rfl⟩, fun h => absurd rfl h⟩, fun t h => (Option.some.inj h).symm, fun d h => ?_, by unfold State.MemoryOk; decide +kernel⟩, rfl⟩
  obtain rfl := Option.some.inj h
  exact ⟨rfl, by decide, by decide, by decide +kernel⟩

theorem lost_healthy : lost.Healthy := by
  refine ⟨⟨⟨⟨.ok, rfl⟩, fun h => absurd rfl h⟩, fun t h => (Option.some.inj h).symm, fun d h => ?_, by unfold State.MemoryOk; decide +kernel⟩, rfl⟩
  obtain rfl := Option.some.inj h
  exact ⟨rfl, by decide, by decide, by decide +kernel⟩

theorem group_sized : SizedDesc group := by
  intro d h
  obtain rfl := Option.some.inj h
  decide

theorem singular_sized : SizedDesc singular := by
  intro d h
  obtain rfl := Option.some.inj h
  decide

theorem reset_sized : SizedDesc State.reset := fun _ h => nomatch h

theorem reset_tables : State.reset.TablesOk := fun _ h => nomatch h

theorem group_tables : group.TablesOk := group_healthy.inv.tables

theorem lost_decodable : Decodable lost rs32 :=
  ⟨rfl, by unfold LengthsAgree; decide +kernel, by decide +kernel⟩

theorem group_decodable : Decodable group rs32 :=
  ⟨rfl, by unfold LengthsAgree; decide +kernel, by decide +kernel⟩

/-- The word and the operands at the top of every field. -/
theorem witness_decode_of_encode : (Instr.setblen 255 65535).wellFormed = true ∧
    (Instr.setout 16777215).wellFormed = true ∧ (Instr.create 255 255).wellFormed = true := by decide

theorem witness_encode_of_decode : decode 0x21FFFFFF#32 = .command (.setblen 255 0xFFFF) := by decide

theorem witness_unassigned : (0x05FFFFFF#32).toNat / 2 ^ 24 ∉ assigned ∧ (0xFF000000#32).toNat / 2 ^ 24 ∉ assigned ∧
    State.reset.fatal = false := by decide

/-- The lowest and the highest reserved bit of each format. -/
theorem witness_reserved_bit : (reservedBitSet 0x00000001#32 ∧ reservedBitSet 0x31800000#32) ∧
    (reservedBitSet 0x08000001#32 ∧ reservedBitSet 0x30008000#32) ∧
    (reservedBitSet 0x01000001#32 ∧ reservedBitSet 0x12000080#32) ∧
    (reservedBitSet 0x20010000#32 ∧ reservedBitSet 0x20800000#32) ∧ State.reset.fatal = false := by
  refine ⟨⟨?_, ?_⟩, ⟨?_, ?_⟩, ⟨?_, ?_⟩, ⟨?_, ?_⟩, rfl⟩ <;> (unfold reservedBitSet; decide)

theorem witness_step : ({ group with port := [.command 0x31000000#32] } : State).port = .command 0x31000000#32 :: [] ∧
    decode 0x31000000#32 = .command .decinl := by decide

theorem witness_prologue : fatal.fatal = true ∧ group.fatal = false ∧ decode 0x05000000#32 = .illegal .unassignedOpcode ∧
    decode 0x00000001#32 = .illegal .reservedBits ∧ decode 0x00000000#32 = .command .nop := by decide

theorem witness_fatal : fatal.fatal = true := rfl

theorem witness_idle : group.port = [] := rfl

/-- A read alone; the same address and another, at both ends of memory. -/
theorem witness_host_read :
    ({ group with port := [.read 0xFFFFFF#24] } : State).port = .read 0xFFFFFF#24 :: [] ∧
    ({ group with port := [.write 0xFFFFFF#24 0x01#8, .read 0xFFFFFF#24] } : State).port =
      .write 0xFFFFFF#24 0x01#8 :: .read 0xFFFFFF#24 :: [] ∧
    ({ group with port := [.write 0xFFFFFF#24 0x01#8, .read 0x000000#24] } : State).port =
      .write 0xFFFFFF#24 0x01#8 :: .read 0x000000#24 :: [] := ⟨rfl, rfl, rfl⟩

theorem witness_reset : ({ fatal with port := [.reset] } : State).port = .reset :: [] := rfl

/-- `GFADD`, `GFSUB`, `NOP`, the set-up commands: a state that is not fatal; a position in range and 255. -/
theorem witness_setup : State.reset.fatal = false ∧ (0xFF#8 : Byte) = 0xFF#8 ∧ (0xFE#8 : Byte) ≠ 0xFF#8 ∧
    (0x00#8 : Byte) ≠ 0xFF#8 := by decide

/-- The field commands: tables unbuilt and built, each operand 0 and not 0. -/
theorem witness_field : (State.reset.fatal = false ∧ State.reset.TablesOk) ∧ (group.fatal = false ∧ group.TablesOk) ∧
    (0x00#8 : Byte) = 0#8 ∧ (0x01#8 : Byte) ≠ 0#8 ∧ (0xFF#8 : Byte) ≠ 0#8 ∧ (0xFF#8 : Byte) = 0xFF#8 ∧
    (0xFE#8 : Byte) ≠ 0xFF#8 :=
  ⟨⟨rfl, reset_tables⟩, ⟨rfl, group_tables⟩, by decide⟩

theorem witness_lazy_build : State.reset.fatal = false ∧ ∃ t, exec (.gfmul 0x57#8 0x83#8) State.reset = .next t :=
  ⟨rfl, _, rfl⟩

/-- A descriptor, none with k = 1, k > n and n = 0, and the smallest and largest legal codes. -/
theorem witness_create : (group.fatal = false ∧ group.TablesOk ∧ group.desc ≠ none) ∧
    (State.reset.fatal = false ∧ State.reset.TablesOk ∧ State.reset.desc = none) ∧
    (¬ (2 ≤ (1#8 : Byte).toNat ∧ (1#8 : Byte).toNat ≤ (4#8 : Byte).toNat)) ∧
    (¬ (2 ≤ (4#8 : Byte).toNat ∧ (4#8 : Byte).toNat ≤ (3#8 : Byte).toNat)) ∧
    (2 ≤ (2#8 : Byte).toNat ∧ (2#8 : Byte).toNat ≤ (2#8 : Byte).toNat) ∧
    (2 ≤ (255#8 : Byte).toNat ∧ (255#8 : Byte).toNat ≤ (255#8 : Byte).toNat) :=
  ⟨⟨rfl, group_tables, nofun⟩, ⟨rfl, reset_tables, rfl⟩, by decide⟩

theorem witness_generator_matrix : (2 ≤ 2 ∧ 2 ≤ 2 ∧ 2 ≤ 255) ∧ (2 ≤ 255 ∧ 255 ≤ 255) := by decide

/-- A matrix with an inverse, and one with none (DM-1; 95 section 3.6). -/
theorem witness_matinv : matinv builtTables (identity 2) = some (identity 2) ∧
    matinv (k := 2) builtTables #v[#v[0xF4#8, 0xF5#8], #v[0xF4#8, 0xF5#8]] = none := by decide +kernel

theorem witness_any_k_rows : (2 ≤ 2 ∧ 3 ≤ 255 ∧ Function.Injective (![2, 0] : Fin 2 → Fin 3)) ∧ lost.DescOk ∧
    Decodable lost rs32 :=
  ⟨⟨by decide, by decide, by decide⟩, lost_healthy.inv.desc, lost_decodable⟩

theorem witness_destroy : (State.reset.fatal = false ∧ State.reset.desc = none) ∧
    (group.fatal = false ∧ group.desc ≠ none) := ⟨⟨rfl, rfl⟩, rfl, nofun⟩

/-- No descriptor; row = N; col = K; the last entry; a row below K. -/
theorem witness_gmrd : (State.reset.fatal = false ∧ State.reset.desc = none) ∧
    (group.fatal = false ∧ group.desc = some rs32 ∧ group.DescOk) ∧ rs32.n.toNat ≤ (3#8 : Byte).toNat ∧
    rs32.k.toNat ≤ (2#8 : Byte).toNat ∧ ((2#8 : Byte).toNat < rs32.n.toNat ∧ (1#8 : Byte).toNat < rs32.k.toNat) ∧
    (1#8 : Byte).toNat < rs32.k.toNat :=
  ⟨⟨rfl, rfl⟩, ⟨rfl, rfl, group_healthy.inv.desc⟩, by decide⟩

/-- The output adjacent above the sources (ENC-17), and the last byte of memory (ENC-19). -/
theorem witness_encode : (group.fatal = false ∧ group.TablesOk ∧ group.desc = some rs32) ∧
    (rs32.k.toNat ≤ (2#8 : Byte).toNat ∧ (2#8 : Byte).toNat < rs32.n.toNat) ∧
    LengthsAgree group (List.range rs32.k.toNat) ∧ EncInRange group rs32 ∧ ¬ EncOverlap group rs32 ∧
    EncInRange { group with outBase := 0xFFFFFF#24 } rs32 ∧ ¬ EncOverlap { group with outBase := 0xFFFFFF#24 } rs32 := by
  refine ⟨⟨rfl, group_tables, rfl⟩, by decide, ?_⟩
  unfold LengthsAgree EncInRange EncOverlap
  decide +kernel

/-- Each row of R141: no descriptor; p = K-1; p = N; a wrong length; one byte beyond memory; a one byte overlap. -/
theorem witness_encode_errors : (State.reset.fatal = false ∧ SizedDesc State.reset ∧ State.reset.desc = none) ∧
    (group.fatal = false ∧ SizedDesc group ∧ group.desc = some rs32) ∧ 1 < rs32.k.toNat ∧ rs32.n.toNat ≤ 3 ∧
    (rs32.k.toNat ≤ 2 ∧ 2 < rs32.n.toNat) ∧
    ¬ LengthsAgree { group with len := 2#16 } (List.range rs32.k.toNat) ∧
    LengthsAgree { group with baseA := 0xFFFFFF#24 } (List.range rs32.k.toNat) ∧
    ¬ EncInRange { group with baseA := 0xFFFFFF#24 } rs32 ∧
    LengthsAgree { group with outBase := 0x001001#24 } (List.range rs32.k.toNat) ∧
    EncInRange { group with outBase := 0x001001#24 } rs32 ∧ EncOverlap { group with outBase := 0x001001#24 } rs32 := by
  refine ⟨⟨rfl, reset_sized, rfl⟩, ⟨rfl, group_sized, rfl⟩, by decide, by decide, by decide, ?_⟩
  unfold LengthsAgree EncInRange EncOverlap
  decide +kernel

/-- Two states with the output in two places. -/
theorem witness_encode_pure : (group.TablesOk ∧ group.desc = some rs32 ∧ 0 < group.len.toNat) ∧
    (∃ t, exec (.encodeBlock 2) group = .next t ∧ t.status = 0x00#8) ∧
    ∃ t, exec (.encodeBlock 2) { group with outBase := 0x002000#24 } = .next t ∧ t.status = 0x00#8 :=
  ⟨⟨group_tables, rfl, by decide⟩, ⟨_, rfl, by decide +kernel⟩, _, rfl, by decide +kernel⟩

theorem witness_encode_order : group.TablesOk ∧ group.desc = some rs32 ∧ (2#8 : Byte).toNat < rs32.n.toNat ∧
    (∃ t, exec (.encodeBlock (2#8 : Byte).toNat) group = .next t ∧ t.status = 0x00#8) ∧
    [0].Perm (List.range group.len.toNat) :=
  ⟨group_tables, rfl, by decide, ⟨_, rfl, by decide +kernel⟩, .refl _⟩

/-- An erased and a valid source position. -/
theorem witness_decoding_matrix : Decodable lost rs32 ∧ lost.DescOk ∧ lost.emap[0]? = some true ∧ lost.emap[1]? = some false :=
  ⟨lost_decodable, lost_healthy.inv.desc, by decide +kernel, by decide +kernel⟩

/-- Nothing erased; the parity region adjacent above the sources (DEC-27). -/
theorem witness_nothing_erased : group.fatal = false ∧ Decodable group rs32 ∧ erased group 0 rs32.k.toNat = [] ∧
    InlInRange group rs32 ∧ AppInRange { group with baseB := 0x001002#24 } rs32 ∧
    ¬ AppOverlap { group with baseB := 0x001002#24 } rs32 := by
  refine ⟨rfl, group_decodable, ?_⟩
  unfold InlInRange AppInRange AppOverlap
  decide +kernel

/-- One source block lost, in both layouts. -/
theorem witness_reconstruct : lost.Healthy ∧ Decodable lost rs32 ∧ InlInRange lost rs32 ∧ AppInRange lost rs32 ∧
    ¬ AppOverlap lost rs32 := by
  refine ⟨lost_healthy, lost_decodable, ?_⟩
  unfold InlInRange AppInRange AppOverlap
  decide +kernel

/-- Both source blocks lost: |E| = 2 > N-K. -/
def bothLost : State := { lost with emap := lost.emap.set 1 true }

/-- A source block and the parity block lost: |P| = 0 < |E|. -/
def parityLost : State := { lost with emap := lost.emap.set 2 true }

/-- R157 rows 1 to 5: no descriptor; a wrong length; too many lost; too few survive; one byte beyond memory; a one byte
overlap. -/
theorem witness_decode_errors : (State.reset.fatal = false ∧ SizedDesc State.reset ∧ State.reset.desc = none) ∧
    (lost.fatal = false ∧ SizedDesc lost ∧ lost.desc = some rs32) ∧
    ¬ LengthsAgree { lost with len := 2#16 } (valid lost 0 rs32.n.toNat) ∧
    (LengthsAgree bothLost (valid bothLost 0 rs32.n.toNat) ∧
      rs32.n.toNat - rs32.k.toNat < (erased bothLost 0 rs32.k.toNat).length) ∧
    (LengthsAgree parityLost (valid parityLost 0 rs32.n.toNat) ∧
      (valid parityLost rs32.k.toNat rs32.n.toNat).length < (erased parityLost 0 rs32.k.toNat).length) ∧
    Decodable lost rs32 ∧ ¬ InlInRange { lost with baseA := 0xFFFFFE#24 } rs32 ∧
    ¬ AppInRange { lost with baseA := 0xFFFFFF#24 } rs32 ∧ AppInRange { lost with baseB := 0x001001#24 } rs32 ∧
    AppOverlap { lost with baseB := 0x001001#24 } rs32 := by
  refine ⟨⟨rfl, reset_sized, rfl⟩, ⟨rfl, group_sized, rfl⟩, ?_, ?_, ?_, lost_decodable, ?_⟩
  · unfold LengthsAgree
    decide +kernel
  · unfold LengthsAgree
    decide +kernel
  · unfold LengthsAgree
    decide +kernel
  · unfold InlInRange AppInRange AppOverlap
    decide +kernel

/-- RS(4,2) with two equal parity rows. -/
def twins : Descriptor :=
  { n := 4#8, k := 2#8, gm := #v[#v[0x01#8, 0x00#8], #v[0x00#8, 0x01#8], #v[0xF4#8, 0xF5#8], #v[0xF4#8, 0xF5#8]] }

/-- R157 row 6. -/
theorem witness_decode_singular : singular.fatal = false ∧ SizedDesc singular ∧ Decodable singular twins ∧
    InlInRange singular twins ∧ AppInRange singular twins ∧ ¬ AppOverlap singular twins ∧
    erased singular 0 twins.k.toNat ≠ [] ∧ matinv singular.tablesNow (decodingMatrix twins singular) = none := by
  refine ⟨rfl, singular_sized, ⟨rfl, ?_, ?_⟩, ?_⟩
  · unfold LengthsAgree
    decide +kernel
  · decide +kernel
  · unfold InlInRange AppInRange AppOverlap
    decide +kernel

/-- The sources `AB`, `CD` behind the blocks of `lost`, in both layouts. -/
theorem witness_restore : lost.Healthy ∧ Decodable lost rs32 ∧ InlInRange lost rs32 ∧ AppInRange lost rs32 ∧
    ¬ AppOverlap lost rs32 ∧ Consistent rs32 (addrInl lost) (fun j _ => if j.val = 0 then 0xAB#8 else 0xCD#8) lost ∧
    Consistent rs32 (addrApp rs32.k lost) (fun j _ => if j.val = 0 then 0xAB#8 else 0xCD#8) lost := by
  refine ⟨lost_healthy, lost_decodable, ?_⟩
  unfold InlInRange AppInRange AppOverlap Consistent
  decide +kernel

/-- The same group in the two layouts. -/
theorem witness_layouts : (lost.fatal = false ∧ lost.TablesOk ∧ lost.desc = some rs32) ∧ InlInRange lost rs32 ∧
    AppInRange lost rs32 ∧ ¬ AppOverlap lost rs32 ∧
    ∀ i < rs32.n.toNat, lost.emap[i]? = some false → ∀ b < lost.len.toNat,
      Memory.read lost.dmem (addrInl lost i + b) = Memory.read lost.dmem (addrApp rs32.k lost i + b) := by
  refine ⟨⟨rfl, lost_healthy.inv.tables, rfl⟩, ?_⟩
  unfold InlInRange AppInRange AppOverlap
  decide +kernel

/-- The junk in the lost block differs. -/
theorem witness_picked_blocks : Decodable lost rs32 ∧ group.dmem ≠ lost.dmem ∧
    ∀ j < rs32.k.toNat, ∀ b < lost.len.toNat,
      Memory.read lost.dmem (addrInl lost (source rs32 lost j) + b) =
        Memory.read group.dmem (addrInl lost (source rs32 lost j) + b) ∧
      Memory.read lost.dmem (addrApp rs32.k lost (source rs32 lost j) + b) =
        Memory.read group.dmem (addrApp rs32.k lost (source rs32 lost j) + b) :=
  ⟨lost_decodable, by decide +kernel, by decide +kernel⟩

theorem witness_coinciding_layouts : ({ lost with baseB := 0x001002#24 } : State).desc = some rs32 ∧
    SizedDesc { lost with baseB := 0x001002#24 } ∧
    ({ lost with baseB := 0x001002#24 } : State).baseB.toNat = lost.baseA.toNat + rs32.k.toNat * lost.len.toNat :=
  ⟨rfl, group_sized, by decide⟩

/-- Each data command succeeds. -/
theorem witness_data_commands : group.fatal = false ∧ group.desc = some rs32 ∧
    (∃ t, exec (.encodeBlock 2) group = .next t ∧ t.status = 0x00#8) ∧
    (lost.fatal = false ∧ lost.desc = some rs32) ∧ (∃ t, exec .decinl lost = .next t ∧ t.status = 0x00#8) ∧
    ∃ t, exec .decapp lost = .next t ∧ t.status = 0x00#8 :=
  ⟨rfl, rfl, ⟨_, rfl, by decide +kernel⟩, ⟨rfl, rfl⟩, ⟨_, rfl, by decide +kernel⟩, _, rfl, by decide +kernel⟩

/-- `BLEN[3]` and `EMAP[3]`, at the first position not below N, differ. -/
theorem witness_unused_operands : lost.desc = some rs32 ∧ SizedDesc lost ∧
    (∀ i < rs32.n.toNat, (lost.blen.set 3 9#16)[i]? = lost.blen[i]? ∧ (lost.emap.set 3 true)[i]? = lost.emap[i]?) ∧
    (∃ t, exec .decinl lost = .next t) ∧ (∃ t, exec .decapp lost = .next t) ∧ ∃ t, exec (.encodeBlock 2) lost = .next t :=
  ⟨rfl, group_sized, by decide +kernel, ⟨_, rfl⟩, ⟨_, rfl⟩, _, rfl⟩

/-- A command that ends with an error, one with `SingularMatrix`, one that halts, one that succeeds. -/
theorem witness_command_ends : (∃ t, exec .destroy State.reset = .next t ∧ t.status ≠ 0x00#8) ∧
    (∃ t, exec .decinl singular = .next t ∧ t.status = 0x06#8) ∧ (∃ t, exec .nop fatal = .next t ∧ t.status = 0x1F#8) ∧
    ∃ t, exec .nop group = .next t ∧ (returnsByte .nop = false ∨ t.status ≠ 0x00#8) :=
  ⟨⟨_, rfl, by decide +kernel⟩, ⟨_, rfl, by decide +kernel⟩, ⟨_, rfl, by decide +kernel⟩, _, rfl, .inl rfl⟩

theorem witness_only_reset_clears : fatal.fatal = true ∧ (∃ t, step fatal = .next t) ∧
    ∃ t, step { fatal with port := [.reset] } = .next t ∧ t.fatal = false :=
  ⟨rfl, ⟨_, rfl⟩, _, rfl, rfl⟩

theorem witness_invariant : lost.Inv ∧ lost.Healthy ∧ ∃ t, step { lost with port := [.command 0x31000000#32] } = .next t :=
  ⟨lost_healthy.inv, lost_healthy, _, rfl⟩

theorem witness_run : ∃ t, Sys2Proof.core.run 1 { State.reset with port := [.command 0x01578300#32] } = .next t :=
  ⟨_, rfl⟩

end Sys2Proof.Tests
end

section
/-!
PROOF. The memory family (`20_memory.md`): where `BASE_B = BASE_A + K*L` the parity-appended layout is the parity-inline
one, so each check of `DECAPP` and its reconstruction are those of `DECINL`.
-/

namespace Sys2Proof.Proofs
open Sys2Proof.Machine Sys2Proof.Laws

/-! ## Two decodes that differ only in their layout -/

/-- `decode(addr, regions)` sees of its two parameters the block addresses, the range test and the overlap test. -/
theorem decodeOwn_congr {addr₁ addr₂ : Descriptor → State → Nat → Nat}
    {regions₁ regions₂ : Descriptor → State → List Region} {s : State} {d : Descriptor} (hd : s.desc = some d)
    (hAddr : addr₁ d s = addr₂ d s)
    (hRange : (regions₁ d s).all (Region.inRange Config.memBytes) = (regions₂ d s).all (Region.inRange Config.memBytes))
    (hOverlap : someOverlap (regions₁ d s) = someOverlap (regions₂ d s)) :
    decodeOwn addr₁ regions₁ s = decodeOwn addr₂ regions₂ s := by
  simp only [decodeOwn, hd, hAddr, hRange, hOverlap]

/-- The prologue answers alike for two own rules that answer alike in the same state. -/
theorem prologue_congr {own₁ own₂ : State → State} {s : State} (h : own₁ s = own₂ s) :
    prologue own₁ s = prologue own₂ s := by
  simp only [prologue, h]

/-! ## The layouts where `BASE_B = BASE_A + K*L` -/

section Coinciding
variable {s : State} {d : Descriptor} (hBase : s.baseB.toNat = s.baseA.toNat + d.k.toNat * s.len.toNat)
include hBase

theorem addrApp_eq_addrInl_of_coinciding (i : Nat) : addrApp d.k s i = addrInl s i := by
  rcases Nat.lt_or_ge i d.k.toNat with hi | hi
  · exact addrApp_of_lt s hi
  · calc addrApp d.k s i
        = s.baseA.toNat + (d.k.toNat + (i - d.k.toNat)) * s.len.toNat := by
          rw [addrApp_of_le s hi, hBase, Nat.add_mul, Nat.add_assoc]
      _ = addrInl s i := by rw [Nat.add_sub_of_le hi, addrInl]

/-- `RA_app` ends where `RB_app` starts, so the two never overlap. -/
theorem regionSources_overlaps_regionParity_of_coinciding :
    (regionSources d s).overlaps (regionParity d s) = false := by
  rw [Bool.eq_false_iff, ne_eq, overlaps_eq_true]
  rintro ⟨-, -, -, hStart⟩
  simp [hBase] at hStart

/-- `RA_app` and `RB_app` are the two parts of `RA_inl`. `0 < K` is needed: an empty `RA_app` must mean `L = 0`, which
empties the other regions too (R52). -/
theorem inRange_app_eq_inRange_inl_of_coinciding (m : Nat) (hk : 0 < d.k.toNat) (hkn : d.k.toNat ≤ d.n.toNat) :
    ((regionSources d s).inRange m && (regionParity d s).inRange m) = (regionInl d s).inRange m := by
  have hLength : d.n.toNat * s.len.toNat = d.k.toNat * s.len.toNat + (d.n.toNat - d.k.toNat) * s.len.toNat := by
    rw [← Nat.add_mul, Nat.add_sub_of_le hkn]
  have hEmpty : d.k.toNat * s.len.toNat = 0 → (d.n.toNat - d.k.toNat) * s.len.toNat = 0 := fun h => by
    rw [(Nat.mul_eq_zero.mp h).resolve_left hk.ne', Nat.mul_zero]
  rw [Bool.eq_iff_iff, Bool.and_eq_true, inRange_eq_true, inRange_eq_true, inRange_eq_true]
  simp only [regionSources_start, regionSources_length, regionParity_start, regionParity_length, regionInl_start,
    regionInl_length, hBase, hLength]
  omega

end Coinciding

/-! ## The obligation -/

/-- Settles O44: a decode's answer turns on the block addresses, the range test and the overlap test alone, and where
`BASE_B = BASE_A + K*L` all three are the same for both layouts. -/
theorem coincidingLayoutsDecodeAlike : Obligations.CoincidingLayoutsDecodeAlike := by
  intro s d hd hSized hBase
  obtain ⟨hk, hkn⟩ := hSized d hd
  have hAddr : ∀ i, addrApp d.k s i = addrInl s i := addrApp_eq_addrInl_of_coinciding hBase
  refine ⟨hAddr, congrArg Host.Outcome.next (prologue_congr (decodeOwn_congr hd (funext hAddr) ?range ?overlap))⟩
  case range => simpa using inRange_app_eq_inRange_inl_of_coinciding hBase Config.memBytes (by omega) hkn
  case overlap => simpa using regionSources_overlaps_regionParity_of_coinciding hBase

end Sys2Proof.Proofs
end

section
/-!
PROOF. The encoding family (`30_encoding.md`): the two kinds of word R67 calls illegal, and what each raises.
-/

namespace Sys2Proof.Proofs
open Sys2Proof.Machine Sys2Proof.Claims Sys2Proof.Laws

/-! ## Fields and must-be-zero bits as numbers (R61, R62) -/

theorem toNat_opField (cw : Word) : (opField cw).toNat = cw.toNat / 2 ^ 24 := by
  have := cw.isLt
  simp only [opField, BitVec.extractLsb'_toNat, Nat.shiftRight_eq_div_pow]
  omega

theorem toNat_and_lowMask (cw : Word) {n : Nat} (hn : n ≤ 32) :
    (cw &&& BitVec.ofNat 32 (2 ^ n - 1)).toNat = cw.toNat % 2 ^ n := by
  have hLt : 2 ^ n - 1 < 2 ^ 32 := Nat.lt_of_lt_of_le (Nat.sub_one_lt (by simp)) (Nat.pow_le_pow_right (by decide) hn)
  rw [BitVec.toNat_and, BitVec.toNat_ofNat, Nat.mod_eq_of_lt hLt, Nat.and_two_pow_sub_one_eq_mod]

theorem toNat_and_Z (cw : Word) : (cw &&& Format.mustBeZero .Z).toNat = cw.toNat % 2 ^ 24 :=
  toNat_and_lowMask cw (n := 24) (by decide)

theorem toNat_and_A (cw : Word) : (cw &&& Format.mustBeZero .A).toNat = cw.toNat % 2 ^ 16 :=
  toNat_and_lowMask cw (n := 16) (by decide)

theorem toNat_and_AB (cw : Word) : (cw &&& Format.mustBeZero .AB).toNat = cw.toNat % 2 ^ 8 :=
  toNat_and_lowMask cw (n := 8) (by decide)

theorem and_I16 (cw : Word) : cw &&& Format.mustBeZero .I16 = (aField cw).setWidth 32 <<< 16 := by
  ext i hi
  rw [BitVec.getElem_and, BitVec.getElem_shiftLeft, BitVec.getElem_setWidth, aField, BitVec.getLsbD_extractLsb']
  interval_cases i <;> simp [Format.mustBeZero]

/-- Format I16 reserves the field `a`, which stands above the 16 bits of its operand. -/
theorem toNat_and_I16 (cw : Word) :
    (cw &&& Format.mustBeZero .I16).toNat = cw.toNat / 2 ^ 16 % 2 ^ 8 * 2 ^ 16 := by
  rw [and_I16, BitVec.toNat_shiftLeft, BitVec.toNat_setWidth, aField, BitVec.extractLsb'_toNat,
    Nat.shiftRight_eq_div_pow, Nat.shiftLeft_eq]
  omega

/-! ## The row of an opcode (R67) -/

/-- The opcodes of the table's rows are the assigned ones (R63). -/
theorem map_op_opcodeTable : opcodeTable.map (fun row => row.op.toNat) = assigned := rfl

/-- At most one row has the word's opcode, so the decoder finds any row that has it. -/
theorem find_of_mem {cw : Word} {row : Row} (hMem : row ∈ opcodeTable) (hOp : row.op = opField cw) :
    opcodeTable.find? (fun r => r.op == opField cw) = some row := by
  have hSome : (opcodeTable.find? fun r => r.op == opField cw).isSome :=
    List.find?_isSome.mpr ⟨row, hMem, beq_iff_eq.mpr hOp⟩
  obtain ⟨found, hFound⟩ := Option.isSome_iff_exists.mp hSome
  obtain ⟨hFoundMem, hFoundOp⟩ := row_of_find hFound
  have hNodup : (opcodeTable.map Row.op).Nodup := List.pairwise_map.mpr opcodes_pairwise_ne
  rw [hFound, List.inj_on_of_nodup_map hNodup hFoundMem hMem (hFoundOp.trans hOp.symm)]

/-! ## The two kinds of illegal word (R65, R66) -/

theorem decode_of_unassigned {cw : Word} (h : cw.toNat / 2 ^ 24 ∉ assigned) :
    decode cw = .illegal .unassignedOpcode := by
  have hNone : opcodeTable.find? (fun row => row.op == opField cw) = none := by
    rw [List.find?_eq_none]
    intro row hMem hOp
    rw [← toNat_opField, ← beq_iff_eq.mp hOp, ← map_op_opcodeTable] at h
    exact h (List.mem_map_of_mem hMem)
  rw [decode, hNone]

/-- R65 for the opcodes `ops` of one format f: the row the decoder finds has format f, so f's mask is the one tested. -/
theorem decode_of_reserved {cw : Word} {f : Format} {ops : List Nat}
    (hFormat : ∀ op ∈ ops, ∃ row ∈ opcodeTable, row.format = f ∧ row.op.toNat = op)
    (hOp : cw.toNat / 2 ^ 24 ∈ ops) (hBits : (cw &&& f.mustBeZero).toNat ≠ 0) :
    decode cw = .illegal .reservedBits := by
  obtain ⟨row, hMem, rfl, hRowOp⟩ := hFormat _ hOp
  have hRow := find_of_mem hMem (BitVec.eq_of_toNat_eq (hRowOp.trans (toNat_opField cw).symm))
  rw [decode_of_row hRow, if_neg fun h => hBits (by rw [h]; rfl)]

theorem decode_of_reservedBitSet {cw : Word} (h : reservedBitSet cw) : decode cw = .illegal .reservedBits := by
  rcases h with ⟨hOp, hBits⟩ | ⟨hOp, hBits⟩ | ⟨hOp, hBits⟩ | ⟨hOp, hBits⟩
  · exact decode_of_reserved (f := .Z) (by decide) hOp (by rwa [toNat_and_Z])
  · exact decode_of_reserved (f := .A) (by decide) hOp (by rwa [toNat_and_A])
  · exact decode_of_reserved (f := .AB) (by decide) hOp (by rwa [toNat_and_AB])
  · exact decode_of_reserved (f := .I16) (ops := [0x20]) (by decide) (by simpa using hOp) (by rw [toNat_and_I16]; omega)

/-! ## The obligations -/

/-- Outside the fatal state the prologue raises `IllegalCommand` for a word the decoder refuses, for either reason. -/
theorem execute_of_illegal {cw : Word} {why : Illegal} {s : State} (hDecode : decode cw = .illegal why)
    (hFatal : s.fatal = false) : execute cw s = .next (errored 0x10#8 s) := by
  simp [execute, hDecode, hFatal, raise, respond, errored, Status.code]

/-- Settles O3: no row of the opcode table has the word's opcode, so the decoder finds none. -/
theorem unassignedOpcodeRaisesIllegalCommand : Obligations.UnassignedOpcodeRaisesIllegalCommand :=
  fun _ _ hOp hFatal => execute_of_illegal (decode_of_unassigned hOp) hFatal

/-- Settles O4: the one row of the word's opcode has the format whose mask meets the bit that is 1. -/
theorem reservedBitRaisesIllegalCommand : Obligations.ReservedBitRaisesIllegalCommand :=
  fun _ _ hBit hFatal => execute_of_illegal (decode_of_reservedBitSet hBit) hFatal

end Sys2Proof.Proofs
end

section
/-!
PROOF. The Field Engine family (`40_field_engine.md`): the words of its commands, how each command ends, and which table
entry it answers.
-/

namespace Sys2Proof.Proofs
open Sys2Proof.Machine Sys2Proof.Claims Sys2Proof.Laws

/-! ## The words (R61 to R63) -/

/-- The statements' layout of a word is the encoder's, so the laws of the encoder's words speak of it. -/
theorem word_eq_wordAB (op a b : Byte) : word op a b = wordAB op a b := rfl

/-- A word with the opcode of a row of the table, and no bit set that its format reserves, is that row's command. -/
theorem decode_word_of_row {row : Row} (hMem : row ∈ opcodeTable) (a b : Byte)
    (hBits : wordAB row.op a b &&& row.format.mustBeZero = 0#32) :
    decode (word row.op a b) = .command (row.make (wordAB row.op a b)) := by
  rw [word_eq_wordAB, decode_of_row (find_of_mem hMem (opField_wordAB row.op a b).symm), if_pos hBits]

/-- A row of format AB reads back both operand fields of its own words. -/
theorem decode_word_of_row_AB {op : Byte} {make : Byte → Byte → Instr} (a b : Byte)
    (hMem : ⟨op, .AB, fun cw => make (aField cw) (bField cw)⟩ ∈ opcodeTable) :
    decode (word op a b) = .command (make a b) :=
  (decode_word_of_row hMem a b (wordAB_and_AB op a b)).trans (by simp only [aField_wordAB, bField_wordAB])

/-- A row of format A reads back the one operand field of its own words. -/
theorem decode_word_of_row_A {op : Byte} {make : Byte → Instr} (a : Byte)
    (hMem : ⟨op, .A, fun cw => make (aField cw)⟩ ∈ opcodeTable) :
    decode (word op a 0x00#8) = .command (make a) :=
  (decode_word_of_row hMem a 0#8 (wordAB_and_A op a)).trans (by simp only [aField_wordAB])

/-! ## The end of a command in the statements' words -/

theorem done_eq_answered (v : Byte) (s : State) : done v s = answered v s := rfl

theorem raise_eq_errored (x : Status) (s : State) : raise x s = errored x.code s := rfl

theorem tablesNow_of_tablesOk {s : State} (hTables : s.TablesOk) : s.tablesNow = builtTables := by
  cases h : s.tables with
  | none => exact tablesNow_of_none h
  | some t => exact (tablesNow_of_some h).trans (hTables t h)

/-- R25: with the invariant on the tables, the lazy build leaves the built tables in every state. -/
theorem ensureTables_of_tablesOk {s : State} (hTables : s.TablesOk) : ensureTables s = built s := by
  rw [ensureTables, tablesNow_of_tablesOk hTables, built]

/-! ## What each command answers while `FATAL = 0` (R82 to R87) -/

section Exec
variable {s : State} (hFatal : s.fatal = false)
include hFatal

theorem exec_gfadd (a b : Byte) : exec (.gfadd a b) s = .next (answered (a ^^^ b) s) := by
  rw [exec, execGfadd, prologue_of_not_fatal hFatal, done_eq_answered, gfadd]

theorem exec_gfsub (a b : Byte) : exec (.gfsub a b) s = .next (answered (a ^^^ b) s) := by
  rw [exec, execGfsub, prologue_of_not_fatal hFatal, done_eq_answered, gfsub]

variable (hTables : s.TablesOk)
include hTables

theorem exec_gfmul (a b : Byte) :
    exec (.gfmul a b) s = .next (answered (gfmul builtTables a b) (built s)) := by
  rw [exec, execGfmul, prologue_of_not_fatal hFatal, tablesNow_of_tablesOk hTables, ensureTables_of_tablesOk hTables,
    done_eq_answered]

theorem exec_gfdiv_zero (a : Byte) : exec (.gfdiv a 0#8) s = .next (errored 0x07#8 (built s)) := by
  rw [exec, execGfdiv, prologue_of_not_fatal hFatal, dif_pos rfl, ensureTables_of_tablesOk hTables, raise_eq_errored,
    Status.code]

theorem exec_gfdiv_of_ne (a : Byte) {b : Byte} (hb : b ≠ 0#8) :
    exec (.gfdiv a b) s = .next (answered (gfdiv builtTables a b hb) (built s)) := by
  rw [exec, execGfdiv, prologue_of_not_fatal hFatal, dif_neg hb, tablesNow_of_tablesOk hTables,
    ensureTables_of_tablesOk hTables, done_eq_answered]

theorem exec_logrd_zero : exec (.logrd 0#8) s = .next (errored 0x04#8 (built s)) := by
  rw [exec, execLogrd, prologue_of_not_fatal hFatal, dif_pos rfl, ensureTables_of_tablesOk hTables, raise_eq_errored,
    Status.code]

theorem exec_logrd_of_ne {a : Byte} (ha : a ≠ 0#8) :
    exec (.logrd a) s = .next (answered (logOf builtTables a ha) (built s)) := by
  rw [exec, execLogrd, prologue_of_not_fatal hFatal, dif_neg ha, tablesNow_of_tablesOk hTables,
    ensureTables_of_tablesOk hTables, done_eq_answered]

theorem exec_alogrd_of_le {i : Nat} (hi : 255 ≤ i) : exec (.alogrd i) s = .next (errored 0x04#8 (built s)) := by
  rw [exec, execAlogrd, prologue_of_not_fatal hFatal, dif_neg (Nat.not_lt.mpr hi), ensureTables_of_tablesOk hTables,
    raise_eq_errored, Status.code]

theorem exec_alogrd_of_lt {i : Nat} (hi : i < 255) :
    exec (.alogrd i) s = .next (answered (powerOfX i) (built s)) := by
  rw [exec, execAlogrd, prologue_of_not_fatal hFatal, dif_pos hi, ensureTables_of_tablesOk hTables, done_eq_answered]
  simp only [tablesNow_of_tablesOk hTables, getElem_alog_builtTables]

end Exec

/-! ## The table entries (R84 to R86, R89) -/

theorem alog_getElem?_of_lt {i : Nat} (hi : i < 255) : builtTables.alog[i]? = some (powerOfX i) := by
  rw [Vector.getElem?_eq_getElem hi, getElem_alog_builtTables i hi]

theorem alog_getElem?_mod (t : Tables) (i : Nat) : t.alog[i % 255]? = some (alogMod t i) :=
  Vector.getElem?_eq_getElem (Nat.mod_lt i (by decide))

@[simp] theorem zero_gfdiv (t : Tables) {b : Byte} (hb : b ≠ 0#8) : gfdiv t 0#8 b hb = 0#8 := dif_pos rfl

theorem gfdiv_of_ne (t : Tables) {a b : Byte} (ha : a ≠ 0#8) (hb : b ≠ 0#8) :
    gfdiv t a b hb = alogMod t ((logOf t a ha).toNat + 255 - (logOf t b hb).toNat) := dif_neg ha

/-- R89: the index of R85 computed on exact integers is the model's, because a byte is at most 255. -/
theorem quotientIndex_eq (l m : Byte) :
    ((l.toNat + 255 - m.toNat) % 255 : Nat) = (l.toNat - m.toNat + 255 : Int) % 255 := by
  have := m.isLt
  omega

/-! ## The obligations -/

/-- Settles O13: no table is read, so the answer needs `FATAL = 0` alone. -/
theorem gfaddAnswersXor : Obligations.GfaddAnswersXor := fun a b _ =>
  ⟨decode_word_of_row_AB (make := .gfadd) a b (by simp [opcodeTable]), fun hFatal => exec_gfadd hFatal a b⟩

/-- Settles O14: as for `GFADD`. -/
theorem gfsubAnswersXor : Obligations.GfsubAnswersXor := fun a b _ =>
  ⟨decode_word_of_row_AB (make := .gfsub) a b (by simp [opcodeTable]), fun hFatal => exec_gfsub hFatal a b⟩

/-- Settles O15: the answer is `gfmul` over the built tables, 0 with a zero operand and an `ALOG` entry without. -/
theorem gfmulAnswersTheTableProduct : Obligations.GfmulAnswersTheTableProduct := by
  intro a b s
  refine ⟨decode_word_of_row_AB (make := .gfmul) a b (by simp [opcodeTable]), fun hFatal hTables =>
    ⟨gfmul builtTables a b, exec_gfmul hFatal hTables a b, ?zeroOperand, fun ha hb => ?product⟩⟩
  case zeroOperand =>
    rintro (rfl | rfl)
    · exact zero_gfmul _ b
    · exact gfmul_zero _ a
  case product => rw [gfmul_of_ne _ ha hb, alog_getElem?_mod]

/-- Settles O16: the zero divisor is tested first; the quotient's index on natural numbers is the one on integers. -/
theorem gfdivAnswersTheQuotient : Obligations.GfdivAnswersTheQuotient := by
  intro a b s
  refine ⟨decode_word_of_row_AB (make := .gfdiv) a b (by simp [opcodeTable]), fun hFatal hTables =>
    ⟨?zeroDivisor, fun hb =>
      ⟨gfdiv builtTables a b hb, exec_gfdiv_of_ne hFatal hTables a hb, ?zeroDividend, fun ha => ?quotient⟩⟩⟩
  case zeroDivisor =>
    rintro rfl
    exact exec_gfdiv_zero hFatal hTables a
  case zeroDividend =>
    rintro rfl
    exact zero_gfdiv _ hb
  case quotient =>
    refine ⟨_, quotientIndex_eq (logOf builtTables a ha) (logOf builtTables b hb), ?_⟩
    rw [gfdiv_of_ne _ ha hb, alog_getElem?_mod]

/-- Settles O17: `LOG[a]` is below 255, and `ALOG` holds a there (R21). -/
theorem logrdAnswersTheLogarithm : Obligations.LogrdAnswersTheLogarithm := by
  intro a s
  refine ⟨decode_word_of_row_A (make := .logrd) a (by simp [opcodeTable]), fun hFatal hTables => ⟨?zero, fun ha =>
    ⟨logOf builtTables a ha, exec_logrd_of_ne hFatal hTables ha, logOf_lt ha, ?entry⟩⟩⟩
  case zero =>
    rintro rfl
    exact exec_logrd_zero hFatal hTables
  case entry => rw [alog_getElem?_of_lt (logOf_lt ha), powerOfX_logOf]

/-- Settles O18: 255 is the one byte beyond the table, and the entries, powers of x, are never 0. -/
theorem alogrdAnswersTheEntry : Obligations.AlogrdAnswersTheEntry := by
  intro i s
  refine ⟨decode_word_of_row_A (make := fun e => .alogrd e.toNat) i (by simp [opcodeTable]), fun hFatal hTables =>
    ⟨?beyond, fun hi => ?entry⟩⟩
  case beyond =>
    rintro rfl
    exact exec_alogrd_of_le hFatal hTables (by decide)
  case entry =>
    have hlt : i.toNat < 255 := by bv_omega
    exact ⟨powerOfX i.toNat, exec_alogrd_of_lt hFatal hTables hlt, powerOfX_ne_zero _, alog_getElem?_of_lt hlt⟩

end Sys2Proof.Proofs
end

section
/-!
PROOF. The Matrix Builder family (`41_matrix_builder.md`): `matinv` is the inverse, `build_gm` exists for every legal
(n, k) and has the identity on top, and what `CREATE`, `DESTROY` and `GMRD` answer.
-/

namespace Sys2Proof.Proofs
open Sys2Proof.Machine Sys2Proof.Claims Sys2Proof.Laws

/-! ## Inversion (R103) -/

theorem matmul_eq_identity_iff {t : Tables} {K : Type} [Field K] {φ : Byte → K} (h : ReadsAsField t K φ) {k : Nat}
    (A B : Mat k k) : matmul t A B = identity k ↔ readMat φ A * readMat φ B = 1 := by
  rw [← h.readMat_matmul, ← h.readMat_identity]
  exact ⟨fun e => e ▸ rfl, h.readMat_injective⟩

/-- Over a field a one-sided inverse is two-sided and unique, and a matrix that has one has non-zero determinant, so the
elimination finds it. -/
theorem matinv_eq_some_iff {k : Nat} {M X : Mat k k} :
    matinv builtTables M = some X ↔
      matmul builtTables M X = identity k ∧ matmul builtTables X M = identity k := by
  obtain ⟨K, _, φ, h⟩ := exists_field
  rw [matmul_eq_identity_iff h, matmul_eq_identity_iff h]
  constructor
  · intro hInv
    have hLeft := h.mul_of_matinv_eq_some hInv
    exact ⟨mul_eq_one_comm.mp hLeft, hLeft⟩
  · rintro ⟨hRight, -⟩
    obtain ⟨Y, hY⟩ := h.exists_matinv_of_det_ne_zero (Matrix.det_ne_zero_of_right_inverse hRight)
    have hEq : Y = X := h.readMat_injective (left_inv_eq_right_inv (h.mul_of_matinv_eq_some hY) hRight)
    rw [hY, hEq]

/-! ## The generator matrix (R101, R106) -/

/-- Distinct rows of V have distinct row elements, so k of them are invertible. -/
theorem exists_matinv_vandermonde_rows {n k : Nat} (hn : n ≤ 255) {rows : Fin k → Fin n}
    (hRows : Function.Injective rows) :
    ∃ X, matinv builtTables (matrixOf fun i j => entry (vandermonde builtTables Config.elem n k) (rows i) j) =
      some X := by
  obtain ⟨K, _, φ, h⟩ := exists_field
  have hElem : Function.Injective fun i => φ (Config.elem (rows i).val) := fun i j e =>
    hRows (Fin.ext (elem_injective (by omega) (by omega) (h.injective e)))
  have hRead : readMat φ (matrixOf fun i j => entry (vandermonde builtTables Config.elem n k) (rows i) j) =
      Matrix.of fun i j => φ (Config.elem (rows i).val) ^ j.val := by
    ext i j
    simp [vandermonde, h.map_gfpow]
  exact h.exists_matinv_of_det_ne_zero (hRead ▸ det_vandermonde_rows_ne_zero _ hElem)

theorem exists_buildGm {n k : Nat} (hkn : k ≤ n) (hn : n ≤ 255) :
    ∃ G, buildGm builtTables Config.elem n k hkn = some G := by
  obtain ⟨Ti, hTi⟩ := exists_matinv_vandermonde_rows hn (Fin.castLE_injective hkn)
  exact ⟨_, Option.map_eq_some_iff.mpr ⟨Ti, hTi, rfl⟩⟩

@[simp] theorem entry_topRows {n k : Nat} (hkn : k ≤ n) (V : Mat n k) (i j : Fin k) :
    entry (topRows hkn V) i j = entry V (Fin.castLE hkn i) j := entry_matrixOf _ i j

theorem topRows_matmul (t : Tables) {n k : Nat} (hkn : k ≤ n) (V : Mat n k) (B : Mat k k) :
    topRows hkn (matmul t V B) = matmul t (topRows hkn V) B :=
  matrix_ext fun i j => by simp [matmul]

/-- The systematic property: the top block of V times its own inverse. -/
theorem topRows_buildGm {n k : Nat} {hkn : k ≤ n} {elem : Nat → Byte} {G : Mat n k}
    (hG : buildGm builtTables elem n k hkn = some G) : topRows hkn G = identity k := by
  obtain ⟨Ti, hTi, rfl⟩ := Option.map_eq_some_iff.mp hG
  rw [topRows_matmul]
  exact (matinv_eq_some_iff.mp hTi).1

theorem entry_identity {k : Nat} (i j : Fin k) : entry (identity k) i j = if i = j then 0x01#8 else 0x00#8 :=
  entry_matrixOf _ i j

/-- R17 for a descriptor that `CREATE` built. -/
theorem entry_gm_of_descOk {s : State} (hDesc : s.DescOk) {d : Descriptor} (hd : s.desc = some d)
    {i : Fin d.n.toNat} (hi : i.val < d.k.toNat) (j : Fin d.k.toNat) :
    entry d.gm i j = if i.val = j.val then 0x01#8 else 0x00#8 := by
  obtain ⟨-, -, hkn, hG⟩ := hDesc d hd
  calc entry d.gm i j
      = entry (topRows hkn d.gm) ⟨i, hi⟩ j := (entry_topRows hkn d.gm ⟨i, hi⟩ j).symm
    _ = if (⟨i, hi⟩ : Fin d.k.toNat) = j then 0x01#8 else 0x00#8 := by rw [topRows_buildGm hG, entry_identity]
    _ = if i.val = j.val then 0x01#8 else 0x00#8 := by simp only [Fin.ext_iff]

/-! ## What each command answers while `FATAL = 0` (R100, R104, R105) -/

section Exec
variable {s : State} (hFatal : s.fatal = false)
include hFatal

theorem exec_destroy_of_none (hd : s.desc = none) : exec .destroy s = .next (errored 0x11#8 s) := by
  obtain ⟨-, e⟩ := (destroyOwn_cases s).resolve_right fun h => h.1 hd
  rw [exec, execDestroy, prologue_of_not_fatal hFatal, e, raise_eq_errored, Status.code]

theorem exec_destroy_of_ne_none (hd : s.desc ≠ none) :
    exec .destroy s = .next (answered 0x00#8 { s with desc := none }) := by
  obtain ⟨-, e⟩ := (destroyOwn_cases s).resolve_left fun h => hd h.1
  rw [exec, execDestroy, prologue_of_not_fatal hFatal, e, done_eq_answered]

theorem exec_gmrd_of_none (hd : s.desc = none) (row col : Nat) :
    exec (.gmrd row col) s = .next (errored 0x11#8 s) := by
  rw [exec, execGmrd, prologue_of_not_fatal hFatal, gmrdOwn, hd, raise_eq_errored, Status.code]

theorem exec_gmrd_of_outside {d : Descriptor} (hd : s.desc = some d) {row col : Nat}
    (h : ¬ (row < d.n.toNat ∧ col < d.k.toNat)) : exec (.gmrd row col) s = .next (errored 0x04#8 s) := by
  simp only [exec, execGmrd, prologue_of_not_fatal hFatal, gmrdOwn, hd, dif_neg h, raise_eq_errored, Status.code]

theorem exec_gmrd_of_inside {d : Descriptor} (hd : s.desc = some d) {row col : Nat}
    (hr : row < d.n.toNat) (hc : col < d.k.toNat) :
    exec (.gmrd row col) s = .next (answered (entry d.gm ⟨row, hr⟩ ⟨col, hc⟩) s) := by
  simp only [exec, execGmrd, prologue_of_not_fatal hFatal, gmrdOwn, hd, dif_pos (And.intro hr hc), done_eq_answered]

variable (hTables : s.TablesOk)
include hTables

theorem exec_create_of_busy (hd : s.desc ≠ none) (n k : Nat) :
    exec (.create n k) s = .next (errored 0x12#8 (built s)) := by
  obtain ⟨-, e⟩ := (createOwn_cases n k s).resolve_right (by simp [hd])
  rw [exec, execCreate, prologue_of_not_fatal hFatal, e, ensureTables_of_tablesOk hTables, raise_eq_errored,
    Status.code]

theorem exec_create_of_illegal (hd : s.desc = none) {n k : Nat} (h : ¬ (2 ≤ k ∧ k ≤ n ∧ n ≤ 255)) :
    exec (.create n k) s = .next (errored 0x01#8 (built s)) := by
  simp only [exec, execCreate, prologue_of_not_fatal hFatal, createOwn, hd, dif_neg h,
    ensureTables_of_tablesOk hTables, raise_eq_errored, Status.code]

/-- The operands' bytes are the descriptor's `N` and `K`. -/
theorem exec_create_of_buildGm (hd : s.desc = none) {n k : Byte} (hk : 2 ≤ k.toNat) {hkn : k.toNat ≤ n.toNat}
    {G : Mat n.toNat k.toNat} (hG : buildGm builtTables Config.elem n.toNat k.toNat hkn = some G) :
    exec (.create n.toNat k.toNat) s =
      .next (answered 0x00#8 { built s with desc := some { n := n, k := k, gm := G } }) := by
  have hLegal : 2 ≤ k.toNat ∧ k.toNat ≤ n.toNat ∧ n.toNat ≤ 255 := ⟨hk, hkn, Nat.le_of_lt_succ n.isLt⟩
  simp only [exec, execCreate, prologue_of_not_fatal hFatal, createOwn, hd, dif_pos hLegal,
    tablesNow_of_tablesOk hTables, ensureTables_of_tablesOk hTables, hG, done_eq_answered]
  rfl

end Exec

/-! ## The obligations -/

/-- Settles O25: `singular` is what is left when no X meets the first half. -/
theorem matinvIsTheInverse : Obligations.MatinvIsTheInverse := by
  refine fun k M => ⟨fun X => matinv_eq_some_iff, ?_⟩
  rw [Option.eq_none_iff_forall_ne_some, ← not_exists]
  exact not_congr (exists_congr fun X => matinv_eq_some_iff)

/-- Settles O22: the operand bytes bound n by 255, where the row elements are distinct, so `build_gm` exists. -/
theorem createBuildsTheDescriptor : Obligations.CreateBuildsTheDescriptor := by
  intro n k s
  have hn : n.toNat ≤ 255 := Nat.le_of_lt_succ n.isLt
  refine ⟨decode_word_of_row_AB (make := fun n k => .create n.toNat k.toNat) n k (by simp [opcodeTable]),
    fun hFatal hTables => ⟨fun hd => exec_create_of_busy hFatal hTables hd _ _, fun hd hIllegal => ?illegal,
      fun hd hk hkn => ?legal⟩⟩
  case illegal => exact exec_create_of_illegal hFatal hTables hd fun h => hIllegal ⟨h.1, h.2.1⟩
  case legal =>
    obtain ⟨G, hG⟩ := exists_buildGm hkn hn
    exact ⟨G, hG, exec_create_of_buildGm hFatal hTables hd hk hG⟩

/-- Settles O28: the entry is read from `GM`, whose top rows are the identity. -/
theorem gmrdAnswersTheEntry : Obligations.GmrdAnswersTheEntry := by
  intro row col s
  refine ⟨decode_word_of_row_AB (make := fun row col => .gmrd row.toNat col.toNat) row col (by simp [opcodeTable]),
    fun hFatal => ⟨fun hd => exec_gmrd_of_none hFatal hd _ _, fun d hd =>
      ⟨fun hOutside => exec_gmrd_of_outside hFatal hd (by omega), fun hr hc =>
        ⟨exec_gmrd_of_inside hFatal hd hr hc, fun hDesc hrk => ?systematic⟩⟩⟩⟩
  case systematic =>
    simpa only [BitVec.toNat_inj] using entry_gm_of_descOk hDesc hd (i := ⟨row.toNat, hr⟩) hrk ⟨col.toNat, hc⟩

/-- Settles O27: the two cases of `DESTROY`'s own rule. -/
theorem destroyReleasesTheDescriptor : Obligations.DestroyReleasesTheDescriptor :=
  ⟨decode_word_of_row (row := ⟨0x11#8, .Z, fun _ => .destroy⟩) (by simp [opcodeTable]) 0#8 0#8 (wordAB_and_Z _),
    fun _ hFatal => ⟨exec_destroy_of_none hFatal, exec_destroy_of_ne_none hFatal⟩⟩

end Sys2Proof.Proofs
end

section
/-!
PROOF. The operand set-up family (`42_operand_setup.md`): `SETBLEN`, `EMSET` and `EMVAL` write the one entry their
position names, and 255, the one byte that names no entry, raises `InvalidIndex`.
-/

namespace Sys2Proof.Proofs
open Sys2Proof.Machine Sys2Proof.Claims Sys2Proof.Laws

/-! ## The words (R61 to R63) -/

/-- The statements' layout of a word is the encoder's, so the laws of the encoder's words speak of it. -/
theorem wordLen_eq_wordAI (op a : Byte) (imm : Len) : wordLen op a imm = wordAI op a imm := rfl

/-- A row of format AI, which reserves no bit, reads back both operand fields of its own words. -/
theorem decode_wordLen_of_row_AI {op : Byte} {make : Byte → Len → Instr} (a : Byte) (imm : Len)
    (hMem : ⟨op, .AI, fun cw => make (aField cw) (imm16Field cw)⟩ ∈ opcodeTable) :
    decode (wordLen op a imm) = .command (make a imm) := by
  rw [wordLen_eq_wordAI, decode_of_row (find_of_mem hMem (opField_wordAI op a imm).symm), if_pos (and_AI _)]
  simp only [aField_wordAI, imm16Field_wordAI]

/-! ## Positions (R122) -/

theorem position_lt_iff (pos : Byte) : pos.toNat < 255 ↔ pos ≠ 0xFF#8 := by bv_omega

/-- Entry i after one write to a file, in the order of the statements' equality test. -/
theorem getElem?_set_position {α : Type} (file : Vector α 255) {pos : Nat} (hPos : pos < 255) (x : α) (i : Nat) :
    (file.set pos x)[i]? = if i = pos then some x else file[i]? := by
  rw [Vector.getElem?_set hPos, if_congr eq_comm rfl rfl]

/-! ## What each command answers while `FATAL = 0` (R122, R127, R128) -/

theorem setErased_of_lt {pos : Nat} (hPos : pos < 255) (e : Bool) (s : State) :
    setErased pos e s = answered 0x00#8 { s with emap := s.emap.set pos e } := by
  rw [setErased, dif_pos hPos, done_eq_answered]

theorem setErased_of_not_lt {pos : Nat} (hPos : ¬ pos < 255) (e : Bool) (s : State) :
    setErased pos e s = errored 0x04#8 s := by
  rw [setErased, dif_neg hPos, raise_eq_errored, Status.code]

section Exec
variable {s : State} (hFatal : s.fatal = false)
include hFatal

theorem exec_setblen_of_lt {pos : Nat} (hPos : pos < 255) (len : Len) :
    exec (.setblen pos len.toNat) s = .next (answered 0x00#8 { s with blen := s.blen.set pos len }) := by
  rw [exec, execSetblen, prologue_of_not_fatal hFatal, dif_pos hPos, done_eq_answered, BitVec.ofNat_toNat,
    BitVec.setWidth_eq]

theorem exec_setblen_of_not_lt {pos : Nat} (hPos : ¬ pos < 255) (len : Nat) :
    exec (.setblen pos len) s = .next (errored 0x04#8 s) := by
  rw [exec, execSetblen, prologue_of_not_fatal hFatal, dif_neg hPos, raise_eq_errored, Status.code]

theorem exec_emset (pos : Nat) : exec (.emset pos) s = .next (setErased pos true s) := by
  rw [exec, execEmset, prologue_of_not_fatal hFatal]

theorem exec_emval (pos : Nat) : exec (.emval pos) s = .next (setErased pos false s) := by
  rw [exec, execEmval, prologue_of_not_fatal hFatal]

end Exec

/-! ## The obligations -/

/-- Settles O30: the own rule tests the position alone, so neither N nor the descriptor matters. -/
theorem setblenWritesOneEntry : Obligations.SetblenWritesOneEntry := by
  intro pos len s
  refine ⟨decode_wordLen_of_row_AI (make := fun pos len => .setblen pos.toNat len.toNat) pos len
    (by simp [opcodeTable]), fun hFatal => ⟨?beyond, fun hPos => ?entry⟩⟩
  case beyond =>
    rintro rfl
    exact exec_setblen_of_not_lt hFatal (by decide) _
  case entry =>
    have hLt := (position_lt_iff pos).mpr hPos
    exact ⟨_, exec_setblen_of_lt hFatal hLt len, rfl, fun i _ => getElem?_set_position s.blen hLt len i⟩

/-- Settles O31: both commands are `setErased`, with the two values of the mark. -/
theorem emsetAndEmvalWriteOnePosition : Obligations.EmsetAndEmvalWriteOnePosition := by
  intro pos s
  refine ⟨⟨decode_word_of_row_A (make := fun pos => .emset pos.toNat) pos (by simp [opcodeTable]),
    decode_word_of_row_A (make := fun pos => .emval pos.toNat) pos (by simp [opcodeTable])⟩, fun hFatal => ?_⟩
  rw [exec_emset hFatal, exec_emval hFatal]
  refine ⟨?beyond, fun hPos => ?position⟩
  case beyond =>
    rintro rfl
    have hNot : ¬ (0xFF#8).toNat < 255 := by decide
    rw [setErased_of_not_lt hNot, setErased_of_not_lt hNot]
    exact ⟨rfl, rfl⟩
  case position =>
    have hLt := (position_lt_iff pos).mpr hPos
    rw [setErased_of_lt hLt, setErased_of_lt hLt]
    exact ⟨_, _, rfl, rfl, rfl, rfl, fun i _ => getElem?_set_position s.emap hLt true i,
      fun i _ => getElem?_set_position s.emap hLt false i⟩

end Sys2Proof.Proofs
end

section
/-!
PROOF. The encoder family (`43_encoder.md`): the tests of `ENCODE` in the order of R141. The statement writes row 3 over
position numbers and rows 4 and 5 as inequalities on `L`; the model tests the block lengths and two regions.
-/

namespace Sys2Proof.Proofs
open Sys2Proof.Machine Sys2Proof.Claims Sys2Proof.Laws

/-! ## The tests of `ENCODE` in the statements' words (R141 rows 3 to 5) -/

theorem sourceLengthsAgree_iff {d : Descriptor} {s : State} :
    sourceLengthsAgree d s = true ↔ LengthsAgree s (List.range d.k.toNat) := by
  rw [sourceLengthsAgree_eq_true]
  constructor
  · intro h i hi
    rw [blen_getElem? s ⟨i, List.mem_range.mp hi⟩, h]
  · intro h j
    exact Option.some.inj ((blen_getElem? s j).symm.trans (h j (List.mem_range.mpr j.isLt)))

section Regions
variable {d : Descriptor} (s : State) (hk : 0 < d.k.toNat)
include hk

/-- With a source block the source region is empty only at `L = 0`, which empties the output region too (R52). -/
theorem encInRange_iff :
    ((regionSources d s).inRange Config.memBytes = true ∧ (regionOut s).inRange Config.memBytes = true) ↔
      EncInRange s d := by
  rw [inRange_eq_true, inRange_eq_true, regionSources_length, regionOut_length, regionSources_start, regionOut_start,
    Nat.mul_eq_zero, or_iff_right hk.ne', ← or_and_left, EncInRange]

/-- With a source block both regions are non-empty exactly when `L > 0` (R53). -/
theorem encOverlap_iff : (regionSources d s).overlaps (regionOut s) = true ↔ EncOverlap s d := by
  rw [overlaps_eq_true, regionSources_length, regionOut_length, regionSources_start, regionOut_start,
    Nat.mul_pos_iff_of_pos_left hk, EncOverlap]
  tauto

end Regions

/-! ## What `ENCODE` answers while `FATAL = 0` (R141) -/

section Exec
variable {s : State} (hFatal : s.fatal = false)
include hFatal

theorem exec_encodeBlock (p : Nat) : exec (.encodeBlock p) s = .next (encodeOwn p s) := by
  rw [exec, execEncode, prologue_of_not_fatal hFatal]

theorem exec_encodeBlock_of_none (hd : s.desc = none) (p : Nat) :
    exec (.encodeBlock p) s = .next (errored 0x11#8 s) := by
  rw [exec_encodeBlock hFatal, encodeOwn, hd, raise_eq_errored, Status.code]

variable {d : Descriptor} (hd : s.desc = some d) {p : Nat}
include hd

theorem exec_encodeBlock_of_outside (hp : ¬ (d.k.toNat ≤ p ∧ p < d.n.toNat)) :
    exec (.encodeBlock p) s = .next (errored 0x04#8 s) := by
  simp only [exec_encodeBlock hFatal, encodeOwn, hd, dif_neg hp, raise_eq_errored, Status.code]

variable (hp : d.k.toNat ≤ p ∧ p < d.n.toNat)
include hp

theorem exec_encodeBlock_of_lengthsDiffer (hLengths : ¬ LengthsAgree s (List.range d.k.toNat)) :
    exec (.encodeBlock p) s = .next (errored 0x02#8 s) := by
  simp only [exec_encodeBlock hFatal, encodeOwn, hd, dif_pos hp, if_pos (mt sourceLengthsAgree_iff.mp hLengths),
    raise_eq_errored, Status.code]

variable (hLengths : LengthsAgree s (List.range d.k.toNat)) (hk : 0 < d.k.toNat)
include hLengths hk

theorem exec_encodeBlock_of_beyondMemory (hRange : ¬ EncInRange s d) :
    exec (.encodeBlock p) s = .next (errored 0x13#8 s) := by
  simp only [exec_encodeBlock hFatal, encodeOwn, hd, dif_pos hp,
    if_neg (not_not.mpr (sourceLengthsAgree_iff.mpr hLengths)), if_pos (mt (encInRange_iff s hk).mp hRange),
    raise_eq_errored, Status.code]

theorem exec_encodeBlock_of_overlap (hRange : EncInRange s d) (hOverlap : EncOverlap s d) :
    exec (.encodeBlock p) s = .next (errored 0x14#8 s) := by
  simp only [exec_encodeBlock hFatal, encodeOwn, hd, dif_pos hp,
    if_neg (not_not.mpr (sourceLengthsAgree_iff.mpr hLengths)),
    if_neg (not_not.mpr ((encInRange_iff s hk).mpr hRange)), if_pos ((encOverlap_iff s hk).mpr hOverlap),
    raise_eq_errored, Status.code]

end Exec

/-! ## The obligation -/

/-- Settles O33: each row of R141 is the model's own test, reached when the tests of the rows before it passed; `K ≥ 2`
makes the model's region tests those of rows 4 and 5. -/
theorem encodeErrorsInOrder : Obligations.EncodeErrorsInOrder := by
  intro p s hFatal hSized
  refine ⟨fun hd => exec_encodeBlock_of_none hFatal hd p, fun d hd => ⟨?index, fun hLow hHigh => ⟨?lengths, ?regions⟩⟩⟩
  case index =>
    intro hOutside
    exact exec_encodeBlock_of_outside hFatal hd (by omega)
  case lengths => exact exec_encodeBlock_of_lengthsDiffer hFatal hd ⟨hLow, hHigh⟩
  case regions =>
    intro hLengths
    have hk : 0 < d.k.toNat := Nat.zero_lt_two.trans_le (hSized d hd).1
    exact ⟨exec_encodeBlock_of_beyondMemory hFatal hd ⟨hLow, hHigh⟩ hLengths hk,
      exec_encodeBlock_of_overlap hFatal hd ⟨hLow, hHigh⟩ hLengths hk⟩

end Sys2Proof.Proofs
end

section
/-!
PROOF. The decoder family (`44_decoder.md`): the tests of `DECINL` and `DECAPP` in the order of R157. The statement
writes rows 2 and 3 over position numbers and rows 4 and 5 as inequalities on `L`; the model tests files indexed by
position and a list of regions. One ladder of tests serves both commands, which differ in their regions alone.
-/

namespace Sys2Proof.Proofs
open Sys2Proof.Machine Sys2Proof.Claims Sys2Proof.Laws

/-! ## Erased and valid positions by their number (R153) -/

theorem mem_valid {s : State} {lo hi i : Nat} :
    i ∈ valid s lo hi ↔ i < hi ∧ lo ≤ i ∧ s.emap[i]? = some false := by simp [valid]

theorem map_val_erasedSources (d : Descriptor) (s : State) :
    (erasedSources d s).map Fin.val = erased s 0 d.k.toNat :=
  map_val_filter_finRange _ _ fun j => by simp [emap_getElem? s j]

theorem map_val_survivingParity (d : Descriptor) (s : State) :
    (survivingParity d s).map Fin.val = valid s d.k.toNat d.n.toNat :=
  map_val_filter_finRange _ _ fun p => by simp [emap_getElem? s p]

theorem length_erasedSources (d : Descriptor) (s : State) :
    (erasedSources d s).length = (erased s 0 d.k.toNat).length := by
  rw [← map_val_erasedSources, List.length_map]

theorem length_survivingParity (d : Descriptor) (s : State) :
    (survivingParity d s).length = (valid s d.k.toNat d.n.toNat).length := by
  rw [← map_val_survivingParity, List.length_map]

theorem erasedSources_eq_nil_iff {d : Descriptor} {s : State} :
    erasedSources d s = [] ↔ erased s 0 d.k.toNat = [] := by
  rw [← map_val_erasedSources, List.map_eq_nil_iff]

/-! ## The tests of a decode in the statements' words (R157 rows 2 to 5) -/

theorem validLengthsAgree_iff {d : Descriptor} {s : State} :
    validLengthsAgree d s = true ↔ LengthsAgree s (valid s 0 d.n.toNat) := by
  rw [validLengthsAgree_eq_true]
  constructor
  · intro h i hi
    obtain ⟨hin, -, hValid⟩ := mem_valid.mp hi
    rw [emap_getElem? s ⟨i, hin⟩] at hValid
    rw [blen_getElem? s ⟨i, hin⟩, h _ (Option.some.inj hValid)]
  · intro h i hValid
    have hMem : i.val ∈ valid s 0 d.n.toNat :=
      mem_valid.mpr ⟨i.isLt, Nat.zero_le _, by rw [emap_getElem?, hValid]⟩
    exact Option.some.inj ((blen_getElem? s i).symm.trans (h i hMem))

theorem unrecoverable_iff {d : Descriptor} {s : State} :
    unrecoverable d s = true ↔ d.n.toNat - d.k.toNat < (erased s 0 d.k.toNat).length ∨
      (valid s d.k.toNat d.n.toNat).length < (erased s 0 d.k.toNat).length := by
  rw [unrecoverable, Bool.or_eq_true, decide_eq_true_iff, decide_eq_true_iff, length_erasedSources,
    length_survivingParity]

section Regions
variable {d : Descriptor} (s : State)

/-- With a block in the region it is empty only at `L = 0` (R52). -/
theorem inlInRange_iff (hn : 0 < d.n.toNat) :
    (regionInl d s).inRange Config.memBytes = true ↔ InlInRange s d := by
  rw [inRange_eq_true, regionInl_length, regionInl_start, Nat.mul_eq_zero, or_iff_right hn.ne', InlInRange]

variable (hk : 0 < d.k.toNat)
include hk

/-- With a source block both regions are non-empty exactly when `L > 0` and `K < N` (R53). -/
theorem appOverlap_iff : (regionSources d s).overlaps (regionParity d s) = true ↔ AppOverlap s d := by
  rw [overlaps_eq_true, regionSources_length, regionParity_length, regionSources_start, regionParity_start,
    Nat.mul_pos_iff_of_pos_left hk, CanonicallyOrderedAdd.mul_pos, Nat.sub_pos_iff_lt, AppOverlap]
  tauto

/-- With a source block the source region is empty only at `L = 0`, which empties the parity region too; that one is
empty at `N = K` as well (R52). -/
theorem appInRange_iff (hkn : d.k.toNat ≤ d.n.toNat) :
    ((regionSources d s).inRange Config.memBytes = true ∧ (regionParity d s).inRange Config.memBytes = true) ↔
      AppInRange s d := by
  have hParity : d.n.toNat - d.k.toNat = 0 ↔ d.n.toNat = d.k.toNat := by omega
  rw [inRange_eq_true, inRange_eq_true, regionSources_length, regionParity_length, regionSources_start,
    regionParity_start, Nat.mul_eq_zero, Nat.mul_eq_zero, or_iff_right hk.ne', hParity, AppInRange]
  tauto

end Regions

/-! ## What a decode answers, test by test (R157) -/

section Ladder
variable {addr : Descriptor → State → Nat → Nat} {regions : Descriptor → State → List Region} {s : State}

theorem decodeOwn_of_none (hd : s.desc = none) : decodeOwn addr regions s = errored 0x11#8 s := by
  rw [decodeOwn, hd, raise_eq_errored, Status.code]

variable {d : Descriptor}

theorem decodeOwn_of_lengthsDiffer (hd : s.desc = some d) (hLengths : ¬ LengthsAgree s (valid s 0 d.n.toNat)) :
    decodeOwn addr regions s = errored 0x03#8 s := by
  simp only [decodeOwn, hd, if_pos (mt validLengthsAgree_iff.mp hLengths), raise_eq_errored, Status.code]

theorem decodeOwn_of_unrecoverable (hd : s.desc = some d) (hLengths : LengthsAgree s (valid s 0 d.n.toNat))
    (hLost : unrecoverable d s = true) : decodeOwn addr regions s = errored 0x05#8 s := by
  simp only [decodeOwn, hd, if_neg (not_not.mpr (validLengthsAgree_iff.mpr hLengths)), if_pos hLost,
    raise_eq_errored, Status.code]

/-- On a decodable state only the tests of R157 rows 4 and 5 stand before the reconstruction. -/
theorem decodeOwn_of_decodable (hDecodable : Decodable s d) :
    decodeOwn addr regions s =
      if ¬ (regions d s).all (Region.inRange Config.memBytes) then errored 0x13#8 s
      else if someOverlap (regions d s) then errored 0x14#8 s
      else reconstructOwn d (addr d s) s := by
  obtain ⟨hd, hLengths, hSurvive⟩ := hDecodable
  have hRecoverable : unrecoverable d s = false := by
    rwa [unrecoverable_eq_false, length_erasedSources, length_survivingParity]
  simp only [decodeOwn, hd, if_neg (not_not.mpr (validLengthsAgree_iff.mpr hLengths)), hRecoverable,
    Bool.false_eq_true, if_false, raise_eq_errored, Status.code]

end Ladder

theorem reconstructOwn_of_singular {d : Descriptor} {s : State} (addr : Nat → Nat)
    (hErased : erased s 0 d.k.toNat ≠ []) (hSingular : matinv s.tablesNow (decodingMatrix d s) = none) :
    reconstructOwn d addr s = errored 0x06#8 { s with fatal := true } := by
  rw [reconstructOwn, if_neg (mt erasedSources_eq_nil_iff.mp hErased), hSingular, raiseSingular, raise_eq_errored,
    Status.code]

/-- A command that decodes with regions tested by `inRange` and `overlap` has the errors of R157 in their order. -/
theorem decodeErrors_of_decodeOwn {i : Instr} {addr : Descriptor → State → Nat → Nat}
    {regions : Descriptor → State → List Region} {inRange overlap : State → Descriptor → Prop}
    (hExec : ∀ s, s.fatal = false → exec i s = .next (decodeOwn addr regions s))
    (hRange : ∀ s d, 2 ≤ d.k.toNat → d.k.toNat ≤ d.n.toNat →
      ((regions d s).all (Region.inRange Config.memBytes) = true ↔ inRange s d))
    (hOverlap : ∀ s d, 2 ≤ d.k.toNat → (someOverlap (regions d s) = true ↔ overlap s d)) :
    DecodeErrors i inRange overlap := by
  intro s hFatal hSized
  rw [hExec s hFatal]
  refine ⟨fun hd => congrArg _ (decodeOwn_of_none hd), fun d hd => ?_⟩
  obtain ⟨hk, hkn⟩ := hSized d hd
  replace hRange := hRange s d hk hkn
  replace hOverlap := hOverlap s d hk
  refine ⟨fun hLengths => congrArg _ (decodeOwn_of_lengthsDiffer hd hLengths),
    fun hLengths hLost => congrArg _ (decodeOwn_of_unrecoverable hd hLengths (unrecoverable_iff.mpr hLost)),
    fun hDecodable hOut => congrArg _ ?range, fun hDecodable hIn hMeet => congrArg _ ?overlap,
    fun hDecodable hIn hApart hErased hSingular => congrArg _ ?singular⟩
  case range => rw [decodeOwn_of_decodable hDecodable, if_pos (mt hRange.mp hOut)]
  case overlap =>
    rw [decodeOwn_of_decodable hDecodable, if_neg (not_not.mpr (hRange.mpr hIn)), if_pos (hOverlap.mpr hMeet)]
  case singular =>
    rw [decodeOwn_of_decodable hDecodable, if_neg (not_not.mpr (hRange.mpr hIn)), if_neg (mt hOverlap.mp hApart),
      reconstructOwn_of_singular _ hErased hSingular]

/-! ## The two commands while `FATAL = 0` (R150, R151) -/

section Exec
variable {s : State} (hFatal : s.fatal = false)
include hFatal

theorem exec_decinl :
    exec .decinl s = .next (decodeOwn (fun _ s => addrInl s) (fun d s => [regionInl d s]) s) := by
  rw [exec, execDecinl, prologue_of_not_fatal hFatal]

theorem exec_decapp :
    exec .decapp s =
      .next (decodeOwn (fun d s => addrApp d.k s) (fun d s => [regionSources d s, regionParity d s]) s) := by
  rw [exec, execDecapp, prologue_of_not_fatal hFatal]

end Exec

/-! ## The obligation -/

/-- Settles O40: both commands run one ladder of tests in the order of R157; `2 ≤ K ≤ N` makes the model's region tests
those of rows 4 and 5, and the one region of `DECINL` never overlaps. -/
theorem decodeErrorsInOrder : Obligations.DecodeErrorsInOrder := by
  refine ⟨decodeErrors_of_decodeOwn (fun _ => exec_decinl) (fun s d hk hkn => ?inlRange) (fun s d _ => ?inlOverlap),
    decodeErrors_of_decodeOwn (fun _ => exec_decapp) (fun s d hk hkn => ?appRange) (fun s d hk => ?appOverlap)⟩
  case inlRange => simpa using inlInRange_iff s (by omega)
  case inlOverlap => simp
  case appRange => simpa using appInRange_iff s (by omega) hkn
  case appOverlap => simpa using appOverlap_iff s (by omega)

end Sys2Proof.Proofs
end

section
/-!
PROOF. The exceptions family (`60_exceptions.md`): the order of the common prologue, and what a command that ends with
an error leaves unchanged. An error is raised in the state the command began its own tests in, which differs from the
old one in the tables alone.
-/

namespace Sys2Proof.Proofs
open Sys2Proof.Machine Sys2Proof.Claims Sys2Proof.Laws

/-! ## The common prologue (R171) -/

theorem execute_of_fatal {s : State} (cw : Word) (hFatal : s.fatal = true) :
    execute cw s = .next (errored 0x1F#8 s) := by
  rw [execute, if_pos hFatal, raise_eq_errored, Status.code]

theorem execute_of_command {cw : Word} {i : Instr} {s : State} (hDecode : decode cw = .command i)
    (hFatal : s.fatal = false) : execute cw s = exec i s := by
  simp [execute, hDecode, hFatal]

theorem execute_of_illegal_eq_ite {cw : Word} {why : Illegal} (s : State) (hDecode : decode cw = .illegal why) :
    execute cw s = .next (errored (if s.fatal then 0x1F#8 else 0x10#8) s) := by
  cases hFatal : s.fatal
  · exact execute_of_illegal hDecode hFatal
  · exact execute_of_fatal cw hFatal

/-- Settles O7: the prologue tests `FATAL` before it decodes, and decodes before it runs the command. -/
theorem executeFollowsThePrologue : Obligations.ExecuteFollowsThePrologue := fun cw _ =>
  ⟨execute_of_fatal cw, fun hFatal =>
    ⟨fun _ hDecode => execute_of_illegal hDecode hFatal, fun _ hDecode => execute_of_command hDecode hFatal⟩⟩

/-! ## The state in which an error is raised -/

theorem begun_eq_ite (i : Instr) (s : State) : begun i s = if buildsTables i then ensureTables s else s := by
  cases i <;> rfl

theorem begun_eq (i : Instr) (s : State) : begun i s = { s with tables := (begun i s).tables } := by
  rw [begun_eq_ite]
  split <;> rfl

theorem begun_tables_cases (i : Instr) (s : State) :
    (begun i s).tables = s.tables ∨ (buildsTables i = true ∧ (begun i s).tables = some s.tablesNow) := by
  rw [begun_eq_ite]
  split
  · next hBuilds => exact .inr ⟨hBuilds, rfl⟩
  · exact .inl rfl

/-! ## What an error changes (R172) -/

theorem code_eq_singular_iff {x : Status} : x.code = 0x06#8 ↔ x = .singularMatrix := by
  cases x <;> decide

theorem singularMatrix_notMem_ownErrors (i : Instr) : Status.singularMatrix ∉ ownErrors i := by
  cases i <;> simp [ownErrors]

/-- `FATAL` is left as it is, written in the form R172's exception has for every error. -/
theorem raise_eq_of_ne_singular {x : Status} {s u : State} (hu : u = { s with tables := u.tables })
    (hx : x ≠ .singularMatrix) :
    raise x u = { s with
      status := x.code, result := 0x00#8, fatal := s.fatal || x.code == 0x06#8, tables := u.tables } := by
  rw [beq_false_of_ne (mt code_eq_singular_iff.mp hx), Bool.or_false, hu]
  rfl

theorem raiseSingular_eq {s u : State} (hu : u = { s with tables := u.tables }) :
    raiseSingular u = { s with
      status := 0x06#8, result := 0x00#8, fatal := s.fatal || 0x06#8 == 0x06#8, tables := u.tables } := by
  rw [beq_self_eq_true, Bool.or_true, hu]
  rfl

/-- Settles O48: a command ends with an error as `Halted`, by one of its own tests or at a singular matrix. `Halted` is
raised in the old state and the others in the one the tests began in, and success has `STATUS` 0. -/
theorem errorsChangeNothingElse : Obligations.ErrorsChangeNothingElse := by
  refine ⟨fun i s t hExec hError => ?_, fun cw why s hDecode => execute_of_illegal_eq_ite s hDecode⟩
  rcases exec_cases hExec with ⟨-, rfl⟩ | ⟨-, ⟨x, hx, rfl⟩ | ⟨-, rfl⟩ | ⟨v, u, -, rfl⟩⟩
  · exact ⟨raise_eq_of_ne_singular rfl (by decide), .inl rfl⟩
  · exact ⟨raise_eq_of_ne_singular (begun_eq i s) (ne_of_mem_of_not_mem hx (singularMatrix_notMem_ownErrors i)),
      begun_tables_cases i s⟩
  · exact ⟨raiseSingular_eq (begun_eq i s), begun_tables_cases i s⟩
  · exact absurd (done_status v u) hError

end Sys2Proof.Proofs
end

section
/-!
PROOF. The encoding family, both ways (`30_encoding.md`): the decoder reads every field of an encoded word, and a word
with its format's reserved bits clear is laid out again from the fields the decoder reads.
-/

namespace Sys2Proof.Proofs
open Sys2Proof.Machine Sys2Proof.Claims Sys2Proof.Laws

/-! ## Operands that fit their field (R61, R64) -/

theorem toNat_ofNat_of_fitsByte {v : Nat} (h : fitsByte v = true) : (BitVec.ofNat 8 v).toNat = v :=
  BitVec.toNat_ofNat _ _ ▸ Nat.mod_eq_of_lt (of_decide_eq_true h)

theorem toNat_ofNat_of_fitsImm16 {v : Nat} (h : fitsImm16 v = true) : (BitVec.ofNat 16 v).toNat = v :=
  BitVec.toNat_ofNat _ _ ▸ Nat.mod_eq_of_lt (of_decide_eq_true h)

theorem toNat_ofNat_of_fitsImm24 {v : Nat} (h : fitsImm24 v = true) : (BitVec.ofNat 24 v).toNat = v :=
  BitVec.toNat_ofNat _ _ ▸ Nat.mod_eq_of_lt (of_decide_eq_true h)

@[simp] theorem fitsByte_toNat (v : Byte) : fitsByte v.toNat = true := decide_eq_true v.isLt

@[simp] theorem fitsImm16_toNat (v : Len) : fitsImm16 v.toNat = true := decide_eq_true v.isLt

@[simp] theorem fitsImm24_toNat (v : Addr) : fitsImm24 v.toNat = true := decide_eq_true v.isLt

/-! ## The remaining formats' own words (R62) -/

/-- The statements' layout of a word is the encoder's, so the laws of the encoder's words speak of it. -/
theorem wordAddr_eq_wordI24 (op : Byte) (imm : Addr) : wordAddr op imm = wordI24 op imm := rfl

/-- A row of format Z makes one command of its one word. -/
theorem decode_word_of_row_Z {op : Byte} {i : Instr} (hMem : ⟨op, .Z, fun _ => i⟩ ∈ opcodeTable) :
    decode (word op 0x00#8 0x00#8) = .command i :=
  decode_word_of_row hMem 0#8 0#8 (wordAB_and_Z op)

/-- A row of format I16 reads back the operand of its own words. -/
theorem decode_wordLen_of_row_I16 {op : Byte} {make : Len → Instr} (imm : Len)
    (hMem : ⟨op, .I16, fun cw => make (imm16Field cw)⟩ ∈ opcodeTable) :
    decode (wordLen op 0x00#8 imm) = .command (make imm) := by
  rw [wordLen_eq_wordAI, decode_of_row (find_of_mem hMem (opField_wordAI op 0#8 imm).symm),
    if_pos (wordAI_and_I16 op imm)]
  simp only [imm16Field_wordAI]

/-- A row of format I24 reads back the operand of its own words. -/
theorem decode_wordAddr_of_row_I24 {op : Byte} {make : Addr → Instr} (imm : Addr)
    (hMem : ⟨op, .I24, fun cw => make (imm24Field cw)⟩ ∈ opcodeTable) :
    decode (wordAddr op imm) = .command (make imm) := by
  rw [wordAddr_eq_wordI24, decode_of_row (find_of_mem hMem (opField_wordI24 op imm).symm), if_pos (and_I24 _)]
  simp only [imm24Field_wordI24]

/-! ## From a command to its word and back: an integer operand is read as the number it is (R64) -/

section Numbers
variable {op : Byte}

theorem decode_word_of_row_A_nat {make : Nat → Instr} {v : Nat} (hFits : fitsByte v = true)
    (hMem : ⟨op, .A, fun cw => make (aField cw).toNat⟩ ∈ opcodeTable) :
    decode (word op (BitVec.ofNat 8 v) 0x00#8) = .command (make v) := by
  rw [decode_word_of_row_A (make := fun a => make a.toNat) _ hMem, toNat_ofNat_of_fitsByte hFits]

theorem decode_word_of_row_AB_nat {make : Nat → Nat → Instr} {v w : Nat} (hFits : (fitsByte v && fitsByte w) = true)
    (hMem : ⟨op, .AB, fun cw => make (aField cw).toNat (bField cw).toNat⟩ ∈ opcodeTable) :
    decode (word op (BitVec.ofNat 8 v) (BitVec.ofNat 8 w)) = .command (make v w) := by
  obtain ⟨hv, hw⟩ := Bool.and_eq_true_iff.mp hFits
  rw [decode_word_of_row_AB (make := fun a b => make a.toNat b.toNat) _ _ hMem, toNat_ofNat_of_fitsByte hv,
    toNat_ofNat_of_fitsByte hw]

theorem decode_wordLen_of_row_I16_nat {make : Nat → Instr} {len : Nat} (hFits : fitsImm16 len = true)
    (hMem : ⟨op, .I16, fun cw => make (imm16Field cw).toNat⟩ ∈ opcodeTable) :
    decode (wordLen op 0x00#8 (BitVec.ofNat 16 len)) = .command (make len) := by
  rw [decode_wordLen_of_row_I16 (make := fun l => make l.toNat) _ hMem, toNat_ofNat_of_fitsImm16 hFits]

theorem decode_wordLen_of_row_AI_nat {make : Nat → Nat → Instr} {v len : Nat}
    (hFits : (fitsByte v && fitsImm16 len) = true)
    (hMem : ⟨op, .AI, fun cw => make (aField cw).toNat (imm16Field cw).toNat⟩ ∈ opcodeTable) :
    decode (wordLen op (BitVec.ofNat 8 v) (BitVec.ofNat 16 len)) = .command (make v len) := by
  obtain ⟨hv, hLen⟩ := Bool.and_eq_true_iff.mp hFits
  rw [decode_wordLen_of_row_AI (make := fun a l => make a.toNat l.toNat) _ _ hMem, toNat_ofNat_of_fitsByte hv,
    toNat_ofNat_of_fitsImm16 hLen]

theorem decode_wordAddr_of_row_I24_nat {make : Nat → Instr} {addr : Nat} (hFits : fitsImm24 addr = true)
    (hMem : ⟨op, .I24, fun cw => make (imm24Field cw).toNat⟩ ∈ opcodeTable) :
    decode (wordAddr op (BitVec.ofNat 24 addr)) = .command (make addr) := by
  rw [decode_wordAddr_of_row_I24 (make := fun x => make x.toNat) _ hMem, toNat_ofNat_of_fitsImm24 hFits]

end Numbers

/-- Settles O1: each command's word is laid out in the format of its row, and the row reads the operands back. -/
theorem decodeOfEncodeIsTheCommand : Obligations.DecodeOfEncodeIsTheCommand := by
  intro i hFits
  cases i with
  | nop => exact decode_word_of_row_Z (by simp [opcodeTable])
  | gfadd a b => exact decode_word_of_row_AB (make := .gfadd) a b (by simp [opcodeTable])
  | gfsub a b => exact decode_word_of_row_AB (make := .gfsub) a b (by simp [opcodeTable])
  | gfmul a b => exact decode_word_of_row_AB (make := .gfmul) a b (by simp [opcodeTable])
  | gfdiv a b => exact decode_word_of_row_AB (make := .gfdiv) a b (by simp [opcodeTable])
  | logrd a => exact decode_word_of_row_A (make := .logrd) a (by simp [opcodeTable])
  | alogrd e => exact decode_word_of_row_A_nat (make := .alogrd) hFits (by simp [opcodeTable])
  | create n k => exact decode_word_of_row_AB_nat (make := .create) hFits (by simp [opcodeTable])
  | destroy => exact decode_word_of_row_Z (by simp [opcodeTable])
  | gmrd row col => exact decode_word_of_row_AB_nat (make := .gmrd) hFits (by simp [opcodeTable])
  | setl len => exact decode_wordLen_of_row_I16_nat (make := .setl) hFits (by simp [opcodeTable])
  | setblen pos len => exact decode_wordLen_of_row_AI_nat (make := .setblen) hFits (by simp [opcodeTable])
  | setbasea addr => exact decode_wordAddr_of_row_I24_nat (make := .setbasea) hFits (by simp [opcodeTable])
  | setbaseb addr => exact decode_wordAddr_of_row_I24_nat (make := .setbaseb) hFits (by simp [opcodeTable])
  | setout addr => exact decode_wordAddr_of_row_I24_nat (make := .setout) hFits (by simp [opcodeTable])
  | emclr => exact decode_word_of_row_Z (by simp [opcodeTable])
  | emset pos => exact decode_word_of_row_A_nat (make := .emset) hFits (by simp [opcodeTable])
  | emval pos => exact decode_word_of_row_A_nat (make := .emval) hFits (by simp [opcodeTable])
  | encodeBlock p => exact decode_word_of_row_A_nat (make := .encodeBlock) hFits (by simp [opcodeTable])
  | decinl => exact decode_word_of_row_Z (by simp [opcodeTable])
  | decapp => exact decode_word_of_row_Z (by simp [opcodeTable])

/-! ## A word from its fields -/

/-- Every word is its four bytes. -/
theorem append_fields (cw : Word) :
    opField cw ++ aField cw ++ bField cw ++ (cw.extractLsb' 0 8 : Byte) = cw := by
  ext i hi
  rw [← BitVec.getLsbD_eq_getElem, BitVec.getLsbD_append, BitVec.getLsbD_append, BitVec.getLsbD_append]
  interval_cases i <;> simp [opField, aField, bField]

theorem and_Z_eq_zero_iff {cw : Word} : cw &&& Format.mustBeZero .Z = 0#32 ↔ cw.toNat % 2 ^ 24 = 0 := by
  rw [← BitVec.toNat_inj, toNat_and_Z, BitVec.toNat_zero]

theorem and_A_eq_zero_iff {cw : Word} : cw &&& Format.mustBeZero .A = 0#32 ↔ cw.toNat % 2 ^ 16 = 0 := by
  rw [← BitVec.toNat_inj, toNat_and_A, BitVec.toNat_zero]

theorem and_AB_eq_zero_iff {cw : Word} : cw &&& Format.mustBeZero .AB = 0#32 ↔ cw.toNat % 2 ^ 8 = 0 := by
  rw [← BitVec.toNat_inj, toNat_and_AB, BitVec.toNat_zero]

theorem aField_eq_zero_iff {cw : Word} : aField cw = 0#8 ↔ cw.toNat / 2 ^ 16 % 2 ^ 8 = 0 := by
  rw [← BitVec.toNat_inj, aField, BitVec.extractLsb'_toNat, Nat.shiftRight_eq_div_pow, BitVec.toNat_zero]

theorem bField_eq_zero_iff {cw : Word} : bField cw = 0#8 ↔ cw.toNat / 2 ^ 8 % 2 ^ 8 = 0 := by
  rw [← BitVec.toNat_inj, bField, BitVec.extractLsb'_toNat, Nat.shiftRight_eq_div_pow, BitVec.toNat_zero]

theorem wordAB_fields_of_AB {cw : Word} (h : cw &&& Format.mustBeZero .AB = 0#32) :
    wordAB (opField cw) (aField cw) (bField cw) = cw := by
  have hLow : cw.extractLsb' 0 8 = 0#8 := by
    rw [← BitVec.toNat_inj, BitVec.extractLsb'_toNat, Nat.shiftRight_zero, BitVec.toNat_zero]
    exact and_AB_eq_zero_iff.mp h
  rw [wordAB, ← hLow, append_fields]

theorem wordAB_fields_of_A {cw : Word} (h : cw &&& Format.mustBeZero .A = 0#32) :
    wordAB (opField cw) (aField cw) 0#8 = cw := by
  rw [and_A_eq_zero_iff] at h
  have hWord := wordAB_fields_of_AB (cw := cw) (and_AB_eq_zero_iff.mpr (by omega))
  rwa [bField_eq_zero_iff.mpr (by omega)] at hWord

theorem wordAB_fields_of_Z {cw : Word} (h : cw &&& Format.mustBeZero .Z = 0#32) :
    wordAB (opField cw) 0#8 0#8 = cw := by
  rw [and_Z_eq_zero_iff] at h
  have hWord := wordAB_fields_of_A (cw := cw) (and_A_eq_zero_iff.mpr (by omega))
  rwa [aField_eq_zero_iff.mpr (by omega)] at hWord

theorem wordAI_fields (cw : Word) : wordAI (opField cw) (aField cw) (imm16Field cw) = cw := by
  ext i hi
  rw [← BitVec.getLsbD_eq_getElem, getLsbD_wordAI]
  interval_cases i <;> simp [opField, aField, imm16Field]

theorem wordAI_fields_of_I16 {cw : Word} (h : cw &&& Format.mustBeZero .I16 = 0#32) :
    wordAI (opField cw) 0#8 (imm16Field cw) = cw := by
  have hBits : cw.toNat / 2 ^ 16 % 2 ^ 8 * 2 ^ 16 = 0 := by rw [← toNat_and_I16, h, BitVec.toNat_zero]
  have hWord := wordAI_fields cw
  rwa [aField_eq_zero_iff.mpr (by omega)] at hWord

theorem wordI24_fields (cw : Word) : wordI24 (opField cw) (imm24Field cw) = cw := by
  ext i hi
  rw [← BitVec.getLsbD_eq_getElem, getLsbD_wordI24]
  interval_cases i <;> simp [opField, imm24Field]

/-! ## From a word to its command and back -/

/-- What O2 says of one row of the opcode map. -/
def RowReencodes (row : Row) : Prop :=
  ∀ cw : Word, row.op = opField cw → cw &&& row.format.mustBeZero = 0#32 →
    (row.make cw).wellFormed = true ∧ encode (row.make cw) = cw

section Rows
variable {op : Byte}

theorem rowReencodes_Z {i : Instr} (hFits : i.wellFormed = true) (hWord : encode i = wordAB op 0#8 0#8) :
    RowReencodes ⟨op, .Z, fun _ => i⟩ := by
  rintro cw rfl hBits
  exact ⟨hFits, hWord.trans (wordAB_fields_of_Z hBits)⟩

theorem rowReencodes_A {make : Byte → Instr}
    (h : ∀ a, (make a).wellFormed = true ∧ encode (make a) = wordAB op a 0#8) :
    RowReencodes ⟨op, .A, fun cw => make (aField cw)⟩ := by
  rintro cw rfl hBits
  exact ⟨(h _).1, (h _).2.trans (wordAB_fields_of_A hBits)⟩

theorem rowReencodes_AB {make : Byte → Byte → Instr}
    (h : ∀ a b, (make a b).wellFormed = true ∧ encode (make a b) = wordAB op a b) :
    RowReencodes ⟨op, .AB, fun cw => make (aField cw) (bField cw)⟩ := by
  rintro cw rfl hBits
  exact ⟨(h _ _).1, (h _ _).2.trans (wordAB_fields_of_AB hBits)⟩

theorem rowReencodes_I16 {make : Len → Instr}
    (h : ∀ imm, (make imm).wellFormed = true ∧ encode (make imm) = wordAI op 0#8 imm) :
    RowReencodes ⟨op, .I16, fun cw => make (imm16Field cw)⟩ := by
  rintro cw rfl hBits
  exact ⟨(h _).1, (h _).2.trans (wordAI_fields_of_I16 hBits)⟩

theorem rowReencodes_AI {make : Byte → Len → Instr}
    (h : ∀ a imm, (make a imm).wellFormed = true ∧ encode (make a imm) = wordAI op a imm) :
    RowReencodes ⟨op, .AI, fun cw => make (aField cw) (imm16Field cw)⟩ := by
  rintro cw rfl -
  exact ⟨(h _ _).1, (h _ _).2.trans (wordAI_fields cw)⟩

theorem rowReencodes_I24 {make : Addr → Instr}
    (h : ∀ imm, (make imm).wellFormed = true ∧ encode (make imm) = wordI24 op imm) :
    RowReencodes ⟨op, .I24, fun cw => make (imm24Field cw)⟩ := by
  rintro cw rfl -
  exact ⟨(h _).1, (h _).2.trans (wordI24_fields cw)⟩

end Rows

theorem rowReencodes_of_mem : ∀ row ∈ opcodeTable, RowReencodes row := by
  simp only [opcodeTable, List.forall_mem_cons]
  refine ⟨rowReencodes_Z rfl rfl, rowReencodes_AB fun a b => ⟨rfl, rfl⟩, rowReencodes_AB fun a b => ⟨rfl, rfl⟩,
    rowReencodes_AB fun a b => ⟨rfl, rfl⟩, rowReencodes_AB fun a b => ⟨rfl, rfl⟩, rowReencodes_A fun a => ⟨rfl, rfl⟩,
    rowReencodes_A (make := fun a => .alogrd a.toNat) ?_,
    rowReencodes_AB (make := fun a b => .create a.toNat b.toNat) ?_, rowReencodes_Z rfl rfl,
    rowReencodes_AB (make := fun a b => .gmrd a.toNat b.toNat) ?_,
    rowReencodes_I16 (make := fun l => .setl l.toNat) ?_,
    rowReencodes_AI (make := fun a l => .setblen a.toNat l.toNat) ?_,
    rowReencodes_I24 (make := fun x => .setbasea x.toNat) ?_, rowReencodes_I24 (make := fun x => .setbaseb x.toNat) ?_,
    rowReencodes_I24 (make := fun x => .setout x.toNat) ?_, rowReencodes_Z rfl rfl,
    rowReencodes_A (make := fun a => .emset a.toNat) ?_, rowReencodes_A (make := fun a => .emval a.toNat) ?_,
    rowReencodes_A (make := fun a => .encodeBlock a.toNat) ?_, rowReencodes_Z rfl rfl, rowReencodes_Z rfl rfl,
    List.forall_mem_nil _⟩
  all_goals simp [Instr.wellFormed, encode]

/-- Settles O2: the decoder answers what the row of the word's opcode makes, and only when the reserved bits are 0. -/
theorem encodeOfDecodedCommandIsTheWord : Obligations.EncodeOfDecodedCommandIsTheWord := by
  intro cw i hDecode
  cases hFind : opcodeTable.find? fun r => r.op == opField cw with
  | none => simp [decode, hFind] at hDecode
  | some row =>
    obtain ⟨hMem, hOp⟩ := row_of_find hFind
    rw [decode_of_row hFind] at hDecode
    split at hDecode
    · next hBits =>
      cases hDecode
      exact rowReencodes_of_mem row hMem cw hOp hBits
    · cases hDecode

/-- Settles O5: nine closed words, each decoded through the opcode map. -/
theorem exampleWordsDecode : Obligations.ExampleWordsDecode := by
  unfold Obligations.ExampleWordsDecode
  decide

end Sys2Proof.Proofs
end

section
/-!
PROOF. The step (`60_exceptions.md` R171, `70_reset_and_hazards.md`): what each host action does, what the fatal state
answers, reset, and the set-up commands without a position.
-/

namespace Sys2Proof.Proofs
open Sys2Proof.Machine Sys2Proof.Claims Sys2Proof.Laws

/-! ## A command in the fatal state (R177) -/

theorem exists_exec_eq_next (i : Instr) (s : State) : ∃ t, exec i s = .next t := by
  cases i <;> exact ⟨_, rfl⟩

theorem exec_of_fatal (i : Instr) {s : State} (hFatal : s.fatal = true) : exec i s = .next (errored 0x1F#8 s) := by
  obtain ⟨t, hExec⟩ := exists_exec_eq_next i s
  rcases exec_cases hExec with ⟨-, rfl⟩ | ⟨hNot, -⟩
  · exact hExec
  · rw [hFatal] at hNot
    cases hNot

/-- The prologue's own test of `FATAL` and the one in every meaning answer alike (log entry 8). -/
theorem execute_eq_exec {cw : Word} {i : Instr} (hDecode : decode cw = .command i) (s : State) :
    execute cw s = exec i s := by
  cases hFatal : s.fatal
  · exact execute_of_command hDecode hFatal
  · rw [execute_of_fatal cw hFatal, exec_of_fatal i hFatal]

theorem exists_execute_eq_next (cw : Word) (s : State) : ∃ t, execute cw s = .next t := by
  cases hDecode : decode cw with
  | illegal why => exact ⟨_, execute_of_illegal_eq_ite s hDecode⟩
  | command i =>
    rw [execute_eq_exec hDecode]
    exact exists_exec_eq_next i s

/-! ## The host's accesses (`20_memory.md` R41, R44) -/

/-- At the default `MEM_BYTES` every 24-bit address is a byte of `DMEM` (log entries 6 and 12). -/
theorem hostWrite_eq_next (a : Addr) (v : Byte) (s : State) :
    hostWrite a v s = .next { s with dmem := Memory.write s.dmem a.toNat v } := if_pos (addr_lt_memBytes a)

theorem hostRead_eq_next (a : Addr) (s : State) :
    hostRead a s = .next { s with readData := Memory.read s.dmem a.toNat } := if_pos (addr_lt_memBytes a)

theorem read_write (m : Memory) (a : Nat) (v : Byte) (c : Nat) :
    Memory.read (Memory.write m a v) c = if c = a then v else Memory.read m c := by
  split
  · next h => rw [h, read_write_self]
  · next h => rw [read_write_ne m v h]

/-! ## What a step can do -/

/-- The state once the next action is off the port. -/
def taken (s : State) : State := { s with port := s.port.tail }

theorem taken_of_cons {s : State} {act : HostAction} {rest : List HostAction} (h : s.port = act :: rest) :
    taken s = { s with port := rest } := by rw [taken, h, List.tail_cons]

theorem step_cases {s t : State} (h : step s = .next t) :
    (s.port = [] ∧ t = s) ∨
    (∃ cw rest, s.port = .command cw :: rest ∧ execute cw (taken s) = .next t) ∨
    (∃ a v rest, s.port = .write a v :: rest ∧ t = { taken s with dmem := Memory.write s.dmem a.toNat v }) ∨
    (∃ a rest, s.port = .read a :: rest ∧ t = { taken s with readData := Memory.read s.dmem a.toNat }) ∨
    (∃ rest, s.port = .reset :: rest ∧ t = resetInput (taken s)) := by
  cases hPort : s.port with
  | nil =>
    rw [step_of_nil hPort] at h
    exact .inl ⟨rfl, (Host.Outcome.next.inj h).symm⟩
  | cons act rest =>
    rw [taken_of_cons hPort]
    cases act with
    | command cw =>
      rw [step_of_command hPort] at h
      exact .inr (.inl ⟨cw, rest, rfl, h⟩)
    | write a v =>
      rw [step_of_write hPort, hostWrite_eq_next] at h
      exact .inr (.inr (.inl ⟨a, v, rest, rfl, (Host.Outcome.next.inj h).symm⟩))
    | read a =>
      rw [step_of_read hPort, hostRead_eq_next] at h
      exact .inr (.inr (.inr (.inl ⟨a, rest, rfl, (Host.Outcome.next.inj h).symm⟩)))
    | reset =>
      rw [step_of_reset hPort] at h
      exact .inr (.inr (.inr (.inr ⟨rest, rfl, (Host.Outcome.next.inj h).symm⟩)))

theorem exists_step_eq_next (s : State) : ∃ t, step s = .next t := by
  cases hPort : s.port with
  | nil => exact ⟨s, step_of_nil hPort⟩
  | cons act rest =>
    cases act with
    | command cw =>
      rw [step_of_command hPort]
      exact exists_execute_eq_next cw _
    | write a v => exact ⟨_, by rw [step_of_write hPort, hostWrite_eq_next]⟩
    | read a => exact ⟨_, by rw [step_of_read hPort, hostRead_eq_next]⟩
    | reset => exact ⟨_, step_of_reset hPort⟩

/-! ## The obligations on the step -/

/-- Settles O8: every meaning tests `FATAL` first. -/
theorem fatalStateHaltsEveryCommand : Obligations.FatalStateHaltsEveryCommand := fun i _ => exec_of_fatal i

/-- Settles O6: `execute` decodes outside the fatal state, and inside it `exec` halts as well. -/
theorem stepRunsTheDecodedCommand : Obligations.StepRunsTheDecodedCommand := fun s cw rest i hPort hDecode => by
  rw [step_of_command hPort, execute_eq_exec hDecode]

/-- Settles O9: each of the five things a step can do answers a next state. -/
theorem everyStepAnswersNext : Obligations.EveryStepAnswersNext := exists_step_eq_next

/-- Settles O10: with an empty port there is no action to take. -/
theorem idleCoreHoldsItsState : Obligations.IdleCoreHoldsItsState := fun _ => step_of_nil

/-- Settles O11: the memory law of a read after a write, at the two addresses of the host's accesses. -/
theorem hostReadReturnsTheLastByteWritten : Obligations.HostReadReturnsTheLastByteWritten := by
  refine ⟨fun s c rest hPort => by rw [step_of_read hPort, hostRead_eq_next], fun s a c v rest hPort => ?_⟩
  refine ⟨_, by rw [step_of_write hPort, hostWrite_eq_next], rfl, read_write s.dmem a.toNat v, ?_⟩
  rw [step_of_read rfl, hostRead_eq_next, read_write, if_congr BitVec.toNat_inj rfl rfl]

/-- Settles O52: a command halts in the fatal state, and a host access leaves `FATAL` alone. -/
theorem onlyResetClearsFatal : Obligations.OnlyResetClearsFatal := by
  intro s t hStep hFatal
  rcases step_cases hStep with ⟨-, rfl⟩ | ⟨cw, rest, -, hExec⟩ | ⟨a, v, rest, -, rfl⟩ | ⟨a, rest, -, rfl⟩ |
    ⟨rest, hPort, -⟩
  · exact .inl hFatal
  · rw [execute_of_fatal cw (s := taken s) hFatal] at hExec
    cases hExec
    exact .inl hFatal
  · exact .inl hFatal
  · exact .inl hFatal
  · exact .inr ⟨rest, hPort⟩

/-! ## Reset (R29, R190) -/

theorem resetValues_reset : ResetValues State.reset := by
  refine ⟨rfl, rfl, rfl, rfl, rfl, rfl, rfl, rfl, fun i hi => ?_, rfl, rfl, rfl, fun i hi => ?_⟩ <;>
    simp [State.reset, hi]

/-- The reset values speak of no field that the reset input keeps. -/
theorem resetValues_resetInput (s : State) : ResetValues (resetInput s) := resetValues_reset

/-- Settles O12: the reset input is `State.reset` but for `DMEM` and the model's own fields. -/
theorem resetGivesTheStatedValues : Obligations.ResetGivesTheStatedValues :=
  ⟨resetValues_reset, fun s rest hPort =>
    ⟨_, step_of_reset hPort, resetValues_resetInput { s with port := rest }, rfl⟩⟩

/-! ## The set-up commands without a position (R120, R121, R123 to R126) -/

section Exec
variable {s : State} (hFatal : s.fatal = false)
include hFatal

theorem exec_nop : exec .nop s = .next (answered 0x00#8 s) := by
  rw [exec, execNop, prologue_of_not_fatal hFatal, done_eq_answered]

theorem exec_setl (len : Len) : exec (.setl len.toNat) s = .next (answered 0x00#8 { s with len := len }) := by
  rw [exec, execSetl, prologue_of_not_fatal hFatal, done_eq_answered, BitVec.ofNat_toNat, BitVec.setWidth_eq]

theorem exec_setbasea (addr : Addr) :
    exec (.setbasea addr.toNat) s = .next (answered 0x00#8 { s with baseA := addr }) := by
  rw [exec, execSetbasea, prologue_of_not_fatal hFatal, done_eq_answered, BitVec.ofNat_toNat, BitVec.setWidth_eq]

theorem exec_setbaseb (addr : Addr) :
    exec (.setbaseb addr.toNat) s = .next (answered 0x00#8 { s with baseB := addr }) := by
  rw [exec, execSetbaseb, prologue_of_not_fatal hFatal, done_eq_answered, BitVec.ofNat_toNat, BitVec.setWidth_eq]

theorem exec_setout (addr : Addr) :
    exec (.setout addr.toNat) s = .next (answered 0x00#8 { s with outBase := addr }) := by
  rw [exec, execSetout, prologue_of_not_fatal hFatal, done_eq_answered, BitVec.ofNat_toNat, BitVec.setWidth_eq]

theorem exec_emclr :
    exec .emclr s = .next (answered 0x00#8 { s with emap := Vector.replicate 255 false }) := by
  rw [exec, execEmclr, prologue_of_not_fatal hFatal, done_eq_answered]

end Exec

/-- Settles O29: an operand read from its field is the register's new value as it stands. -/
theorem setupCommandsWriteTheirRegister : Obligations.SetupCommandsWriteTheirRegister := by
  intro len addr s
  refine ⟨⟨decode_word_of_row_Z (by simp [opcodeTable]),
    decode_wordLen_of_row_I16 (make := fun l => .setl l.toNat) len (by simp [opcodeTable]),
    decode_wordAddr_of_row_I24 (make := fun x => .setbasea x.toNat) addr (by simp [opcodeTable]),
    decode_wordAddr_of_row_I24 (make := fun x => .setbaseb x.toNat) addr (by simp [opcodeTable]),
    decode_wordAddr_of_row_I24 (make := fun x => .setout x.toNat) addr (by simp [opcodeTable]),
    decode_word_of_row_Z (by simp [opcodeTable])⟩, fun hFatal => ?_⟩
  exact ⟨exec_nop hFatal, exec_setl hFatal len, exec_setbasea hFatal addr, exec_setbaseb hFatal addr,
    exec_setout hFatal addr, _, exec_emclr hFatal, rfl, fun i hi => by simp [answered, hi]⟩

end Sys2Proof.Proofs
end

section
/-!
PROOF. How a command ends (`60_exceptions.md` R170, R174, R175) and what it may write (`10_state.md`, the writers of
each register): both follow from the one inversion lemma of `exec`, command by command.
-/

namespace Sys2Proof.Proofs
open Sys2Proof.Machine Sys2Proof.Claims Sys2Proof.Laws

/-! ## The statuses (R174) -/

/-- The statement's table lists the codes of a command's own errors. -/
theorem code_mem_possibleStatuses {i : Instr} {x : Status} (hx : x ∈ ownErrors i) : x.code ∈ possibleStatuses i := by
  have hCodes : ∀ y ∈ (ownErrors i).map Status.code, y ∈ possibleStatuses i := by
    cases i <;> simp [ownErrors, possibleStatuses, Status.code]
  exact hCodes _ (List.mem_map_of_mem hx)

theorem mayBeSingular_of_meetsSingular {i : Instr} {s : State} (h : MeetsSingular i s) : mayBeSingular i = true := by
  cases i with
  | create n k => rfl
  | decinl => rfl
  | decapp => rfl
  | _ => exact h.elim

theorem singular_mem_possibleStatuses {i : Instr} (h : mayBeSingular i = true) : 0x06#8 ∈ possibleStatuses i := by
  cases i with
  | create n k => simp [possibleStatuses]
  | decinl => simp [possibleStatuses]
  | decapp => simp [possibleStatuses]
  | _ => cases h

/-- Settles O49: the three ways a command's own rule ends have the statuses of the table. -/
theorem statusesOfEachCommand : Obligations.StatusesOfEachCommand := by
  intro i s t hExec
  rcases exec_cases hExec with ⟨hFatal, rfl⟩ | ⟨hFatal, ⟨x, hx, rfl⟩ | ⟨hSingular, rfl⟩ | ⟨v, u, -, rfl⟩⟩
  · exact .inl ⟨hFatal, rfl⟩
  · exact .inr ⟨hFatal, .inr (code_mem_possibleStatuses hx)⟩
  · exact .inr ⟨hFatal, .inr (singular_mem_possibleStatuses (mayBeSingular_of_meetsSingular hSingular))⟩
  · exact .inr ⟨hFatal, .inl rfl⟩

/-! ## The result (R14, R175) -/

theorem result_of_effect {i : Instr} {s u : State} {v : Byte} (hEffect : Effect i s v u)
    (hReturns : returnsByte i = false) : v = 0x00#8 := by
  cases i with
  | gfadd | gfsub | gfmul | gfdiv | logrd | alogrd | gmrd => cases hReturns
  | nop | create | destroy | setl | setblen | setbasea | setbaseb | setout | emclr | emset | emval | encodeBlock
    | decinl | decapp => exact hEffect.1

/-- Settles O50: an error puts 0 into `RESULT`, and so does the effect of a command that returns no byte. -/
theorem resultIsZeroUnlessAByteIsReturned : Obligations.ResultIsZeroUnlessAByteIsReturned := by
  intro i s t hExec hNoByte
  rcases exec_cases hExec with ⟨-, rfl⟩ | ⟨-, ⟨x, -, rfl⟩ | ⟨-, rfl⟩ | ⟨v, u, hEffect, rfl⟩⟩
  · rfl
  · rfl
  · rfl
  · exact result_of_effect hEffect (hNoByte.resolve_right fun h => h rfl)

/-! ## The writers (R18 to R27) -/

/-- What the statement says of one command that meets no singular matrix: `FATAL` is left as it is. -/
structure WritesOwnState (i : Instr) (s t : State) : Prop where
  len : t.len ≠ s.len → ∃ v, i = .setl v
  blen : t.blen ≠ s.blen → ∃ p v, i = .setblen p v
  baseA : t.baseA ≠ s.baseA → ∃ v, i = .setbasea v
  baseB : t.baseB ≠ s.baseB → ∃ v, i = .setbaseb v
  outBase : t.outBase ≠ s.outBase → ∃ v, i = .setout v
  emap : t.emap ≠ s.emap → i = .emclr ∨ (∃ p, i = .emset p) ∨ ∃ p, i = .emval p
  desc : t.desc ≠ s.desc → (s.desc = none ∧ ∃ n k, i = .create n k) ∨ (t.desc = none ∧ i = .destroy)
  dmem : t.dmem ≠ s.dmem → writesMemory i = true
  tables : t.tables ≠ s.tables → s.tables = none ∧ t.tables = some builtTables ∧ buildsTables i = true
  fatal : t.fatal = s.fatal
  port : t.port = s.port
  readData : t.readData = s.readData

theorem WritesOwnState.refl (i : Instr) (s : State) : WritesOwnState i s s := by constructor <;> simp

/-- The statement speaks of every field but `STATUS` and `RESULT`. -/
theorem WritesOwnState.respond {i : Instr} {s u : State} (h : WritesOwnState i s u) (x : Status) (v : Byte) :
    WritesOwnState i s (respond x v u) := { h with }

/-- R25: the build changes the tables when they are absent, and then to those of the build. -/
theorem ensureTables_tables_of_ne {s : State} (h : (ensureTables s).tables ≠ s.tables) :
    s.tables = none ∧ (ensureTables s).tables = some builtTables := by
  cases hTables : s.tables with
  | none => exact ⟨rfl, by rw [ensureTables_tables, tablesNow_of_none hTables]⟩
  | some T =>
    rw [ensureTables_tables, tablesNow_of_some hTables, hTables] at h
    exact absurd rfl h

theorem writesOwnState_ensureTables {i : Instr} (hBuilds : buildsTables i = true) (s : State) :
    WritesOwnState i s (ensureTables s) :=
  { WritesOwnState.refl i s with
    tables := fun h => ⟨(ensureTables_tables_of_ne h).1, (ensureTables_tables_of_ne h).2, hBuilds⟩ }

theorem writesOwnState_begun (i : Instr) (s : State) : WritesOwnState i s (begun i s) := by
  rw [begun_eq_ite]
  split
  · next hBuilds => exact writesOwnState_ensureTables hBuilds s
  · exact .refl i s

theorem writesOwnState_decodeEffect {i : Instr} {d : Descriptor} {addr : Nat → Nat} {rs : List Region} {s u : State}
    (hWrites : writesMemory i = true) (h : DecodeEffect d addr rs s u) : WritesOwnState i s u := by
  obtain ⟨-, -, -, -, -, ⟨-, rfl⟩ | ⟨inv, -, rfl⟩⟩ := h
  · exact .refl i u
  · exact { WritesOwnState.refl i s with dmem := fun _ => hWrites }

theorem writesOwnState_effect {i : Instr} {s u : State} {v : Byte} (hEffect : Effect i s v u) :
    WritesOwnState i s u := by
  cases i with
  | nop | gfadd | gfsub =>
    obtain ⟨-, rfl⟩ := hEffect
    exact .refl _ u
  | gfmul | gfdiv | logrd | alogrd =>
    obtain ⟨-, rfl⟩ := hEffect
    exact writesOwnState_ensureTables rfl s
  | create n k =>
    obtain ⟨-, hNone, hLegal, G, -, rfl⟩ := hEffect
    exact { writesOwnState_ensureTables (i := .create n k) rfl s with desc := fun _ => .inl ⟨hNone, n, k, rfl⟩ }
  | destroy =>
    obtain ⟨-, -, rfl⟩ := hEffect
    exact { WritesOwnState.refl .destroy s with desc := fun _ => .inr ⟨rfl, rfl⟩ }
  | gmrd row col =>
    obtain ⟨rfl, -⟩ := hEffect
    exact .refl _ u
  | setl len =>
    obtain ⟨-, rfl⟩ := hEffect
    exact { WritesOwnState.refl (.setl len) s with len := fun _ => ⟨len, rfl⟩ }
  | setblen pos len =>
    obtain ⟨-, -, rfl⟩ := hEffect
    exact { WritesOwnState.refl (.setblen pos len) s with blen := fun _ => ⟨pos, len, rfl⟩ }
  | setbasea addr =>
    obtain ⟨-, rfl⟩ := hEffect
    exact { WritesOwnState.refl (.setbasea addr) s with baseA := fun _ => ⟨addr, rfl⟩ }
  | setbaseb addr =>
    obtain ⟨-, rfl⟩ := hEffect
    exact { WritesOwnState.refl (.setbaseb addr) s with baseB := fun _ => ⟨addr, rfl⟩ }
  | setout addr =>
    obtain ⟨-, rfl⟩ := hEffect
    exact { WritesOwnState.refl (.setout addr) s with outBase := fun _ => ⟨addr, rfl⟩ }
  | emclr =>
    obtain ⟨-, rfl⟩ := hEffect
    exact { WritesOwnState.refl .emclr s with emap := fun _ => .inl rfl }
  | emset pos =>
    obtain ⟨-, -, rfl⟩ := hEffect
    exact { WritesOwnState.refl (.emset pos) s with emap := fun _ => .inr (.inl ⟨pos, rfl⟩) }
  | emval pos =>
    obtain ⟨-, -, rfl⟩ := hEffect
    exact { WritesOwnState.refl (.emval pos) s with emap := fun _ => .inr (.inr ⟨pos, rfl⟩) }
  | encodeBlock p =>
    obtain ⟨-, d, -, hp, -, -, -, -, rfl⟩ := hEffect
    exact { WritesOwnState.refl (.encodeBlock p) s with dmem := fun _ => rfl }
  | decinl =>
    obtain ⟨-, d, hDecode⟩ := hEffect
    exact writesOwnState_decodeEffect rfl hDecode
  | decapp =>
    obtain ⟨-, d, hDecode⟩ := hEffect
    exact writesOwnState_decodeEffect rfl hDecode

/-- A command writes its own state, and beside it `FATAL` alone, where it meets a singular matrix. -/
theorem writesOwnState_of_exec {i : Instr} {s t : State} (hExec : exec i s = .next t) :
    WritesOwnState i s t ∨
      (mayBeSingular i = true ∧ t.fatal = true ∧ WritesOwnState i s { t with fatal := s.fatal }) := by
  rcases exec_cases hExec with ⟨-, rfl⟩ | ⟨-, ⟨x, -, rfl⟩ | ⟨hSingular, rfl⟩ | ⟨v, u, hEffect, rfl⟩⟩
  · exact .inl ((WritesOwnState.refl i s).respond _ _)
  · exact .inl ((writesOwnState_begun i s).respond _ _)
  · exact .inr ⟨mayBeSingular_of_meetsSingular hSingular, rfl, { writesOwnState_begun i s with fatal := rfl }⟩
  · exact .inl ((writesOwnState_effect hEffect).respond _ _)

/-- Settles O51: the clauses of the structure, and its `FATAL` or the singular matrix. -/
theorem eachStateHasItsWriters : Obligations.EachStateHasItsWriters := by
  intro i s t hExec
  rcases writesOwnState_of_exec hExec with h | ⟨hSingular, hFatal, h⟩
  · exact ⟨h.len, h.blen, h.baseA, h.baseB, h.outBase, h.emap, h.desc, h.dmem, fun hne => absurd h.fatal hne, h.tables,
      h.port, h.readData⟩
  · exact ⟨h.len, h.blen, h.baseA, h.baseB, h.outBase, h.emap, h.desc, h.dmem, fun _ => ⟨hFatal, hSingular⟩, h.tables,
      h.port, h.readData⟩

/-! ## The response to a word (R60, R170, R175) -/

theorem responseOk_respond {x : Status} {v : Byte} (h : x = .ok ∨ v = 0x00#8) (s : State) :
    (respond x v s).ResponseOk := by
  refine ⟨⟨x, rfl⟩, fun hError => h.resolve_left ?_⟩
  rintro rfl
  exact hError rfl

theorem responseOk_of_exec {i : Instr} {s t : State} (hExec : exec i s = .next t) : t.ResponseOk := by
  rcases exec_cases hExec with ⟨-, rfl⟩ | ⟨-, ⟨x, -, rfl⟩ | ⟨-, rfl⟩ | ⟨v, u, -, rfl⟩⟩
  · exact responseOk_respond (.inr rfl) _
  · exact responseOk_respond (.inr rfl) _
  · exact responseOk_respond (.inr rfl) _
  · exact responseOk_respond (.inl rfl) _

theorem execute_keeps_port {cw : Word} {s t : State} (hExecute : execute cw s = .next t) : t.port = s.port := by
  cases hDecode : decode cw with
  | illegal why =>
    rw [execute_of_illegal_eq_ite s hDecode] at hExecute
    cases hExecute
    rfl
  | command i =>
    rw [execute_eq_exec hDecode] at hExecute
    exact (writesOwnState_of_exec hExecute).elim (·.port) fun ⟨_, _, h⟩ => h.port

theorem responseOk_of_execute {cw : Word} {s t : State} (hExecute : execute cw s = .next t) : t.ResponseOk := by
  cases hDecode : decode cw with
  | illegal why =>
    rw [execute_of_illegal_eq_ite s hDecode] at hExecute
    cases hExecute
    refine ⟨?_, fun _ => rfl⟩
    cases s.fatal
    · exact ⟨.illegalCommand, rfl⟩
    · exact ⟨.halted, rfl⟩
  | command i => exact responseOk_of_exec (execute_eq_exec hDecode s ▸ hExecute)

theorem code_mem_statusCodes (x : Status) : x.code.toNat ∈ statusCodes := by cases x <;> decide

/-- The two bytes of the response, as fields and as numbers. -/
theorem response_bytes (s : State) :
    s.response.extractLsb' 8 8 = s.status ∧ s.response.extractLsb' 0 8 = s.result ∧
      s.response.toNat / 2 ^ 8 = s.status.toNat ∧ s.response.toNat % 2 ^ 8 = s.result.toNat := by
  have hResult := s.result.isLt
  have hStatus := s.status.isLt
  refine ⟨?_, ?_, by rw [response_toNat]; omega, by rw [response_toNat]; omega⟩ <;>
    rw [← BitVec.toNat_inj, BitVec.extractLsb'_toNat, response_toNat, Nat.shiftRight_eq_div_pow] <;> omega

/-- Settles O57: whether the word is illegal, halted or a command, the state it ends in has a legal response. -/
theorem everyWordGetsItsResponse : Obligations.EveryWordGetsItsResponse := by
  intro s cw rest hPort
  obtain ⟨t, hExecute⟩ := exists_execute_eq_next cw { s with port := rest }
  obtain ⟨⟨x, hStatus⟩, hZero⟩ := responseOk_of_execute hExecute
  obtain ⟨hHigh, hLow, hDiv, hMod⟩ := response_bytes t
  refine ⟨t, by rw [step_of_command hPort, hExecute], execute_keeps_port hExecute, hHigh, hLow, ?_, fun hError => ?_⟩
  · rw [hDiv, hStatus]
    exact code_mem_statusCodes x
  · rw [hDiv] at hError
    rw [hMod, hZero fun h => hError (by rw [h]; rfl)]
    rfl

end Sys2Proof.Proofs
end

section
/-!
PROOF. The field (`10_state.md` section 8, `40_field_engine.md` section 3): the tables hold the powers of x, the bytes
are a field, and the table product is the shift-and-reduce product. The last is a statement about two bilinear maps, so
it is enough to compare them on single bits.
-/

namespace Sys2Proof.Proofs
open Sys2Proof.Machine Sys2Proof.Claims Sys2Proof.Laws

/-! ## The tables (R20, R21) -/

theorem toNat_timesX : ∀ v : Byte, (timesX Config.poly v).toNat =
    if 2 * v.toNat < 256 then 2 * v.toNat else (2 * v.toNat) ^^^ 0x11D := by decide +kernel

theorem alog_getElem?_succ_mod (i : Nat) :
    builtTables.alog[(i + 1) % 255]? = some (timesX Config.poly (powerOfX i)) := by
  rw [alog_getElem?_mod, alogMod_builtTables, powerOfX_succ]

/-- Settles O19: the entries are the powers of x, which has order 255 and so meets every non-zero byte once. -/
theorem tablesHoldThePowersOfX : Obligations.TablesHoldThePowersOfX := by
  refine ⟨getElem_alog_builtTables 0 (by decide), fun i hi => ?turn, fun a ha => ?once, fun i hi => ?nonzero,
    fun a ha => ?log⟩
  case turn =>
    exact ⟨_, _, alog_getElem?_of_lt hi, alog_getElem?_succ_mod i, toNat_timesX _⟩
  case once =>
    obtain ⟨i, hi, rfl⟩ := exists_powerOfX ha
    refine ⟨i, hi, alog_getElem?_of_lt hi, fun j hj hSame => ?_⟩
    rw [alog_getElem?_of_lt hj] at hSame
    exact powerOfX_injOn hj hi (Option.some.inj hSame)
  case nonzero =>
    rw [alog_getElem?_of_lt hi]
    exact fun h => powerOfX_ne_zero i (Option.some.inj h)
  case log => exact ⟨logOf_lt ha, by rw [alog_getElem?_of_lt (logOf_lt ha), powerOfX_logOf]⟩

/-! ## Powers (R102) -/

theorem gfpow_eq_powerOfX {e : Byte} (he : e ≠ 0#8) (j : Nat) :
    gfpow builtTables e j = powerOfX ((logOf builtTables e he).toNat * j) := by
  induction j with
  | zero => rfl
  | succ j ih =>
    calc gfmul builtTables (gfpow builtTables e j) e
        = gfmul builtTables (powerOfX ((logOf builtTables e he).toNat * j)) (powerOfX (logOf builtTables e he).toNat) :=
          congrArg₂ _ ih (powerOfX_logOf he).symm
      _ = powerOfX ((logOf builtTables e he).toNat * (j + 1)) := by rw [gfmul_powerOfX, Nat.mul_succ]

/-- Settles O23: two clauses are the definition's own cases; with a logarithm the powers of e are powers of x. -/
theorem gfpowMultipliesByItself : Obligations.GfpowMultipliesByItself := fun e j =>
  ⟨rfl, rfl, fun he => by rw [alog_getElem?_mod, alogMod_builtTables, gfpow_eq_powerOfX he]⟩

/-! ## XorAdditive maps on bytes by their single bits -/

/-- `f 0 = 0` and `f` turns the exclusive-or of bytes into that of its values. -/
structure XorAdditive {w : Nat} (f : Byte → BitVec w) : Prop where
  map_zero : f 0#8 = 0#w
  map_xor : ∀ a b, f (a ^^^ b) = f a ^^^ f b

/-- The exclusive-or of the `x i` over the bits i of b that are 1, from `acc` on: the loop of `carrylessProduct`. -/
def xorBits {w : Nat} (b : Byte) (x : Nat → BitVec w) (acc : BitVec w) : BitVec w :=
  (List.range 8).foldl (fun acc i => if b.getLsbD i then acc ^^^ x i else acc) acc

theorem eq_xorBits : ∀ b : Byte, b = xorBits b (fun i => 1#8 <<< i) 0#8 := by decide +kernel

theorem map_xorBits {v w : Nat} {g : BitVec v → BitVec w} (hg : ∀ x y, g (x ^^^ y) = g x ^^^ g y) (b : Byte)
    (x : Nat → BitVec v) (acc : BitVec v) : g (xorBits b x acc) = xorBits b (fun i => g (x i)) (g acc) :=
  (List.foldl_hom g fun acc i => by split <;> simp [hg]).symm

theorem xorBits_congr {w : Nat} (b : Byte) {x y : Nat → BitVec w} (h : ∀ i < 8, x i = y i) (acc : BitVec w) :
    xorBits b x acc = xorBits b y acc :=
  List.foldl_ext _ _ _ fun acc i hi => by rw [h i (List.mem_range.mp hi)]

theorem XorAdditive.eq_xorBits {w : Nat} {f : Byte → BitVec w} (hf : XorAdditive f) (b : Byte) :
    f b = xorBits b (fun i => f (1#8 <<< i)) 0#w := by
  conv_lhs => rw [Proofs.eq_xorBits b, map_xorBits hf.map_xor, hf.map_zero]

theorem XorAdditive.ext {w : Nat} {f g : Byte → BitVec w} (hf : XorAdditive f) (hg : XorAdditive g)
    (h : ∀ i < 8, f (1#8 <<< i) = g (1#8 <<< i)) (b : Byte) : f b = g b := by
  rw [hf.eq_xorBits, hg.eq_xorBits, xorBits_congr b h]

/-! ## The shift-and-reduce product (R88) -/

/-- One turn of the long division of `reduced`. -/
def reduceTurn (v : BitVec 16) (i : Nat) : BitVec 16 := if v.getLsbD (15 - i) then v ^^^ (0x11D#16 <<< (7 - i)) else v

theorem reduceTurn_xor (u v : BitVec 16) (i : Nat) : reduceTurn (u ^^^ v) i = reduceTurn u i ^^^ reduceTurn v i := by
  simp only [reduceTurn, BitVec.getLsbD_xor]
  generalize 0x11D#16 <<< (7 - i) = q
  cases u.getLsbD (15 - i) <;> cases v.getLsbD (15 - i)
  · rfl
  · exact BitVec.xor_assoc u v q
  · simp only [Bool.xor_false, if_true, if_false, Bool.false_eq_true]
    rw [BitVec.xor_assoc, BitVec.xor_comm v q, BitVec.xor_assoc]
  · simp only [Bool.xor_self, if_true, if_false, Bool.false_eq_true]
    rw [BitVec.xor_assoc, BitVec.xor_comm v q, ← BitVec.xor_assoc q q v, BitVec.xor_self, BitVec.zero_xor]

theorem foldl_reduceTurn_xor (turns : List Nat) (u v : BitVec 16) :
    turns.foldl reduceTurn (u ^^^ v) = turns.foldl reduceTurn u ^^^ turns.foldl reduceTurn v := by
  induction turns generalizing u v with
  | nil => rfl
  | cons i turns ih => rw [List.foldl_cons, List.foldl_cons, List.foldl_cons, reduceTurn_xor, ih]

theorem reduced_xor (u v : BitVec 16) : reduced (u ^^^ v) = reduced u ^^^ reduced v :=
  (congrArg (BitVec.setWidth 8) (foldl_reduceTurn_xor _ u v)).trans BitVec.setWidth_xor

theorem xorAdditive_gfmul (a : Byte) : XorAdditive (gfmul builtTables a) := ⟨gfmul_zero _ a, gfmul_xor a⟩

theorem xorAdditive_reduced_shiftLeft (i : Nat) : XorAdditive fun a => reduced (a.setWidth 16 <<< i) where
  map_zero := by simp; decide
  map_xor a b := by rw [BitVec.setWidth_xor, BitVec.shiftLeft_xor_distrib, reduced_xor]

/-- On single bits both products are powers of x. -/
theorem gfmul_bit_bit : ∀ i < 8, ∀ j < 8,
    gfmul builtTables (1#8 <<< i) (1#8 <<< j) = reduced ((1#8 <<< j).setWidth 16 <<< i) := by decide +kernel

theorem gfmul_bit (a : Byte) {i : Nat} (hi : i < 8) :
    gfmul builtTables a (1#8 <<< i) = reduced (a.setWidth 16 <<< i) := by
  rw [gfmul_comm]
  exact (xorAdditive_gfmul _).ext (xorAdditive_reduced_shiftLeft i) (gfmul_bit_bit i hi) a

theorem gfmul_eq_reduced (a b : Byte) : gfmul builtTables a b = reduced (carrylessProduct a b) := by
  calc gfmul builtTables a b
      = xorBits b (fun i => gfmul builtTables a (1#8 <<< i)) 0#8 := (xorAdditive_gfmul a).eq_xorBits b
    _ = xorBits b (fun i => reduced (a.setWidth 16 <<< i)) 0#8 := xorBits_congr b (fun i hi => gfmul_bit a hi) _
    _ = reduced (carrylessProduct a b) := (map_xorBits reduced_xor b (fun i => a.setWidth 16 <<< i) 0#16).symm

/-! ## Division (R88) -/

theorem gfmul_left_cancel {a b c : Byte} (ha : a ≠ 0#8) (h : gfmul builtTables a b = gfmul builtTables a c) :
    b = c := by
  by_contra hne
  refine gfmul_ne_zero ha (mt BitVec.xor_eq_zero_iff.mp hne) ?_
  rw [gfmul_xor, h, BitVec.xor_self]

theorem gfdiv_gfmul (a b : Byte) (hb : b ≠ 0#8) : gfdiv builtTables (gfmul builtTables a b) b hb = a :=
  gfmul_left_cancel hb ((gfmul_gfdiv _ b hb).trans (gfmul_comm _ a b))

/-- Settles O20: addition is exclusive-or; the multiplicative laws are those of exponents of x; the polynomial product
is compared bit by bit. -/
theorem bytesFormTheField : Obligations.BytesFormTheField :=
  ⟨BitVec.xor_assoc, BitVec.xor_comm, fun _ => BitVec.xor_zero, fun _ => BitVec.xor_self, gfmul_mul_assoc,
    gfmul_comm builtTables, fun a => (gfmul_comm _ a _).trans (one_gfmul a), gfmul_zero builtTables, gfmul_xor,
    fun a b hb => ⟨(gfmul_comm _ _ b).trans (gfmul_gfdiv a b hb), gfdiv_gfmul a b hb⟩,
    fun _ _ => gfmul_ne_zero, gfmul_eq_reduced⟩

end Sys2Proof.Proofs
end

section
/-!
PROOF. The matrices (`41_matrix_builder.md` R101, R106; `44_decoder.md` R153, R154): `build_gm` from V, any k rows of
it, and the decoding matrix as such a choice of rows.
-/

namespace Sys2Proof.Proofs
open Sys2Proof.Machine Sys2Proof.Claims Sys2Proof.Laws

/-! ## Rows of a matrix -/

/-- The matrix of the chosen rows of M, in the order of the choice. -/
def rowsOf {n k m : Nat} (M : Mat n m) (rows : Fin k → Fin n) : Mat k m := matrixOf fun i j => entry M (rows i) j

@[simp] theorem entry_rowsOf {n k m : Nat} (M : Mat n m) (rows : Fin k → Fin n) (i : Fin k) (j : Fin m) :
    entry (rowsOf M rows) i j = entry M (rows i) j := entry_matrixOf _ i j

theorem rowsOf_matmul (t : Tables) {n k m q : Nat} (A : Mat n m) (B : Mat m q) (rows : Fin k → Fin n) :
    rowsOf (matmul t A B) rows = matmul t (rowsOf A rows) B :=
  matrix_ext fun i j => by simp [matmul]

/-! ## `build_gm` from V (R101) -/

/-- R101 with `ELEM(i) = i + 1`. -/
theorem entry_vandermonde {t : Tables} {n k : Nat} (i : Fin n) (j : Fin k) :
    entry (vandermonde t Config.elem n k) i j = gfpow t (BitVec.ofNat 8 (i.val + 1)) j.val := entry_matrixOf _ i j

/-- V for n rows is the first n rows of V for more rows. -/
theorem rowsOf_vandermonde {t : Tables} {elem : Nat → Byte} {n m k : Nat} (hnm : n ≤ m) :
    rowsOf (vandermonde t elem m k) (Fin.castLE hnm) = vandermonde t elem n k :=
  matrix_ext fun i j => by simp [vandermonde]

theorem topRows_vandermonde {t : Tables} {elem : Nat → Byte} {n m k : Nat} (hkn : k ≤ n) (hnm : n ≤ m) :
    topRows (hkn.trans hnm) (vandermonde t elem m k) = topRows hkn (vandermonde t elem n k) := by
  rw [← rowsOf_vandermonde (n := n) hnm]
  exact matrix_ext fun i j => by simp

/-- `build_gm(n, k)` is V times the inverse of its top block. -/
theorem buildGm_eq_some_iff {t : Tables} {elem : Nat → Byte} {n k : Nat} {hkn : k ≤ n} {G : Mat n k} :
    buildGm t elem n k hkn = some G ↔ ∃ Ti, matinv t (topRows hkn (vandermonde t elem n k)) = some Ti ∧
      matmul t (vandermonde t elem n k) Ti = G := Option.map_eq_some_iff

theorem rowsOf_buildGm {elem : Nat → Byte} {n m k : Nat} {hkn : k ≤ n} {hnm : n ≤ m} {G : Mat n k} {G' : Mat m k}
    (hG : buildGm builtTables elem n k hkn = some G)
    (hG' : buildGm builtTables elem m k (hkn.trans hnm) = some G') : rowsOf G' (Fin.castLE hnm) = G := by
  obtain ⟨Ti, hTi, rfl⟩ := buildGm_eq_some_iff.mp hG
  obtain ⟨Ti', hTi', rfl⟩ := buildGm_eq_some_iff.mp hG'
  rw [topRows_vandermonde hkn hnm, hTi] at hTi'
  cases hTi'
  rw [rowsOf_matmul, rowsOf_vandermonde]

theorem matmul_assoc {p q r s : Nat} (A : Mat p q) (B : Mat q r) (C : Mat r s) :
    matmul builtTables (matmul builtTables A B) C = matmul builtTables A (matmul builtTables B C) := by
  obtain ⟨K, _, φ, h⟩ := exists_field
  exact h.readMat_injective (by simp only [h.readMat_matmul, Matrix.mul_assoc])

theorem matmul_identity {p q : Nat} (A : Mat p q) : matmul builtTables A (identity q) = A := by
  obtain ⟨K, _, φ, h⟩ := exists_field
  exact h.readMat_injective (by rw [h.readMat_matmul, h.readMat_identity, Matrix.mul_one])

theorem matmul_buildGm_topRows {elem : Nat → Byte} {n k : Nat} {hkn : k ≤ n} {G : Mat n k}
    (hG : buildGm builtTables elem n k hkn = some G) :
    matmul builtTables G (topRows hkn (vandermonde builtTables elem n k)) = vandermonde builtTables elem n k := by
  obtain ⟨Ti, hTi, rfl⟩ := buildGm_eq_some_iff.mp hG
  rw [matmul_assoc, (matinv_eq_some_iff.mp hTi).2, matmul_identity]

/-- Settles O24: V for n rows is the first n rows of V for 255, with the same top block. -/
theorem generatorMatrixConstruction : Obligations.GeneratorMatrixConstruction := by
  intro n k hkn hn hk
  obtain ⟨G, hG⟩ := exists_buildGm hkn hn
  obtain ⟨G', hG'⟩ := exists_buildGm (hkn.trans hn) (le_refl 255)
  refine ⟨G, G', hG, hG', ⟨vandermonde builtTables Config.elem n k,
    topRows hkn (vandermonde builtTables Config.elem n k), entry_vandermonde, entry_topRows hkn _,
    matmul_buildGm_topRows hG⟩, fun i j => ?top, fun i j => ?firstRows⟩
  case top => rw [← entry_topRows hkn, topRows_buildGm hG, entry_identity]
  case firstRows => rw [← rowsOf_buildGm (hnm := hn) hG hG', entry_rowsOf]

/-! ## Any k rows are invertible (R106) -/

theorem exists_matinv_iff_det_ne_zero {K : Type} [Field K] {φ : Byte → K} (h : ReadsAsField builtTables K φ) {k : Nat}
    {M : Mat k k} : (∃ X, matinv builtTables M = some X) ↔ (readMat φ M).det ≠ 0 :=
  ⟨fun ⟨_, hX⟩ => Matrix.det_ne_zero_of_left_inverse (h.mul_of_matinv_eq_some hX), h.exists_matinv_of_det_ne_zero⟩

theorem exists_matinv_matmul {k : Nat} {A B : Mat k k} (hA : ∃ X, matinv builtTables A = some X)
    (hB : ∃ X, matinv builtTables B = some X) : ∃ X, matinv builtTables (matmul builtTables A B) = some X := by
  obtain ⟨K, _, φ, h⟩ := exists_field
  rw [exists_matinv_iff_det_ne_zero h] at hA hB ⊢
  rw [h.readMat_matmul, Matrix.det_mul]
  exact mul_ne_zero hA hB

/-- An inverse has an inverse, the matrix it inverts. -/
theorem exists_matinv_of_matinv {k : Nat} {M X : Mat k k} (h : matinv builtTables M = some X) :
    ∃ Y, matinv builtTables X = some Y :=
  ⟨M, matinv_eq_some_iff.mpr (matinv_eq_some_iff.mp h).symm⟩

/-- k rows of `build_gm(n, k)` are the same rows of V, times the inverse of its top block. -/
theorem exists_matinv_buildGm_rows {n k : Nat} {hkn : k ≤ n} (hn : n ≤ 255) {G : Mat n k}
    (hG : buildGm builtTables Config.elem n k hkn = some G) {rows : Fin k → Fin n} (hRows : Function.Injective rows) :
    ∃ X, matinv builtTables (rowsOf G rows) = some X := by
  obtain ⟨Ti, hTi, rfl⟩ := buildGm_eq_some_iff.mp hG
  rw [rowsOf_matmul]
  exact exists_matinv_matmul (exists_matinv_vandermonde_rows hn hRows) (exists_matinv_of_matinv hTi)

/-! ## The decoding matrix (R153, R154) -/

theorem unrecoverable_of_decodable {s : State} {d : Descriptor} (h : Decodable s d) : unrecoverable d s = false := by
  obtain ⟨-, -, hSurvive⟩ := h
  rwa [unrecoverable_eq_false, length_erasedSources, length_survivingParity]

theorem erasedAt_eq_iff {s : State} {n : Byte} {i : Fin n.toNat} {e : Bool} :
    s.emap[i.val]? = some e ↔ erasedAt s i = e := by rw [emap_getElem?, Option.some_inj]

/-- An erased position has as many erased positions below it as its rank in E. -/
theorem rank_of_erased {d : Descriptor} {s : State} {t : Nat} (ht : t < (erasedSources d s).length) :
    (erased s 0 (erasedSources d s)[t].val).length = t := by
  have hErased := mem_erasedSources.mp (List.getElem_mem ht)
  have hRank : (erased s 0 d.k.toNat)[(erased s 0 (erasedSources d s)[t].val).length]? =
      some (erasedSources d s)[t].val :=
    getElem?_filter_range _ (erasedSources d s)[t].isLt (by simp [erasedAt_eq_iff.mpr hErased])
  obtain ⟨hLt, hGet⟩ := List.getElem?_eq_some_iff.mp hRank
  have hNodup : (erased s 0 d.k.toNat).Nodup := List.nodup_range.filter _
  have ht' : t < (erased s 0 d.k.toNat).length := by rwa [← length_erasedSources]
  refine (hNodup.getElem_inj_iff (hi := hLt) (hj := ht')).mp ?_
  rw [hGet]
  simp only [← map_val_erasedSources, List.getElem_map]

/-- R153: the t-th erased source position takes the t-th surviving parity position. -/
theorem sourceOf_eq_source {d : Descriptor} {s : State} (hu : unrecoverable d s = false) (j : Fin d.k.toNat) :
    sourceOf d s j = source d s j := by
  cases hj : erasedAt s j with
  | false => rw [sourceOf_of_valid hj, source, if_neg (by rw [erasedAt_eq_iff, hj]; decide)]
  | true =>
    obtain ⟨t, ht, hp, rfl, hSub⟩ := substitute_of_erased hu hj
    rw [source, if_pos (erasedAt_eq_iff.mpr hj), rank_of_erased ht, ← map_val_survivingParity, sourceOf, hSub]
    simp [hp]

section DecodingMatrix
variable {d : Descriptor} {s : State} (hDesc : s.DescOk) (hd : s.desc = some d)
include hDesc hd

theorem entry_decodingMatrix_eq_gm_of_valid {j : Fin d.k.toNat} (hj : erasedAt s j = false) {p : Fin d.n.toNat}
    (hp : p.val = j.val) (c : Fin d.k.toNat) : entry (decodingMatrix d s) j c = entry d.gm p c := by
  rw [entry_decodingMatrix_of_valid hj, entry_identity, entry_gm_of_descOk hDesc hd (hp ▸ j.isLt), hp]
  simp only [Fin.ext_iff]

/-- With a descriptor that `CREATE` built the decoding matrix is the rows `src(j)` of `GM`. -/
theorem entry_decodingMatrix_eq_gm (hu : unrecoverable d s = false) (j : Fin d.k.toNat) :
    ∃ p : Fin d.n.toNat, sourceOf d s j = p.val ∧ erasedAt s p = false ∧
      ∀ c, entry (decodingMatrix d s) j c = entry d.gm p c := by
  cases hj : erasedAt s j with
  | false =>
    obtain ⟨-, -, hkn, -⟩ := hDesc d hd
    exact ⟨Fin.castLE hkn j, sourceOf_of_valid hj, hj, entry_decodingMatrix_eq_gm_of_valid hDesc hd hj rfl⟩
  | true =>
    obtain ⟨p, hp, -, hValid, hRow⟩ := sourceOf_of_erased hu hj
    exact ⟨p, hp, hValid, hRow⟩

theorem exists_matinv_decodingMatrix (hu : unrecoverable d s = false) :
    ∃ X, matinv builtTables (decodingMatrix d s) = some X := by
  obtain ⟨-, -, hkn, hG⟩ := hDesc d hd
  choose rows hSource hValid hRow using entry_decodingMatrix_eq_gm hDesc hd hu
  have hRows : Function.Injective rows := fun i j h =>
    sourceOf_injective hu (by rw [hSource, hSource, h])
  have hMatrix : decodingMatrix d s = rowsOf d.gm rows := matrix_ext fun i j => by rw [hRow, entry_rowsOf]
  rw [hMatrix]
  exact exists_matinv_buildGm_rows (Nat.le_of_lt_succ d.n.isLt) hG hRows

end DecodingMatrix

/-- Settles O26: k rows of V have distinct row elements, k rows of `GM` are such rows times an invertible matrix, and
the decoding matrix is k rows of `GM`. -/
theorem anyKRowsAreInvertible : Obligations.AnyKRowsAreInvertible := by
  refine ⟨fun n k hkn hk hn rows hRows => ⟨?vandermonde, ?generator⟩, fun s d hDesc hDecodable => ?decoding⟩
  case vandermonde => exact Option.ne_none_iff_exists'.mpr (exists_matinv_vandermonde_rows hn hRows)
  case generator =>
    obtain ⟨G, hG⟩ := exists_buildGm hkn hn
    exact ⟨G, hG, Option.ne_none_iff_exists'.mpr (exists_matinv_buildGm_rows hn hG hRows)⟩
  case decoding =>
    exact Option.ne_none_iff_exists'.mpr
      (exists_matinv_decodingMatrix hDesc hDecodable.1 (unrecoverable_of_decodable hDecodable))

/-- Settles O36: `src` by rank is the model's pairing of the two ascending lists. -/
theorem decodingMatrixRows : Obligations.DecodingMatrixRows := by
  intro s d hDecodable j
  have hu := unrecoverable_of_decodable hDecodable
  have hSource := sourceOf_eq_source hu j
  refine ⟨hSource, fun hErased => ?erased, fun hValid => ?valid⟩
  case erased =>
    obtain ⟨p, hp, hkp, hSurvives, hRow⟩ := sourceOf_of_erased hu (erasedAt_eq_iff.mp hErased)
    exact ⟨p, by rw [← hSource, hp], hkp, erasedAt_eq_iff.mpr hSurvives, hRow⟩
  case valid =>
    rw [erasedAt_eq_iff] at hValid
    refine ⟨by rw [← hSource, sourceOf_of_valid hValid], fun c => ?_, fun hDesc => ?_⟩
    · rw [entry_decodingMatrix_of_valid hValid, entry_identity]
    · obtain ⟨-, -, hkn, -⟩ := hDesc d hDecodable.1
      exact ⟨Fin.castLE hkn j, rfl, entry_decodingMatrix_eq_gm_of_valid hDesc hDecodable.1 hValid rfl⟩

end Sys2Proof.Proofs
end

section
/-!
PROOF. The invariant (`60_exceptions.md` R177, `20_memory.md` R41): it holds at reset and every step keeps it, with
`FATAL = 0`, because no matrix that a command inverts in a sound state is singular.
-/

namespace Sys2Proof.Proofs
open Sys2Proof.Machine Sys2Proof.Claims Sys2Proof.Laws

/-! ## Reset -/

/-- Settles O54: at reset there are no tables, no descriptor and no listed byte. -/
theorem resetIsHealthy : Obligations.ResetIsHealthy where
  inv := {
    response := ⟨⟨.ok, rfl⟩, fun _ => rfl⟩
    tables := fun _ h => nomatch h
    desc := fun _ h => nomatch h
    memory := wf_nil }
  notFatal := rfl

/-! ## The ends of a command -/

theorem inv_respond {u : State} (hu : u.Inv) {x : Status} {v : Byte} (h : x = .ok ∨ v = 0x00#8) :
    (respond x v u).Inv where
  response := responseOk_respond h u
  tables := hu.tables
  desc := hu.desc
  memory := hu.memory

theorem inv_raise {u : State} (hu : u.Inv) (x : Status) : (raise x u).Inv := inv_respond hu (.inr rfl)

theorem inv_done {u : State} (hu : u.Inv) (v : Byte) : (done v u).Inv := inv_respond hu (.inl rfl)

/-- `FATAL` is no part of the invariant. -/
theorem inv_raiseSingular {u : State} (hu : u.Inv) : (raiseSingular u).Inv :=
  { inv_raise hu .singularMatrix with }

/-! ## The lazy build -/

theorem inv_ensureTables {s : State} (hs : s.Inv) : (ensureTables s).Inv where
  response := hs.response
  tables T hT := by
    rw [ensureTables_tables, tablesNow_of_tablesOk hs.tables] at hT
    exact (Option.some.inj hT).symm
  desc d hd := ⟨rfl, (hs.desc d hd).2⟩
  memory := hs.memory

theorem inv_begun (i : Instr) {s : State} (hs : s.Inv) : (begun i s).Inv := by
  rw [begun_eq_ite]
  split
  · exact inv_ensureTables hs
  · exact hs

/-! ## The effects -/

theorem inv_setDescriptor {s : State} (hs : s.Inv) {n k : Nat} (h : 2 ≤ k ∧ k ≤ n ∧ n ≤ 255) {G : Mat n k}
    (hG : buildGm s.tablesNow Config.elem n k h.2.1 = some G) (hn : n < 2 ^ 8) (hk : k < 2 ^ 8) :
    (setDescriptor hn hk G (ensureTables s)).Inv where
  response := hs.response
  tables := (inv_ensureTables hs).tables
  desc d hd := by
    rw [setDescriptor_desc] at hd
    cases hd
    rw [tablesNow_of_tablesOk hs.tables] at hG
    exact ⟨rfl, h.1, h.2.1, hG⟩
  memory := hs.memory

theorem inv_of_wf {s : State} (hs : s.Inv) {m : Memory} (hm : Memory.wf m = true) :
    ({ s with dmem := m } : State).Inv :=
  ⟨hs.response, hs.tables, hs.desc, hm⟩

theorem wf_encodedMemory {s : State} (hs : s.Inv) {d : Descriptor} (p : Fin d.n.toNat)
    (hRange : (regionOut s).inRange Config.memBytes = true) : Memory.wf (encodedMemory d p s) = true :=
  wf_writeBlock _ _ _ hs.memory (inRange_eq_true.mp hRange)

/-- A source block lies in the region of the first K blocks, wherever that region ends. -/
theorem addrInl_add_len_le {s : State} {e m bound : Nat} (he : e < m)
    (hRange : m * s.len.toNat = 0 ∨ s.baseA.toNat + m * s.len.toNat ≤ bound) :
    s.len.toNat = 0 ∨ addrInl s e + s.len.toNat ≤ bound := by
  have hBlock : (e + 1) * s.len.toNat ≤ m * s.len.toNat := Nat.mul_le_mul_right _ he
  rw [Nat.succ_mul] at hBlock
  rw [addrInl]
  omega

theorem wf_reconstructedMemory {s : State} (hs : s.Inv) {d : Descriptor} {addr : Nat → Nat}
    (inv : Mat d.k.toNat d.k.toNat)
    (hRange : ∀ e < d.k.toNat, s.len.toNat = 0 ∨ addr e + s.len.toNat ≤ Config.memBytes) :
    Memory.wf (reconstructedMemory d addr inv s) = true :=
  wf_foldl_writeBlock _ (fun e : Fin d.k.toNat => addr e.val) _ _ hs.memory fun e _ => hRange e.val e.isLt

theorem inv_decodeEffect {s u : State} (hs : s.Inv) {d : Descriptor} {addr : Nat → Nat} {rs : List Region}
    (h : DecodeEffect d addr rs s u)
    (hRange : s.desc = some d → rs.all (Region.inRange Config.memBytes) = true →
      ∀ e < d.k.toNat, s.len.toNat = 0 ∨ addr e + s.len.toNat ≤ Config.memBytes) : u.Inv := by
  obtain ⟨hd, -, -, hRegions, -, ⟨-, rfl⟩ | ⟨inv, -, rfl⟩⟩ := h
  · exact hs
  · exact inv_of_wf hs (wf_reconstructedMemory hs inv (hRange hd hRegions))

theorem inv_effect {i : Instr} {s u : State} {v : Byte} (hs : s.Inv) (hEffect : Effect i s v u) : u.Inv := by
  cases i with
  | nop | gfadd | gfsub =>
    obtain ⟨-, rfl⟩ := hEffect
    exact hs
  | gfmul | gfdiv | logrd | alogrd =>
    obtain ⟨-, rfl⟩ := hEffect
    exact inv_ensureTables hs
  | create n k =>
    obtain ⟨-, -, hLegal, G, hG, rfl⟩ := hEffect
    exact inv_setDescriptor hs hLegal hG _ _
  | destroy =>
    obtain ⟨-, -, rfl⟩ := hEffect
    exact ⟨hs.response, hs.tables, fun _ h => (nomatch h), hs.memory⟩
  | gmrd row col =>
    obtain ⟨rfl, -⟩ := hEffect
    exact hs
  | setl | setbasea | setbaseb | setout | emclr =>
    obtain ⟨-, rfl⟩ := hEffect
    exact ⟨hs.response, hs.tables, hs.desc, hs.memory⟩
  | setblen | emset | emval =>
    obtain ⟨-, -, rfl⟩ := hEffect
    exact ⟨hs.response, hs.tables, hs.desc, hs.memory⟩
  | encodeBlock p =>
    obtain ⟨-, d, -, hp, -, -, hRange, -, rfl⟩ := hEffect
    exact inv_of_wf hs (wf_encodedMemory hs ⟨p, hp.2⟩ hRange)
  | decinl =>
    obtain ⟨-, d, hDecode⟩ := hEffect
    refine inv_decodeEffect hs hDecode fun hd hRegions e he => ?_
    obtain ⟨-, -, hkn, -⟩ := hs.desc d hd
    exact addrInl_add_len_le (he.trans_le hkn) (by simpa [inRange_eq_true] using hRegions)
  | decapp =>
    obtain ⟨-, d, hDecode⟩ := hEffect
    refine inv_decodeEffect hs hDecode fun hd hRegions e he => ?_
    rw [addrApp_of_lt s he]
    simp only [List.all_cons, Bool.and_eq_true] at hRegions
    exact addrInl_add_len_le he (inRange_eq_true.mp hRegions.1)

/-! ## A singular matrix is unreachable (R177) -/

theorem not_meetsSingular {i : Instr} {s : State} (hs : s.Inv) : ¬ MeetsSingular i s := by
  intro hSingular
  cases i with
  | create n k =>
    obtain ⟨-, hLegal, hNone⟩ := hSingular
    obtain ⟨G, hG⟩ := exists_buildGm hLegal.2.1 hLegal.2.2
    rw [tablesNow_of_tablesOk hs.tables, hG] at hNone
    cases hNone
  | decinl | decapp =>
    obtain ⟨d, hd, hu, hNone⟩ := hSingular
    obtain ⟨X, hX⟩ := exists_matinv_decodingMatrix hs.desc hd hu
    rw [tablesNow_of_tablesOk hs.tables, hX] at hNone
    cases hNone
  | _ => exact hSingular

/-! ## Every command, every word, every step -/

theorem inv_of_exec {i : Instr} {s t : State} (hs : s.Inv) (hExec : exec i s = .next t) : t.Inv := by
  rcases exec_cases hExec with ⟨-, rfl⟩ | ⟨-, ⟨x, -, rfl⟩ | ⟨-, rfl⟩ | ⟨v, u, hEffect, rfl⟩⟩
  · exact inv_raise hs _
  · exact inv_raise (inv_begun i hs) x
  · exact inv_raiseSingular (inv_begun i hs)
  · exact inv_done (inv_effect hs hEffect) v

theorem fatal_of_exec {i : Instr} {s t : State} (hs : s.Inv) (hExec : exec i s = .next t) : t.fatal = s.fatal := by
  rcases exec_cases hExec with ⟨-, rfl⟩ | ⟨-, ⟨x, -, rfl⟩ | ⟨hSingular, rfl⟩ | ⟨v, u, hEffect, rfl⟩⟩
  · rfl
  · exact (writesOwnState_begun i s).fatal
  · exact absurd hSingular (not_meetsSingular hs)
  · exact (writesOwnState_effect hEffect).fatal

theorem inv_of_execute {cw : Word} {s t : State} (hs : s.Inv) (hExecute : execute cw s = .next t) : t.Inv := by
  cases hDecode : decode cw with
  | illegal why =>
    have hResponse := responseOk_of_execute hExecute
    rw [execute_of_illegal_eq_ite s hDecode] at hExecute
    cases hExecute
    exact { hs with response := hResponse }
  | command i => exact inv_of_exec hs (execute_eq_exec hDecode s ▸ hExecute)

theorem fatal_of_execute {cw : Word} {s t : State} (hs : s.Inv) (hExecute : execute cw s = .next t) :
    t.fatal = s.fatal := by
  cases hDecode : decode cw with
  | illegal why =>
    rw [execute_of_illegal_eq_ite s hDecode] at hExecute
    cases hExecute
    rfl
  | command i => exact fatal_of_exec hs (execute_eq_exec hDecode s ▸ hExecute)

/-- The port is no part of the invariant. -/
theorem inv_taken {s : State} (hs : s.Inv) : (taken s).Inv := ⟨hs.response, hs.tables, hs.desc, hs.memory⟩

/-- Settles O53: of the five things a step can do only a command and a host write touch what the invariant speaks of,
beside reset. -/
theorem stepKeepsTheInvariant : Obligations.StepKeepsTheInvariant := by
  intro s t hs hStep
  rcases step_cases hStep with ⟨-, rfl⟩ | ⟨cw, rest, -, hExecute⟩ | ⟨a, v, rest, -, rfl⟩ | ⟨a, rest, -, rfl⟩ |
    ⟨rest, -, rfl⟩
  · exact hs
  · exact inv_of_execute (inv_taken hs) hExecute
  · exact inv_of_wf (inv_taken hs) (wf_write v hs.memory (addr_lt_memBytes a))
  · exact ⟨hs.response, hs.tables, hs.desc, hs.memory⟩
  · exact { resetIsHealthy.inv with memory := hs.memory }

/-- Settles O55: of the five things a step can do only a command can set `FATAL`, and only at a singular matrix. -/
theorem noStepSetsFatal : Obligations.NoStepSetsFatal := by
  intro s t hs hStep
  rcases step_cases hStep with ⟨-, rfl⟩ | ⟨cw, rest, -, hExecute⟩ | ⟨a, v, rest, -, rfl⟩ | ⟨a, rest, -, rfl⟩ |
    ⟨rest, -, rfl⟩
  · exact hs.notFatal
  · exact (fatal_of_execute (inv_taken hs.inv) hExecute).trans hs.notFatal
  · exact hs.notFatal
  · exact hs.notFatal
  · rfl

theorem healthy_of_step {s t : State} (hs : s.Healthy) (hStep : step s = .next t) : t.Healthy :=
  ⟨stepKeepsTheInvariant s t hs.inv hStep, noStepSetsFatal s t hs hStep⟩

/-- The induction over the steps of a run, once. -/
theorem run_of_healthy {s : State} (hs : s.Healthy) (steps : Nat) :
    ∃ t : State, core.run steps s = .next t ∧ t.Healthy := by
  induction steps generalizing s with
  | zero => exact ⟨s, rfl, hs⟩
  | succ steps ih =>
    obtain ⟨t, hStep⟩ := exists_step_eq_next s
    rw [run_succ (M := core) steps hStep]
    exact ih (healthy_of_step hs hStep)

/-- Settles O56: a port full of actions is no part of the invariant, so the run starts in a healthy state. -/
theorem noHostCanBreakTheMachine : Obligations.NoHostCanBreakTheMachine := by
  intro acts
  have hStart : ({ State.reset with port := acts } : State).Healthy := ⟨{ resetIsHealthy.inv with }, rfl⟩
  refine ⟨fun steps => ?_, fun steps t hRun => ?_⟩ <;> obtain ⟨u, hRun', hu⟩ := run_of_healthy hStart steps
  · exact ⟨u, hRun'⟩
  · cases hRun'.symm.trans hRun
    exact hu

end Sys2Proof.Proofs
end

section
/-!
PROOF. What `ENCODE` writes (`43_encoder.md` R140, R142; `20_memory.md` R46): the output block, from the source blocks,
which it does not meet.
-/

namespace Sys2Proof.Proofs
open Sys2Proof.Machine Sys2Proof.Claims Sys2Proof.Laws

/-! ## A command that succeeds -/

theorem code_ne_zero_of_mem_ownErrors {i : Instr} {x : Status} (hx : x ∈ ownErrors i) : x.code ≠ 0x00#8 := by
  have hOk : Status.ok ∉ ownErrors i := by cases i <;> simp [ownErrors]
  have hCode : x.code = 0x00#8 ↔ x = .ok := by cases x <;> decide
  exact mt hCode.mp (ne_of_mem_of_not_mem hx hOk)

/-- `STATUS` is 0 only after the command's own effect, outside the fatal state. -/
theorem effect_of_status_ok {i : Instr} {s t : State} (hExec : exec i s = .next t) (hOk : t.status = 0x00#8) :
    s.fatal = false ∧ ∃ v u, Effect i s v u ∧ t = done v u := by
  rcases exec_cases hExec with ⟨-, rfl⟩ | ⟨hFatal, ⟨x, hx, rfl⟩ | ⟨-, rfl⟩ | hEffect⟩
  · cases hOk
  · exact absurd hOk (code_ne_zero_of_mem_ownErrors hx)
  · cases hOk
  · exact ⟨hFatal, hEffect⟩

/-! ## When `ENCODE` succeeds (R141) -/

/-- Every test of R141 passes. -/
structure EncodeReady (p : Nat) (d : Descriptor) (s : State) : Prop where
  desc : s.desc = some d
  index : d.k.toNat ≤ p ∧ p < d.n.toNat
  lengths : sourceLengthsAgree d s = true
  sourcesInRange : (regionSources d s).inRange Config.memBytes = true
  outInRange : (regionOut s).inRange Config.memBytes = true
  apart : (regionSources d s).overlaps (regionOut s) = false

theorem exec_encodeBlock_of_ready {p : Nat} {d : Descriptor} {s : State} (hFatal : s.fatal = false)
    (h : EncodeReady p d s) :
    exec (.encodeBlock p) s = .next (answered 0x00#8 { s with dmem := encodedMemory d ⟨p, h.index.2⟩ s }) := by
  simp only [exec_encodeBlock hFatal, encodeOwn, h.desc, dif_pos h.index, if_neg (not_not.mpr h.lengths),
    if_neg (not_not.mpr (And.intro h.sourcesInRange h.outInRange)), h.apart, Bool.false_eq_true, if_false,
    done_eq_answered]

theorem ready_of_exec_encodeBlock {p : Nat} {s t : State} (hExec : exec (.encodeBlock p) s = .next t)
    (hOk : t.status = 0x00#8) : s.fatal = false ∧ ∃ d, ∃ h : EncodeReady p d s,
      t = answered 0x00#8 { s with dmem := encodedMemory d ⟨p, h.index.2⟩ s } := by
  obtain ⟨hFatal, v, u, ⟨rfl, d, hd, hp, hLengths, hSources, hOut, hApart, rfl⟩, rfl⟩ := effect_of_status_ok hExec hOk
  exact ⟨hFatal, d, ⟨hd, hp, hLengths, hSources, hOut, hApart⟩, rfl⟩

/-- The statements' premises are the model's tests, also where K = 0, since they are only needed in one direction. -/
theorem encodeReady_of_premises {p : Nat} {d : Descriptor} {s : State} (hd : s.desc = some d)
    (hp : d.k.toNat ≤ p ∧ p < d.n.toNat) (hLengths : LengthsAgree s (List.range d.k.toNat)) (hRange : EncInRange s d)
    (hApart : ¬ EncOverlap s d) : EncodeReady p d s where
  desc := hd
  index := hp
  lengths := sourceLengthsAgree_iff.mpr hLengths
  sourcesInRange := inRange_eq_true.mpr (hRange.imp (fun h => by rw [regionSources_length, h, Nat.mul_zero]) (·.1))
  outInRange := inRange_eq_true.mpr (hRange.imp id (·.2))
  apart := by
    rw [Bool.eq_false_iff, ne_eq, overlaps_eq_true]
    exact fun ⟨_, hLen, hSources, hOut⟩ => hApart ⟨hLen, hOut, hSources⟩

/-! ## The bytes after `ENCODE` -/

section Bytes
variable {d : Descriptor} {s : State}

theorem read_encodedMemory_inside (p : Fin d.n.toNat) {b : Nat} (hb : b < s.len.toNat) :
    Memory.read (encodedMemory d p s) (s.outBase.toNat + b) =
      combinedByte s.tablesNow (entry d.gm p) s.dmem (fun j => addrSrc s j) b :=
  read_writeBlock_inside _ _ _ _ hb

theorem read_encodedMemory_outside (p : Fin d.n.toNat) {c : Nat} (hc : ¬ Holds s s.outBase.toNat c) :
    Memory.read (encodedMemory d p s) c = Memory.read s.dmem c :=
  read_writeBlock_outside _ _ _ _ hc

theorem combinedByte_congr {t : Tables} {k : Nat} {row : Fin k → Byte} {m m' : Memory} {addr addr' : Fin k → Nat}
    {b : Nat} (h : ∀ j, Memory.read m (addr j + b) = Memory.read m' (addr' j + b)) :
    combinedByte t row m addr b = combinedByte t row m' addr' b := by
  simp only [combinedByte, h]

/-- No byte of a source block is one of the output block's (R53). -/
theorem not_holds_out_of_source {p : Nat} (h : EncodeReady p d s) {j b : Nat} (hj : j < d.k.toNat)
    (hb : b < s.len.toNat) : ¬ Holds s s.outBase.toNat (addrSrc s j + b) := by
  intro hHolds
  have hByte := mul_add_lt hj hb
  have hApart := h.apart
  rw [Bool.eq_false_iff, ne_eq, overlaps_eq_true] at hApart
  simp only [regionSources_length, regionSources_start, regionOut_length, regionOut_start] at hApart
  obtain ⟨hLow, hHigh⟩ := hHolds
  rw [addrSrc] at hLow hHigh
  exact hApart ⟨by omega, by omega, by omega, by omega⟩

theorem read_encodedMemory_source {p : Nat} (h : EncodeReady p d s) {j b : Nat} (hj : j < d.k.toNat)
    (hb : b < s.len.toNat) :
    Memory.read (encodedMemory d ⟨p, h.index.2⟩ s) (addrSrc s j + b) = Memory.read s.dmem (addrSrc s j + b) :=
  read_encodedMemory_outside _ (not_holds_out_of_source h hj hb)

end Bytes

/-- Settles O32: the premises are the tests of R141, and the command writes one block. -/
theorem encodeWritesTheParityBlock : Obligations.EncodeWritesTheParityBlock := by
  intro p s d hFatal hTables hd hkp hp hLengths hRange hApart
  have hReady := encodeReady_of_premises hd ⟨hkp, hp⟩ hLengths hRange hApart
  refine ⟨decode_word_of_row_A (make := fun a => .encodeBlock a.toNat) p (by simp [opcodeTable]), _,
    exec_encodeBlock_of_ready hFatal hReady, rfl, fun b hb => ?_, fun c hc => read_encodedMemory_outside _ hc⟩
  refine (read_encodedMemory_inside _ hb).trans ?_
  rw [tablesNow_of_tablesOk hTables]
  rfl

/-- Settles O34: byte b of the output combines byte b of the source blocks, and those lie outside the output block. -/
theorem encodeIsAPureFunctionOfItsBlocks : Obligations.EncodeIsAPureFunctionOfItsBlocks := by
  intro p s₁ s₂ t₁ t₂ d hTables₁ hTables₂ hd₁ hd₂ hLen hExec₁ hExec₂ hOk₁ hOk₂ b hb
  obtain ⟨-, d₁, hReady₁, rfl⟩ := ready_of_exec_encodeBlock hExec₁ hOk₁
  obtain ⟨-, d₂, hReady₂, rfl⟩ := ready_of_exec_encodeBlock hExec₂ hOk₂
  cases hd₁.symm.trans hReady₁.desc
  cases hd₂.symm.trans hReady₂.desc
  refine ⟨fun hSame => ?_, fun j hj => read_encodedMemory_source hReady₁ hj hb⟩
  refine (read_encodedMemory_inside _ hb).trans (Eq.trans ?_ (read_encodedMemory_inside _ (hLen ▸ hb)).symm)
  rw [tablesNow_of_tablesOk hTables₁, tablesNow_of_tablesOk hTables₂]
  exact combinedByte_congr fun j => hSame j j.isLt

/-! ## Byte by byte in any order (R46, log entry 9) -/

/-- Writing one byte after another, each computed from the memory so far by an `f` that sees nothing of the block being
written, gives what `f` computes from the memory before. -/
theorem read_foldl_write {base len : Nat} {m : Memory} {f : Memory → Nat → Byte}
    (hf : ∀ m', (∀ c, ¬ (base ≤ c ∧ c < base + len) → Memory.read m' c = Memory.read m c) → ∀ b < len, f m' b = f m b)
    {order : List Nat} (hOrder : ∀ b ∈ order, b < len) {m' : Memory}
    (hm' : ∀ c, ¬ (base ≤ c ∧ c < base + len) → Memory.read m' c = Memory.read m c) (c : Nat) :
    Memory.read (order.foldl (fun m b => Memory.write m (base + b) (f m b)) m') c =
      if base ≤ c ∧ c - base ∈ order then f m (c - base) else Memory.read m' c := by
  induction order generalizing m' with
  | nil => simp
  | cons b order ih =>
    have hb : b < len := hOrder b List.mem_cons_self
    have hWrite : ∀ c, ¬ (base ≤ c ∧ c < base + len) →
        Memory.read (Memory.write m' (base + b) (f m' b)) c = Memory.read m c := fun c hc => by
      rw [read_write, if_neg (by omega), hm' c hc]
    rw [List.foldl_cons, ih (fun b' hb' => hOrder b' (List.mem_cons_of_mem _ hb')) hWrite, read_write, hf m' hm' b hb]
    by_cases hc : c = base + b
    · subst hc
      simp
    · have hne : base ≤ c → c - base ≠ b := by omega
      by_cases hLow : base ≤ c
      · simp [hc, hLow, hne hLow]
      · simp [hc, hLow]

/-- Settles O35: each byte written so far lies in the output block, which no source byte meets. -/
theorem encodeByteByByteInAnyOrder : Obligations.EncodeByteByByteInAnyOrder := by
  intro p s t d hp order hTables hd hExec hOk hPerm c
  obtain ⟨-, d', hReady, rfl⟩ := ready_of_exec_encodeBlock hExec hOk
  cases hd.symm.trans hReady.desc
  have hOrder : ∀ b, b ∈ order ↔ b < s.len.toNat := fun b => by rw [hPerm.mem_iff, List.mem_range]
  have hSources : ∀ m', (∀ c, ¬ Holds s s.outBase.toNat c → Memory.read m' c = Memory.read s.dmem c) →
      ∀ b < s.len.toNat, combinedByte builtTables (entry d.gm ⟨p.toNat, hp⟩) m' (fun j => addrSrc s j) b =
        combinedByte builtTables (entry d.gm ⟨p.toNat, hp⟩) s.dmem (fun j => addrSrc s j) b := fun m' hm' b hb =>
    combinedByte_congr fun j => hm' _ (not_holds_out_of_source hReady j.isLt hb)
  refine (read_foldl_write hSources (fun b hb => (hOrder b).mp hb) (fun _ _ => rfl) c).trans ?_
  by_cases hc : Holds s s.outBase.toNat c
  · obtain ⟨b, rfl⟩ := Nat.exists_eq_add_of_le hc.1
    have hb : b < s.len.toNat := Nat.lt_of_add_lt_add_left hc.2
    rw [if_pos ⟨hc.1, (hOrder _).mpr (by omega)⟩, Nat.add_sub_cancel_left, ← tablesNow_of_tablesOk hTables]
    exact (read_encodedMemory_inside _ hb).symm
  · rw [if_neg fun h => hc ⟨h.1, by have := (hOrder _).mp h.2; omega⟩]
    exact (read_encodedMemory_outside _ hc).symm

end Sys2Proof.Proofs
end

section
/-!
PROOF. What a decode writes (`44_decoder.md` R152 to R160): the erased source blocks, from the blocks at `src(j)`. Both
layouts are treated at once, by what the proofs need of a layout (`DecodesAs`).
-/

namespace Sys2Proof.Proofs
open Sys2Proof.Machine Sys2Proof.Claims Sys2Proof.Laws

/-! ## The two layouts (R49, R50) -/

/-- A logical position with a block: a source position, or a parity position below N. -/
def Position (d : Descriptor) (i : Nat) : Prop := d.k.toNat ≤ i → i < d.n.toNat

/-- Command i decodes in the layout `addr`, with the regions that its tests are of. -/
structure DecodesAs (i : Instr) (addr : Descriptor → State → Nat → Nat) (regions : Descriptor → State → List Region) :
    Prop where
  exec_eq : ∀ {s}, s.fatal = false → exec i s = .next (decodeOwn addr regions s)
  effect : ∀ {s v u}, Effect i s v u → v = 0x00#8 ∧ ∃ d, DecodeEffect d (addr d s) (regions d s) s u
  source : ∀ {d s e}, e < d.k.toNat → addr d s e = addrInl s e
  apart : ∀ {d s}, someOverlap (regions d s) = false → ∀ {j e}, Position d j → Position d e → j ≠ e →
    ∀ {b c}, b < s.len.toNat → c < s.len.toNat → addr d s j + b ≠ addr d s e + c
  inRange : ∀ {d s}, (regions d s).all (Region.inRange Config.memBytes) = true → ∀ {j}, j < d.n.toNat →
    ∀ {b}, b < s.len.toNat → addr d s j + b < Config.memBytes
  congr : ∀ {d s u}, u.baseA = s.baseA → u.baseB = s.baseB → u.len = s.len →
    addr d u = addr d s ∧ regions d u = regions d s

/-- A byte of block j of a packed region of m blocks lies in the region. -/
theorem packed_lt {base len m j b bound : Nat} (hRange : m * len = 0 ∨ base + m * len ≤ bound) (hj : j < m)
    (hb : b < len) : base + j * len + b < bound := by
  have := mul_add_lt hj hb
  omega

theorem addrInl_apart (s : State) {j e : Nat} (h : j ≠ e) {b c : Nat} (hb : b < s.len.toNat) (hc : c < s.len.toNat) :
    addrInl s j + b ≠ addrInl s e + c := by
  have := mul_add_ne h hb hc
  rw [addrInl, addrInl]
  omega

theorem decodesAs_inl : DecodesAs .decinl (fun _ s => addrInl s) (fun d s => [regionInl d s]) where
  exec_eq := exec_decinl
  effect := id
  source _ := rfl
  apart {_ s} _ {_ _} _ _ hne {_ _} hb hc := addrInl_apart s hne hb hc
  inRange {d s} hRange {j} hj {b} hb := by
    simp only [List.all_cons, List.all_nil, Bool.and_true, inRange_eq_true] at hRange
    exact packed_lt hRange hj hb
  congr hA _ hLen := by
    simp only [regionInl, hA, hLen]
    exact ⟨funext fun j => by simp only [addrInl, hA, hLen], trivial⟩

/-- A source block and a parity block of the appended layout do not meet, since their regions do not (R53). -/
theorem addrApp_source_apart_parity {d : Descriptor} {s : State}
    (hApart : (regionSources d s).overlaps (regionParity d s) = false) {j e : Nat} (hj : j < d.k.toNat)
    (hke : d.k.toNat ≤ e) (he : e < d.n.toNat) {b c : Nat} (hb : b < s.len.toNat) (hc : c < s.len.toNat) :
    addrApp d.k s j + b ≠ addrApp d.k s e + c := by
  have hSource := mul_add_lt hj hb
  have hParity := mul_add_lt (show e - d.k.toNat < d.n.toNat - d.k.toNat by omega) hc
  rw [Bool.eq_false_iff, ne_eq, overlaps_eq_true] at hApart
  simp only [regionSources_length, regionSources_start, regionParity_length, regionParity_start] at hApart
  rw [addrApp_of_lt s hj, addrApp_of_le s hke, addrInl]
  exact fun hSame => hApart ⟨by omega, by omega, by omega, by omega⟩

theorem decodesAs_app :
    DecodesAs .decapp (fun d s => addrApp d.k s) (fun d s => [regionSources d s, regionParity d s]) where
  exec_eq := exec_decapp
  effect := id
  source h := addrApp_of_lt _ h
  apart {d s} hApart {j e} hj he hne {b c} hb hc := by
    rw [someOverlap_pair] at hApart
    rcases Nat.lt_or_ge j d.k.toNat with hjk | hjk <;> rcases Nat.lt_or_ge e d.k.toNat with hek | hek
    · rw [addrApp_of_lt s hjk, addrApp_of_lt s hek]
      exact addrInl_apart s hne hb hc
    · exact addrApp_source_apart_parity hApart hjk hek (he hek) hb hc
    · exact (addrApp_source_apart_parity hApart hek hjk (hj hjk) hc hb).symm
    · rw [addrApp_of_le s hjk, addrApp_of_le s hek]
      have := mul_add_ne (show j - d.k.toNat ≠ e - d.k.toNat by omega) hb hc
      omega
  inRange {d s} hRange {j} hj {b} hb := by
    simp only [List.all_cons, List.all_nil, Bool.and_true, Bool.and_eq_true, inRange_eq_true] at hRange
    rcases Nat.lt_or_ge j d.k.toNat with hjk | hjk
    · rw [addrApp_of_lt s hjk]
      exact packed_lt hRange.1 hjk hb
    · rw [addrApp_of_le s hjk]
      exact packed_lt hRange.2 (show j - d.k.toNat < d.n.toNat - d.k.toNat by omega) hb
  congr hA hB hLen := by
    simp only [regionSources, regionParity, hA, hB, hLen]
    exact ⟨funext fun j => by simp only [addrApp, hA, hB, hLen], trivial⟩

/-! ## The bytes of the reconstructed blocks (R156) -/

section Bytes
variable {d : Descriptor} {addr : Nat → Nat} {s : State}

theorem reconstructedMemory_of_nil (inv : Mat d.k.toNat d.k.toNat) (h : erasedSources d s = []) :
    reconstructedMemory d addr inv s = s.dmem := by
  rw [reconstructedMemory, h, List.foldl_nil]

theorem read_reconstructedMemory_inside (hAddr : ∀ e < d.k.toNat, addr e = addrInl s e)
    (inv : Mat d.k.toNat d.k.toNat) {e : Fin d.k.toNat} (he : erasedAt s e = true) {b : Nat} (hb : b < s.len.toNat) :
    Memory.read (reconstructedMemory d addr inv s) (addr e + b) =
      combinedByte s.tablesNow (entry inv e) s.dmem (fun j => addr (sourceOf d s j)) b := by
  refine read_foldl_writeBlock_inside (erasedSources d s) (fun e : Fin d.k.toNat => addr e.val) _ _ _
    (mem_erasedSources.mpr he) hb fun e' _ hLow hHigh => ?_
  by_contra hne
  obtain ⟨c, hc⟩ := Nat.exists_eq_add_of_le hLow
  rw [hc] at hHigh
  rw [hAddr e e.isLt, hAddr e' e'.isLt] at hc
  exact addrInl_apart s (fun h => hne (Fin.ext h.symm)) hb (Nat.lt_of_add_lt_add_left hHigh) hc

theorem read_reconstructedMemory_outside (inv : Mat d.k.toNat d.k.toNat) {c : Nat}
    (hc : ∀ e : Fin d.k.toNat, erasedAt s e = true → ¬ Holds s (addr e) c) :
    Memory.read (reconstructedMemory d addr inv s) c = Memory.read s.dmem c :=
  read_foldl_writeBlock_outside _ (fun e : Fin d.k.toNat => addr e.val) _ _ _ fun e he =>
    hc e (mem_erasedSources.mp he)

theorem reconstructed_answered (hAddr : ∀ e < d.k.toNat, addr e = addrInl s e) (hTables : s.TablesOk)
    (hu : unrecoverable d s = false) (inv : Mat d.k.toNat d.k.toNat) :
    Reconstructed d addr inv s (answered 0x00#8 { s with dmem := reconstructedMemory d addr inv s }) := by
  refine ⟨fun e he b hb => ?inside, fun c hc => ?outside⟩
  case inside =>
    refine (read_reconstructedMemory_inside hAddr inv (erasedAt_eq_iff.mp he) hb).trans ?_
    simp only [combinedByte, tablesNow_of_tablesOk hTables, sourceOf_eq_source hu]
  case outside =>
    exact read_reconstructedMemory_outside inv fun e he => hc e e.isLt (erasedAt_eq_iff.mpr he)

end Bytes

/-! ## When a decode reaches its reconstruction (R157) -/

/-- The tests of R157 rows 1 to 5 pass. -/
structure DecodeReady (d : Descriptor) (rs : List Region) (s : State) : Prop where
  desc : s.desc = some d
  lengths : validLengthsAgree d s = true
  recoverable : unrecoverable d s = false
  inRange : rs.all (Region.inRange Config.memBytes) = true
  apart : someOverlap rs = false

theorem decodeReady_of_decodable {d : Descriptor} {s : State} {rs : List Region} (h : Decodable s d)
    (hRange : rs.all (Region.inRange Config.memBytes) = true) (hApart : someOverlap rs = false) :
    DecodeReady d rs s :=
  ⟨h.1, validLengthsAgree_iff.mpr h.2.1, unrecoverable_of_decodable h, hRange, hApart⟩

/-- The statements' premise is the model's test, also where N = 0, since it is only needed in one direction. -/
theorem inRange_of_inlInRange {d : Descriptor} {s : State} (h : InlInRange s d) :
    [regionInl d s].all (Region.inRange Config.memBytes) = true := by
  simp only [List.all_cons, List.all_nil, Bool.and_true, inRange_eq_true]
  exact h.imp (fun hLen => by rw [regionInl_length, hLen, Nat.mul_zero]) id

theorem inRange_of_appInRange {d : Descriptor} {s : State} (h : AppInRange s d) :
    [regionSources d s, regionParity d s].all (Region.inRange Config.memBytes) = true := by
  simp only [List.all_cons, List.all_nil, Bool.and_true, Bool.and_eq_true, inRange_eq_true, regionSources_length,
    regionParity_length]
  rcases h with hLen | ⟨hSources, hNone | hParity⟩
  · simp [hLen]
  · exact ⟨.inr hSources, .inl (by rw [hNone, Nat.sub_self, Nat.zero_mul])⟩
  · exact ⟨.inr hSources, .inr hParity⟩

theorem apart_of_not_appOverlap {d : Descriptor} {s : State} (h : ¬ AppOverlap s d) :
    someOverlap [regionSources d s, regionParity d s] = false := by
  rw [someOverlap_pair, Bool.eq_false_iff, ne_eq, overlaps_eq_true, regionSources_length, regionParity_length]
  rintro ⟨hSources, hParity, hMeet⟩
  exact h ⟨Nat.pos_of_mul_pos_left hSources, Nat.lt_of_sub_pos (Nat.pos_of_mul_pos_right hParity), hMeet⟩

section Ready
variable {i : Instr} {addr : Descriptor → State → Nat → Nat} {regions : Descriptor → State → List Region}
  (hi : DecodesAs i addr regions) {d : Descriptor} {s : State}

theorem decodeOwn_of_ready (h : DecodeReady d (regions d s) s) :
    decodeOwn addr regions s = reconstructOwn d (addr d s) s := by
  simp only [decodeOwn, h.desc, h.lengths, h.recoverable, h.inRange, h.apart, not_true_eq_false, Bool.false_eq_true,
    if_false]

/-- With nothing erased the reconstruction would write nothing, so the shortcut before the inversion is not seen. -/
theorem reconstructOwn_of_matinv {addr : Nat → Nat} {inv : Mat d.k.toNat d.k.toNat}
    (hInv : erasedSources d s ≠ [] → matinv s.tablesNow (decodingMatrix d s) = some inv) :
    reconstructOwn d addr s = answered 0x00#8 { s with dmem := reconstructedMemory d addr inv s } := by
  by_cases hNil : erasedSources d s = []
  · rw [reconstructOwn, if_pos hNil, reconstructedMemory_of_nil inv hNil, done_eq_answered]
  · simp only [reconstructOwn, if_neg hNil, hInv hNil, done_eq_answered]

include hi

theorem exec_of_nothing_erased (hFatal : s.fatal = false) (h : DecodeReady d (regions d s) s)
    (hNil : erasedSources d s = []) : exec i s = .next (answered 0x00#8 s) := by
  rw [hi.exec_eq hFatal, decodeOwn_of_ready h, reconstructOwn, if_pos hNil, done_eq_answered]

/-- In a sound state the inverse exists. -/
theorem exists_exec_reconstructed (hs : s.Healthy) (h : DecodeReady d (regions d s) s) :
    ∃ t X, exec i s = .next t ∧ t = answered 0x00#8 { s with dmem := t.dmem } ∧
      matmul builtTables X (decodingMatrix d s) = identity d.k.toNat ∧ Reconstructed d (addr d s) X s t := by
  obtain ⟨X, hX⟩ := exists_matinv_decodingMatrix hs.inv.desc h.desc h.recoverable
  have hInv : matinv s.tablesNow (decodingMatrix d s) = some X := by rwa [tablesNow_of_tablesOk hs.inv.tables]
  exact ⟨_, X, by rw [hi.exec_eq hs.notFatal, decodeOwn_of_ready h, reconstructOwn_of_matinv fun _ => hInv], rfl,
    (matinv_eq_some_iff.mp hX).2, reconstructed_answered (fun _ => hi.source) hs.inv.tables h.recoverable X⟩

end Ready

/-- Settles O37: with no erased source position both commands end before the inversion. -/
theorem decodeWithNothingErasedChangesNothing : Obligations.DecodeWithNothingErasedChangesNothing := by
  refine ⟨by decide, by decide, fun s d hFatal hDecodable hNil => ⟨fun hRange => ?_, fun hRange hApart => ?_⟩⟩
  · exact exec_of_nothing_erased decodesAs_inl hFatal
      (decodeReady_of_decodable hDecodable (inRange_of_inlInRange hRange) (someOverlap_singleton _))
      (erasedSources_eq_nil_iff.mpr hNil)
  · exact exec_of_nothing_erased decodesAs_app hFatal
      (decodeReady_of_decodable hDecodable (inRange_of_appInRange hRange) (apart_of_not_appOverlap hApart))
      (erasedSources_eq_nil_iff.mpr hNil)

/-- Settles O38: the premises are the tests of R157, and the decoding matrix of a sound state is invertible. -/
theorem decinlReconstructsTheErasedBlocks : Obligations.DecinlReconstructsTheErasedBlocks := fun _ _ hs hDecodable
    hRange => exists_exec_reconstructed decodesAs_inl hs
  (decodeReady_of_decodable hDecodable (inRange_of_inlInRange hRange) (someOverlap_singleton _))

/-- Settles O39: as for `DECINL`, with the tests of two regions. -/
theorem decappReconstructsTheErasedBlocks : Obligations.DecappReconstructsTheErasedBlocks := fun _ _ hs hDecodable
    hRange hApart => exists_exec_reconstructed decodesAs_app hs
  (decodeReady_of_decodable hDecodable (inRange_of_appInRange hRange) (apart_of_not_appOverlap hApart))

/-! ## The round trip (R158, `95_test_vectors.md` section 1) -/

/-- What the encoder makes of the source bytes `y` with one row of coefficients (R140). -/
def combination {k : Nat} (row : Fin k → Byte) (y : Fin k → Byte) : Byte :=
  xorSum k fun j => gfmul builtTables (row j) (y j)

theorem combination_identity {k : Nat} (y : Fin k → Byte) (e : Fin k) : combination (entry (identity k) e) y = y e := by
  obtain ⟨K, _, φ, h⟩ := exists_field
  apply h.injective
  simp only [combination, h.map_xorSum, h.map_gfmul, entry_identity, apply_ite φ, h.map_one, h.map_zero]
  simp

theorem combination_combination {k : Nat} (X D : Mat k k) (y : Fin k → Byte) (e : Fin k) :
    combination (entry X e) (fun j => combination (entry D j) y) =
      combination (entry (matmul builtTables X D) e) y := by
  obtain ⟨K, _, φ, h⟩ := exists_field
  apply h.injective
  have hMatrix : φ (combination (entry (matmul builtTables X D) e) y) =
      ((readMat φ X * readMat φ D).mulVec fun l => φ (y l)) e := by
    rw [← h.readMat_matmul]
    simp only [combination, h.map_xorSum, h.map_gfmul, Matrix.mulVec, dotProduct, readMat_apply]
  rw [hMatrix, ← Matrix.mulVec_mulVec]
  simp only [combination, h.map_xorSum, h.map_gfmul, Matrix.mulVec, dotProduct, readMat_apply]

section Restore
variable {d : Descriptor} {addr : Nat → Nat} {bytes : Fin d.k.toNat → Nat → Byte} {s : State} (hDesc : s.DescOk)
  (hd : s.desc = some d) (hu : unrecoverable d s = false) (hConsistent : Consistent d addr bytes s)
include hDesc hd hu hConsistent

/-- R154: the block at `src(j)` is row j of the decoding matrix applied to the source bytes. -/
theorem read_picked_block (j : Fin d.k.toNat) {b : Nat} (hb : b < s.len.toNat) :
    Memory.read s.dmem (addr (source d s j) + b) = combination (entry (decodingMatrix d s) j) fun l => bytes l b := by
  obtain ⟨p, hSource, hValid, hRow⟩ := entry_decodingMatrix_eq_gm hDesc hd hu j
  rw [← sourceOf_eq_source hu, hSource, hConsistent p (erasedAt_eq_iff.mpr hValid) b hb]
  simp only [combination, hRow]

theorem read_restored {X : Mat d.k.toNat d.k.toNat} {t : State}
    (hX : matmul builtTables X (decodingMatrix d s) = identity d.k.toNat) (hRec : Reconstructed d addr X s t)
    (hApart : ∀ {j e : Fin d.k.toNat}, j ≠ e → ∀ {b c}, b < s.len.toNat → c < s.len.toNat → addr j + b ≠ addr e + c)
    (j : Fin d.k.toNat) {b : Nat} (hb : b < s.len.toNat) : Memory.read t.dmem (addr j + b) = bytes j b := by
  obtain ⟨hInside, hOutside⟩ := hRec
  cases hj : erasedAt s j with
  | true =>
    calc Memory.read t.dmem (addr j + b)
        = combination (entry X j) (fun l => Memory.read s.dmem (addr (source d s l) + b)) :=
          hInside j (erasedAt_eq_iff.mpr hj) b hb
      _ = combination (entry X j) (fun l => combination (entry (decodingMatrix d s) l) fun l => bytes l b) := by
          simp only [read_picked_block hDesc hd hu hConsistent _ hb]
      _ = bytes j b := by rw [combination_combination, hX, combination_identity]
  | false =>
    have hKept : ∀ e < d.k.toNat, s.emap[e]? = some true → ¬ Holds s (addr e) (addr j + b) := by
      rintro e he hErased ⟨hLow, hHigh⟩
      have hne : j ≠ ⟨e, he⟩ := by
        rintro rfl
        rw [erasedAt_eq_iff (i := ⟨e, he⟩), hj] at hErased
        cases hErased
      obtain ⟨c, hc⟩ := Nat.exists_eq_add_of_le hLow
      rw [hc] at hHigh
      exact hApart hne hb (Nat.lt_of_add_lt_add_left hHigh) hc
    have hSelf : source d s j = j.val := (sourceOf_eq_source hu j).symm.trans (sourceOf_of_valid hj)
    calc Memory.read t.dmem (addr j + b)
        = Memory.read s.dmem (addr (source d s j) + b) := by rw [hOutside _ hKept, hSelf]
      _ = combination (entry (identity d.k.toNat) j) (fun l => bytes l b) := by
          rw [read_picked_block hDesc hd hu hConsistent j hb, funext (entry_decodingMatrix_of_valid hj)]
      _ = bytes j b := combination_identity _ _

end Restore

theorem exists_exec_restores {i : Instr} {addr : Descriptor → State → Nat → Nat}
    {regions : Descriptor → State → List Region} (hi : DecodesAs i addr regions) {s : State} {d : Descriptor}
    {bytes : Fin d.k.toNat → Nat → Byte} (hs : s.Healthy) (hReady : DecodeReady d (regions d s) s)
    (hConsistent : Consistent d (addr d s) bytes s) : ∃ t, exec i s = .next t ∧ t.status = 0x00#8 ∧
      ∀ (j : Fin d.k.toNat), ∀ b < s.len.toNat, Memory.read t.dmem (addr d s j + b) = bytes j b := by
  obtain ⟨t, X, hExec, hAnswer, hX, hRec⟩ := exists_exec_reconstructed hi hs hReady
  have hSource : ∀ j : Fin d.k.toNat, Position d j := fun j hj => absurd j.isLt (Nat.not_lt.mpr hj)
  exact ⟨t, hExec, by rw [hAnswer]; rfl, fun j b hb =>
    read_restored hs.inv.desc hReady.desc hReady.recoverable hConsistent hX hRec
      (fun hne => hi.apart hReady.apart (hSource _) (hSource _) (Fin.val_ne_of_ne hne)) j hb⟩

/-- Settles O41: the picked blocks are D applied to the source bytes, and X D = I; a surviving block is not written. -/
theorem decodeRestoresTheSourceBlocks : Obligations.DecodeRestoresTheSourceBlocks := fun _ _ _ hs hDecodable =>
  ⟨fun hRange => exists_exec_restores decodesAs_inl hs
      (decodeReady_of_decodable hDecodable (inRange_of_inlInRange hRange) (someOverlap_singleton _)),
    fun hRange hApart => exists_exec_restores decodesAs_app hs
      (decodeReady_of_decodable hDecodable (inRange_of_appInRange hRange) (apart_of_not_appOverlap hApart))⟩

end Sys2Proof.Proofs
end

section
/-!
PROOF. Two runs of a data command compared: from states that agree on what the command tests, it ends both times with
the same error, at the same singular matrix, or with the same inverse. Each noninterference statement is this and a look
at the fields in which its two states differ.
-/

namespace Sys2Proof.Proofs
open Sys2Proof.Machine Sys2Proof.Claims Sys2Proof.Laws

/-! ## Two states that a decode's tests do not tell apart -/

/-- s and u agree on what a decode of descriptor d tests and inverts; bases and memory may differ. -/
structure DecodeAlike (d : Descriptor) (s u : State) : Prop where
  desc : s.desc = some d
  desc' : u.desc = some d
  len : u.len = s.len
  tables : u.tablesNow = s.tablesNow
  erasedSource : ∀ j : Fin d.k.toNat, erasedAt u j = erasedAt s j
  erased : ∀ i : Fin d.n.toNat, erasedAt u i = erasedAt s i
  blen : ∀ i : Fin d.n.toNat, blenAt u i = blenAt s i

theorem decodeAlike_of_eq {d : Descriptor} {s u : State} (hd : s.desc = some d) (hd' : u.desc = some d)
    (hLen : u.len = s.len) (hTables : u.tablesNow = s.tablesNow) (hEmap : u.emap = s.emap) (hBlen : u.blen = s.blen) :
    DecodeAlike d s u where
  desc := hd
  desc' := hd'
  len := hLen
  tables := hTables
  erasedSource j := by rw [erasedAt, erasedAt, hEmap]
  erased i := by rw [erasedAt, erasedAt, hEmap]
  blen i := by rw [blenAt, blenAt, hBlen]

namespace DecodeAlike
variable {d : Descriptor} {s u : State} (h : DecodeAlike d s u)
include h

theorem erasedSources_eq : erasedSources d u = erasedSources d s := by simp only [erasedSources, h.erasedSource]

theorem survivingParity_eq : survivingParity d u = survivingParity d s := by simp only [survivingParity, h.erased]

theorem substitute_eq : substitute d u = substitute d s :=
  funext fun j => by rw [substitute, substitute, h.erasedSources_eq, h.survivingParity_eq]

theorem sourceOf_eq (j : Fin d.k.toNat) : sourceOf d u j = sourceOf d s j := by
  rw [sourceOf, sourceOf, h.substitute_eq]

theorem decodingMatrix_eq : decodingMatrix d u = decodingMatrix d s := by
  rw [decodingMatrix, decodingMatrix, h.substitute_eq]

theorem validLengthsAgree_eq : validLengthsAgree d u = validLengthsAgree d s := by
  simp only [validLengthsAgree, h.erased, h.blen, h.len]

theorem unrecoverable_eq : unrecoverable d u = unrecoverable d s := by
  rw [unrecoverable, unrecoverable, h.erasedSources_eq, h.survivingParity_eq]

theorem reconstructedMemory_eq (hMemory : u.dmem = s.dmem) (addr : Nat → Nat) (inv : Mat d.k.toNat d.k.toNat) :
    reconstructedMemory d addr inv u = reconstructedMemory d addr inv s := by
  simp only [reconstructedMemory, h.erasedSources_eq, h.len, h.tables, h.sourceOf_eq, hMemory]

end DecodeAlike

/-! ## How two such decodes end -/

/-- Both raise one error, both meet a singular matrix, or both reconstruct with one inverse. -/
inductive DecodePair (d : Descriptor) (addr addr' : Nat → Nat) (s u t t' : State) : Prop where
  | error (x : Status) (hx : x.code ≠ 0x00#8) (ht : t = raise x s) (ht' : t' = raise x u)
  | singular (ht : t = raiseSingular s) (ht' : t' = raiseSingular u)
  | writes (inv : Mat d.k.toNat d.k.toNat) (hRecoverable : unrecoverable d s = false)
      (ht : t = answered 0x00#8 { s with dmem := reconstructedMemory d addr inv s })
      (ht' : t' = answered 0x00#8 { u with dmem := reconstructedMemory d addr' inv u })

theorem reconstructOwn_pair {d : Descriptor} {s u : State} (h : DecodeAlike d s u)
    (hRecoverable : unrecoverable d s = false) (addr addr' : Nat → Nat) :
    DecodePair d addr addr' s u (reconstructOwn d addr s) (reconstructOwn d addr' u) := by
  by_cases hNil : erasedSources d s = []
  · exact .writes (identity _) hRecoverable (reconstructOwn_of_matinv fun hne => absurd hNil hne)
      (reconstructOwn_of_matinv fun hne => absurd (h.erasedSources_eq.trans hNil) hne)
  · cases hInv : matinv s.tablesNow (decodingMatrix d s) with
    | none =>
      refine .singular (by simp only [reconstructOwn, if_neg hNil, hInv]) ?_
      simp only [reconstructOwn, h.erasedSources_eq, if_neg hNil, h.tables, h.decodingMatrix_eq, hInv]
    | some inv =>
      refine .writes inv hRecoverable (reconstructOwn_of_matinv fun _ => hInv) (reconstructOwn_of_matinv fun _ => ?_)
      rw [h.tables, h.decodingMatrix_eq, hInv]

theorem decodeOwn_pair {addr addr' : Descriptor → State → Nat → Nat}
    {regions regions' : Descriptor → State → List Region} {d : Descriptor} {s u : State} (h : DecodeAlike d s u)
    (hRange : (regions' d u).all (Region.inRange Config.memBytes) = (regions d s).all (Region.inRange Config.memBytes))
    (hOverlap : someOverlap (regions' d u) = someOverlap (regions d s)) :
    DecodePair d (addr d s) (addr' d u) s u (decodeOwn addr regions s) (decodeOwn addr' regions' u) := by
  simp only [decodeOwn, h.desc, h.desc', h.validLengthsAgree_eq, h.unrecoverable_eq, hRange, hOverlap]
  split
  · exact .error .lengthMismatch (by decide) rfl rfl
  split
  · exact .error .unrecoverableErasure (by decide) rfl rfl
  split
  · exact .error .addressRange (by decide) rfl rfl
  split
  · exact .error .bufferOverlap (by decide) rfl rfl
  · next hRecoverable _ _ => exact reconstructOwn_pair h (Bool.eq_false_iff.mpr hRecoverable) _ _

/-! ## What two decodes recover (R159, R160) -/

/-- An erased source position is given a parity position, which is not below K. -/
theorem sized_of_erased {d : Descriptor} {s : State} (hu : unrecoverable d s = false) {e : Fin d.k.toNat}
    (he : erasedAt s e = true) : d.k.toNat ≤ d.n.toNat := by
  obtain ⟨p, -, hkp, -⟩ := sourceOf_of_erased hu he
  exact hkp.trans p.isLt.le

theorem exists_exec_pair_recovers {i i' : Instr} {addr addr' : Descriptor → State → Nat → Nat}
    {regions regions' : Descriptor → State → List Region} (hi : DecodesAs i addr regions)
    (hi' : DecodesAs i' addr' regions') {d : Descriptor} {s u : State} (h : DecodeAlike d s u)
    (hFatal : u.fatal = s.fatal)
    (hRange : (regions' d u).all (Region.inRange Config.memBytes) = (regions d s).all (Region.inRange Config.memBytes))
    (hOverlap : someOverlap (regions' d u) = someOverlap (regions d s))
    (hReads : unrecoverable d s = false → d.k.toNat ≤ d.n.toNat → ∀ j, ∀ b < s.len.toNat,
      Memory.read s.dmem (addr d s (sourceOf d s j) + b) = Memory.read u.dmem (addr' d u (sourceOf d s j) + b)) :
    ∃ t t', exec i s = .next t ∧ exec i' u = .next t' ∧ t.status = t'.status ∧
      (t.status = 0x00#8 → ∀ e < d.k.toNat, s.emap[e]? = some true → ∀ b < s.len.toNat,
        Memory.read t.dmem (addr d s e + b) = Memory.read t'.dmem (addr' d u e + b)) := by
  cases hf : s.fatal with
  | true => exact ⟨_, _, exec_of_fatal i hf, exec_of_fatal i' (hFatal.trans hf), rfl, fun hOk => by cases hOk⟩
  | false =>
    refine ⟨_, _, hi.exec_eq hf, hi'.exec_eq (hFatal.trans hf), ?_⟩
    rcases decodeOwn_pair (addr := addr) (addr' := addr') h hRange hOverlap with
      ⟨x, hx, ht, ht'⟩ | ⟨ht, ht'⟩ | ⟨inv, hu, ht, ht'⟩ <;> rw [ht, ht']
    · exact ⟨rfl, fun hOk => absurd hOk hx⟩
    · exact ⟨rfl, fun hOk => by cases hOk⟩
    · refine ⟨rfl, fun _ e he hErased b hb => ?_⟩
      replace hErased := erasedAt_eq_iff (i := ⟨e, he⟩).mp hErased
      have hRecovered := read_reconstructedMemory_inside (addr := addr d s) (fun _ => hi.source) inv hErased hb
      have hRecovered' := read_reconstructedMemory_inside (addr := addr' d u) (fun _ => hi'.source) inv
        ((h.erasedSource _).trans hErased) (h.len ▸ hb)
      refine hRecovered.trans (Eq.trans ?_ hRecovered'.symm)
      rw [h.tables]
      exact combinedByte_congr fun j => by rw [h.sourceOf_eq, hReads hu (sized_of_erased hu hErased) j b hb]

/-- Settles O42: both layouts' region tests pass, and every picked block is a valid one, where the memories agree. -/
theorem layoutsRecoverTheSameBytes : Obligations.LayoutsRecoverTheSameBytes := by
  intro s₁ s₂ d hFatal₁ hFatal₂ hTables₁ hTables₂ hd₁ hd₂ hLen hBlen hEmap hInl hApp hApart hSame
  have h : DecodeAlike d s₁ s₂ := decodeAlike_of_eq hd₁ hd₂ hLen.symm
    ((tablesNow_of_tablesOk hTables₂).trans (tablesNow_of_tablesOk hTables₁).symm) hEmap.symm hBlen.symm
  refine exists_exec_pair_recovers decodesAs_inl decodesAs_app h (hFatal₂.trans hFatal₁.symm)
    ((inRange_of_appInRange hApp).trans (inRange_of_inlInRange hInl).symm)
    ((apart_of_not_appOverlap hApart).trans (someOverlap_singleton _).symm) fun hu hkn j b hb => ?_
  obtain ⟨p, hSource, hValid⟩ := sourceOf_valid hu hkn j
  rw [hSource]
  exact hSame p p.isLt (erasedAt_eq_iff.mpr hValid) b hb

/-- Settles O43: two states that differ in memory alone have the same tests and the same blocks. -/
theorem decodeReadsOnlyThePickedBlocks : Obligations.DecodeReadsOnlyThePickedBlocks := by
  intro s m d hDecodable i addr hLayout hSame
  have h : DecodeAlike d s { s with dmem := m } := decodeAlike_of_eq hDecodable.1 hDecodable.1 rfl rfl rfl rfl
  have hReads : ∀ j : Fin d.k.toNat, ∀ b < s.len.toNat,
      Memory.read s.dmem (addr (sourceOf d s j) + b) = Memory.read m (addr (sourceOf d s j) + b) := fun j b hb => by
    rw [sourceOf_eq_source (unrecoverable_of_decodable hDecodable)]
    exact hSame j j.isLt b hb
  rcases hLayout with ⟨rfl, rfl⟩ | ⟨rfl, rfl⟩
  · exact exists_exec_pair_recovers decodesAs_inl decodesAs_inl h rfl rfl rfl fun _ _ => hReads
  · exact exists_exec_pair_recovers decodesAs_app decodesAs_app h rfl rfl rfl fun _ _ => hReads

/-! ## Fields that a data command does not look at (R19, R22, R23, R25) -/

/-- s with the tables, lengths, erasures, parity base and output base of u. -/
def withOperands (u s : State) : State :=
  { s with tables := u.tables, blen := u.blen, emap := u.emap, baseB := u.baseB, outBase := u.outBase }

/-- Where the other operands pass the same tests, a decode ends alike and writes the same bytes. -/
theorem decodeOwn_withOperands {addr : Descriptor → State → Nat → Nat} {regions : Descriptor → State → List Region}
    {s u : State} (h : ∀ d, s.desc = some d → DecodeAlike d s (withOperands u s) ∧
      addr d (withOperands u s) = addr d s ∧ regions d (withOperands u s) = regions d s) :
    decodeOwn addr regions (withOperands u s) = withOperands u (decodeOwn addr regions s) := by
  cases hd : s.desc with
  | none =>
    rw [decodeOwn_of_none hd, decodeOwn_of_none (s := withOperands u s) hd]
    rfl
  | some d =>
    obtain ⟨hAlike, hAddr, hRegions⟩ := h d hd
    have hRange := congrArg (fun rs => rs.all (Region.inRange Config.memBytes)) hRegions
    rcases decodeOwn_pair (addr := addr) (addr' := addr) hAlike hRange (congrArg someOverlap hRegions) with
      ⟨x, -, ht, ht'⟩ | ⟨ht, ht'⟩ | ⟨inv, -, ht, ht'⟩ <;> rw [ht, ht']
    · rfl
    · rfl
    · rw [hAddr, hAlike.reconstructedMemory_eq rfl]
      rfl

theorem encodeOwn_withOperands {p : Nat} {s u : State} (hTables : u.tablesNow = s.tablesNow)
    (hOut : u.outBase = s.outBase)
    (hBlen : ∀ d, s.desc = some d → ∀ j : Fin d.k.toNat, blenAt u j = blenAt s j) :
    encodeOwn p (withOperands u s) = withOperands u (encodeOwn p s) := by
  cases hd : s.desc with
  | none =>
    simp only [encodeOwn, hd, show (withOperands u s).desc = none from hd]
    rfl
  | some d =>
    have hLengths : sourceLengthsAgree d (withOperands u s) = sourceLengthsAgree d s := by
      rw [Bool.eq_iff_iff, sourceLengthsAgree_eq_true, sourceLengthsAgree_eq_true]
      exact forall_congr' fun j => Eq.congr_left (hBlen d hd j)
    have hSources : regionSources d (withOperands u s) = regionSources d s := rfl
    have hRegion : regionOut (withOperands u s) = regionOut s := by rw [regionOut, regionOut, withOperands, hOut]
    have hNow : (withOperands u s).tablesNow = s.tablesNow := hTables
    have hMemory : ∀ q, encodedMemory d q (withOperands u s) = encodedMemory d q s := fun q => by
      rw [encodedMemory, encodedMemory, hNow, withOperands, hOut]
      rfl
    simp only [encodeOwn, hd, show (withOperands u s).desc = some d from hd, hLengths, hSources, hRegion, hMemory]
    split_ifs <;> rfl

theorem buildsTables_of_writesMemory {i : Instr} (hWrites : writesMemory i = true) : buildsTables i = false := by
  cases i with
  | encodeBlock | decinl | decapp => rfl
  | _ => cases hWrites

/-- A data command writes none of the operands. -/
theorem operands_of_exec {i : Instr} {s t : State} (hWrites : writesMemory i = true) (hExec : exec i s = .next t) :
    t.tables = s.tables ∧ t.blen = s.blen ∧ t.emap = s.emap ∧ t.baseB = s.baseB ∧ t.outBase = s.outBase := by
  have h : WritesOwnState i s { t with fatal := s.fatal } :=
    (writesOwnState_of_exec hExec).elim (fun h => { h with fatal := rfl }) (·.2.2)
  refine ⟨?_, ?_, ?_, ?_, ?_⟩ <;> by_contra hne
  · obtain ⟨-, -, hBuilds⟩ := h.tables hne
    rw [buildsTables_of_writesMemory hWrites] at hBuilds
    cases hBuilds
  · obtain ⟨p, v, rfl⟩ := h.blen hne
    cases hWrites
  · obtain rfl | ⟨p, rfl⟩ | ⟨p, rfl⟩ := h.emap hne <;> cases hWrites
  · obtain ⟨v, rfl⟩ := h.baseB hne
    cases hWrites
  · obtain ⟨v, rfl⟩ := h.outBase hne
    cases hWrites

/-- What holds of a command's own rule holds of the command, in the fatal state too. -/
theorem exec_withOperands {i : Instr} {own : State → State} {s u t : State}
    (hOwn : ∀ s, s.fatal = false → exec i s = .next (own s))
    (hSame : own (withOperands u s) = withOperands u (own s)) (hExec : exec i s = .next t) :
    exec i (withOperands u s) = .next (withOperands u t) := by
  cases hFatal : s.fatal with
  | true =>
    rw [exec_of_fatal i hFatal] at hExec
    cases hExec
    exact exec_of_fatal i (s := withOperands u s) hFatal
  | false =>
    rw [hOwn s hFatal] at hExec
    cases hExec
    rw [hOwn (withOperands u s) hFatal, hSame]

theorem blenAt_eq_of_getElem? {s u : State} {n : Byte} {i : Fin n.toNat} (h : u.blen[i.val]? = s.blen[i.val]?) :
    blenAt u i = blenAt s i := by
  rwa [blen_getElem?, blen_getElem?, Option.some_inj] at h

theorem erasedAt_eq_of_getElem? {s u : State} {n : Byte} {i : Fin n.toNat} (h : u.emap[i.val]? = s.emap[i.val]?) :
    erasedAt u i = erasedAt s i := by
  rwa [emap_getElem?, emap_getElem?, Option.some_inj] at h

/-- Settles O47: the two states differ in operands that the command's tests and addresses do not look at. -/
theorem unusedOperandsAreIgnored : Obligations.UnusedOperandsAreIgnored := by
  intro s u t d hd hSized hu
  have hTables : u.tables = s.tables := by rw [hu]
  have hNow : u.tablesNow = s.tablesNow := by rw [State.tablesNow, State.tablesNow, hTables]
  have hOperands : withOperands u s = u := by
    rw [withOperands, hTables]
    exact hu.symm
  refine ⟨fun hOut hBlen p hExec => ?encode, fun hFiles => ?decode⟩
  case encode =>
    obtain ⟨hT, -, -, -, hO⟩ := operands_of_exec rfl hExec
    have hOwn : encodeOwn p (withOperands u s) = withOperands u (encodeOwn p s) :=
      encodeOwn_withOperands hNow hOut fun d' hd' j => by
        cases hd.symm.trans hd'
        exact blenAt_eq_of_getElem? (hBlen j j.isLt)
    have hAnswer := exec_withOperands (fun s hFatal => exec_encodeBlock hFatal p) hOwn hExec
    rwa [hOperands, withOperands, hTables, hOut, ← hT, ← hO] at hAnswer
  case decode =>
    obtain ⟨-, hkn⟩ := hSized d hd
    have hAlike : ∀ d', s.desc = some d' → DecodeAlike d' s (withOperands u s) := by
      intro d' hd'
      cases hd.symm.trans hd'
      exact {
        desc := hd
        desc' := hd
        len := rfl
        tables := hNow
        erasedSource := fun j => erasedAt_eq_of_getElem? (hFiles j (j.isLt.trans_le hkn)).2
        erased := fun i => erasedAt_eq_of_getElem? (hFiles i i.isLt).2
        blen := fun i => blenAt_eq_of_getElem? (hFiles i i.isLt).1 }
    refine ⟨fun hExec => ?_, fun hBase hExec => ?_⟩
    · obtain ⟨hT, -⟩ := operands_of_exec rfl hExec
      have hAnswer := exec_withOperands (fun _ => exec_decinl)
        (decodeOwn_withOperands fun d' hd' => ⟨hAlike d' hd', rfl, rfl⟩) hExec
      rwa [hOperands, withOperands, hTables, ← hT] at hAnswer
    · obtain ⟨hT, -, -, hB, -⟩ := operands_of_exec rfl hExec
      have hAnswer := exec_withOperands (fun _ => exec_decapp) (decodeOwn_withOperands fun d' hd' =>
        ⟨hAlike d' hd', decodesAs_app.congr (u := withOperands u s) rfl hBase rfl⟩) hExec
      rwa [hOperands, withOperands, hTables, hBase, ← hT, ← hB] at hAnswer

/-! ## The lazy table build (R25) -/

/-- A command that succeeds leaves the tables as the state it tests its operands in has them. -/
theorem tables_of_effect {i : Instr} {s u : State} {v : Byte} (hEffect : Effect i s v u) :
    u.tables = (begun i s).tables := by
  cases i with
  | nop | gfadd | gfsub | gfmul | gfdiv | logrd | alogrd | setl | setbasea | setbaseb | setout | emclr =>
    obtain ⟨-, rfl⟩ := hEffect
    rfl
  | create n k =>
    obtain ⟨-, -, hLegal, G, -, rfl⟩ := hEffect
    rfl
  | gmrd row col =>
    obtain ⟨rfl, -⟩ := hEffect
    rfl
  | destroy | setblen | emset | emval =>
    obtain ⟨-, -, rfl⟩ := hEffect
    rfl
  | encodeBlock p =>
    obtain ⟨-, d, -, hp, -, -, -, -, rfl⟩ := hEffect
    rfl
  | decinl | decapp =>
    obtain ⟨-, d, -, -, -, -, -, ⟨-, rfl⟩ | ⟨inv, -, rfl⟩⟩ := hEffect <;> rfl

theorem tblReady_begun (i : Instr) (s : State) : (begun i s).tblReady = (s.tblReady || buildsTables i) := by
  rw [begun_eq_ite]
  cases buildsTables i
  · exact (Bool.or_false _).symm
  · exact (Bool.or_true _).symm

theorem tables_of_exec {i : Instr} {s t : State} (hFatal : s.fatal = false) (hExec : exec i s = .next t) :
    t.tables = (begun i s).tables := by
  rcases exec_cases hExec with ⟨hNot, -⟩ | ⟨-, ⟨x, -, rfl⟩ | ⟨-, rfl⟩ | ⟨v, u, hEffect, rfl⟩⟩
  · rw [hFatal] at hNot
    cases hNot
  · rfl
  · rfl
  · exact (done_tables v u).trans (tables_of_effect hEffect)

/-- s before the lazy build, and after it. -/
def unbuilt (s : State) : State := { s with tables := none }

/-- t and u differ in their tables alone. -/
def AgreeButTables (t u : State) : Prop := { t with tables := u.tables } = u

theorem agreeButTables_of_eq {t u : State} (h : t = u) : AgreeButTables t u := by
  rw [h, AgreeButTables]

theorem agreeButTables_setErased (pos : Nat) (e : Bool) (s : State) :
    AgreeButTables (setErased pos e (unbuilt s)) (setErased pos e (built s)) := by
  by_cases hPos : pos < 255
  · rw [setErased_of_lt hPos, setErased_of_lt hPos]
    rfl
  · rw [setErased_of_not_lt hPos, setErased_of_not_lt hPos]
    rfl

/-- What holds of a command's own rule holds of the command, in the fatal state too. -/
theorem exists_exec_agree {i : Instr} {s : State} (own : State → State)
    (hOwn : ∀ s, exec i s = .next (prologue own s)) (h : AgreeButTables (own (unbuilt s)) (own (built s))) :
    ∃ t u, exec i (unbuilt s) = .next t ∧ exec i (built s) = .next u ∧ AgreeButTables t u := by
  refine ⟨_, _, hOwn _, hOwn _, ?_⟩
  cases hFatal : s.fatal with
  | true =>
    rw [prologue_of_fatal (s := unbuilt s) hFatal, prologue_of_fatal (s := built s) hFatal]
    rfl
  | false => rwa [prologue_of_not_fatal (s := unbuilt s) hFatal, prologue_of_not_fatal (s := built s) hFatal]

/-- A data command carries the tables through with the other operands. -/
theorem exists_exec_agree_of_withOperands {i : Instr} {own : State → State} {s : State}
    (hWrites : writesMemory i = true) (hOwn : ∀ s, s.fatal = false → exec i s = .next (own s))
    (hSame : own (withOperands (built s) (unbuilt s)) = withOperands (built s) (own (unbuilt s))) :
    ∃ t u, exec i (unbuilt s) = .next t ∧ exec i (built s) = .next u ∧ AgreeButTables t u := by
  obtain ⟨t, hExec⟩ := exists_exec_eq_next i (unbuilt s)
  obtain ⟨-, hBlen, hEmap, hBaseB, hOut⟩ := operands_of_exec hWrites hExec
  refine ⟨t, withOperands (built s) t, hExec, exec_withOperands (s := unbuilt s) hOwn hSame hExec, ?_⟩
  rw [AgreeButTables, withOperands]
  congr 1

/-- The five commands that build first run alike; the others carry the tables through unread, or, in a data command,
read the values the build would give. -/
theorem exists_exec_agreeButTables (i : Instr) (s : State) :
    ∃ t u, exec i (unbuilt s) = .next t ∧ exec i (built s) = .next u ∧ AgreeButTables t u := by
  cases i with
  | nop => exact exists_exec_agree _ (fun _ => rfl) rfl
  | gfadd a b => exact exists_exec_agree _ (fun _ => rfl) rfl
  | gfsub a b => exact exists_exec_agree _ (fun _ => rfl) rfl
  | gfmul a b => exact exists_exec_agree _ (fun _ => rfl) (agreeButTables_of_eq rfl)
  | gfdiv a b => exact exists_exec_agree _ (fun _ => rfl) (agreeButTables_of_eq rfl)
  | logrd a => exact exists_exec_agree _ (fun _ => rfl) (agreeButTables_of_eq rfl)
  | alogrd e => exact exists_exec_agree _ (fun _ => rfl) (agreeButTables_of_eq rfl)
  | create n k => exact exists_exec_agree (createOwn n k) (fun _ => rfl) (agreeButTables_of_eq rfl)
  | destroy =>
    refine exists_exec_agree destroyOwn (fun _ => rfl) ?_
    cases hd : s.desc <;> simp only [destroyOwn, unbuilt, built, hd] <;> rfl
  | gmrd row col =>
    refine exists_exec_agree (gmrdOwn row col) (fun _ => rfl) ?_
    cases hd : s.desc <;> simp only [gmrdOwn, unbuilt, built, hd]
    · rfl
    · split <;> rfl
  | setl len => exact exists_exec_agree _ (fun _ => rfl) rfl
  | setblen pos len =>
    refine exists_exec_agree _ (fun _ => rfl) ?_
    by_cases hPos : pos < 255 <;> simp only [hPos, dif_pos, dif_neg, not_false_eq_true] <;> rfl
  | setbasea addr => exact exists_exec_agree _ (fun _ => rfl) rfl
  | setbaseb addr => exact exists_exec_agree _ (fun _ => rfl) rfl
  | setout addr => exact exists_exec_agree _ (fun _ => rfl) rfl
  | emclr => exact exists_exec_agree _ (fun _ => rfl) rfl
  | emset pos => exact exists_exec_agree (setErased pos true) (fun _ => rfl) (agreeButTables_setErased pos true s)
  | emval pos => exact exists_exec_agree (setErased pos false) (fun _ => rfl) (agreeButTables_setErased pos false s)
  | encodeBlock p =>
    exact exists_exec_agree_of_withOperands rfl (fun s hFatal => exec_encodeBlock hFatal p)
      (encodeOwn_withOperands rfl rfl fun _ _ _ => rfl)
  | decinl =>
    exact exists_exec_agree_of_withOperands rfl (fun _ => exec_decinl)
      (decodeOwn_withOperands fun d hd => ⟨decodeAlike_of_eq hd hd rfl rfl rfl rfl, rfl, rfl⟩)
  | decapp =>
    exact exists_exec_agree_of_withOperands rfl (fun _ => exec_decapp)
      (decodeOwn_withOperands fun d hd => ⟨decodeAlike_of_eq hd hd rfl rfl rfl rfl, rfl, rfl⟩)

/-- Settles O21: the tables after a command are those of the state it tests its operands in; and a command that has not
built them works with the values of the build. -/
theorem lazyTableBuildIsUnobservable : Obligations.LazyTableBuildIsUnobservable := by
  refine ⟨fun i s t hFatal hExec => ?_, exists_exec_agreeButTables⟩
  rw [← tblReady_begun, State.tblReady, State.tblReady, tables_of_exec hFatal hExec]

end Sys2Proof.Proofs
end

section
/-!
PROOF. A data command that succeeded (`20_memory.md` R41, R53; `43_encoder.md` R142; `44_decoder.md` R158): its blocks
lie in memory and apart, so what it read is still there and a second run writes the same bytes.
-/

namespace Sys2Proof.Proofs
open Sys2Proof.Machine Sys2Proof.Claims Sys2Proof.Laws

/-! ## A decode that succeeded -/

theorem ready_of_exec_decode {i : Instr} {addr : Descriptor → State → Nat → Nat}
    {regions : Descriptor → State → List Region} (hi : DecodesAs i addr regions) {s t : State}
    (hExec : exec i s = .next t) (hOk : t.status = 0x00#8) :
    s.fatal = false ∧ ∃ d inv, DecodeReady d (regions d s) s ∧
      (erasedSources d s ≠ [] → matinv s.tablesNow (decodingMatrix d s) = some inv) ∧
      t = answered 0x00#8 { s with dmem := reconstructedMemory d (addr d s) inv s } := by
  obtain ⟨hFatal, v, u, hEffect, rfl⟩ := effect_of_status_ok hExec hOk
  obtain ⟨rfl, d, hd, hLengths, hRecoverable, hRange, hApart, hEnd⟩ := hi.effect hEffect
  refine ⟨hFatal, d, ?_⟩
  rcases hEnd with ⟨hNil, rfl⟩ | ⟨inv, hInv, rfl⟩
  · refine ⟨identity _, ⟨hd, hLengths, hRecoverable, hRange, hApart⟩, fun hne => absurd hNil hne, ?_⟩
    rw [reconstructedMemory_of_nil _ hNil, done_eq_answered]
  · exact ⟨inv, ⟨hd, hLengths, hRecoverable, hRange, hApart⟩, fun _ => hInv, rfl⟩

/-- Settles O46: the region tests bound every block and keep the blocks apart. -/
theorem dataCommandsAccessInRangeAndDisjoint : Obligations.DataCommandsAccessInRangeAndDisjoint := by
  intro s t d hFatal hd hOk
  have hDecode : ∀ {i addr regions}, DecodesAs i addr regions → exec i s = .next t →
      ∀ j < d.n.toNat, ∀ e < d.n.toNat, ∀ b < s.len.toNat, ∀ c < s.len.toNat,
        addr d s j + b < Config.memBytes ∧ (j ≠ e → addr d s j + b ≠ addr d s e + c) := by
    intro i addr regions hi hExec j hj e he b hb c hc
    obtain ⟨-, d', inv, hReady, -, -⟩ := ready_of_exec_decode hi hExec hOk
    cases hd.symm.trans hReady.desc
    exact ⟨hi.inRange hReady.inRange hj hb, fun hne => hi.apart hReady.apart (fun _ => hj) (fun _ => he) hne hb hc⟩
  refine ⟨fun p hExec j hj b hb c hc => ?encode, hDecode decodesAs_inl, hDecode decodesAs_app⟩
  case encode =>
    obtain ⟨-, d', hReady, -⟩ := ready_of_exec_encodeBlock hExec hOk
    cases hd.symm.trans hReady.desc
    have hOut := inRange_eq_true.mp hReady.outInRange
    rw [regionOut_length, regionOut_start] at hOut
    refine ⟨packed_lt (inRange_eq_true.mp hReady.sourcesInRange) hj hb, by omega, fun hSame => ?_⟩
    exact not_holds_out_of_source hReady hj hb ⟨by omega, by omega⟩

/-! ## A second run (R142, R158) -/

theorem exists_repeat_encodeBlock {p : Nat} {s t : State} (hExec : exec (.encodeBlock p) s = .next t)
    (hOk : t.status = 0x00#8) : ∃ u, exec (.encodeBlock p) t = .next u ∧ u = { t with dmem := u.dmem } ∧
      ∀ c, Memory.read u.dmem c = Memory.read t.dmem c := by
  obtain ⟨hFatal, d, hReady, rfl⟩ := ready_of_exec_encodeBlock hExec hOk
  set t := answered 0x00#8 { s with dmem := encodedMemory d ⟨p, hReady.index.2⟩ s }
  have hAgain : EncodeReady p d t := { hReady with }
  have hRepeat := exec_encodeBlock_of_ready (s := t) hFatal hAgain
  refine ⟨_, hRepeat, rfl, fun c => ?_⟩
  by_cases hc : Holds s s.outBase.toNat c
  · obtain ⟨b, rfl⟩ := Nat.exists_eq_add_of_le hc.1
    have hb : b < s.len.toNat := Nat.lt_of_add_lt_add_left hc.2
    have hFirst := read_encodedMemory_inside (s := s) ⟨p, hReady.index.2⟩ hb
    have hSecond := read_encodedMemory_inside (s := t) ⟨p, hReady.index.2⟩ hb
    refine hSecond.trans (Eq.trans ?_ hFirst.symm)
    exact combinedByte_congr fun j => read_encodedMemory_source hReady j.isLt hb
  · exact read_encodedMemory_outside _ hc

section Decode
variable {i : Instr} {addr : Descriptor → State → Nat → Nat} {regions : Descriptor → State → List Region}
  (hi : DecodesAs i addr regions) {s : State}
include hi

/-- The block at `src(j)` is not one that the decode writes. -/
theorem read_reconstructedMemory_picked {d : Descriptor} (hReady : DecodeReady d (regions d s) s)
    (inv : Mat d.k.toNat d.k.toNat) (j : Fin d.k.toNat) {b : Nat} (hb : b < s.len.toNat) :
    Memory.read (reconstructedMemory d (addr d s) inv s) (addr d s (sourceOf d s j) + b) =
      Memory.read s.dmem (addr d s (sourceOf d s j) + b) := by
  refine read_reconstructedMemory_outside inv fun e he ⟨hLow, hHigh⟩ => ?_
  have hPicked : Position d (sourceOf d s j) ∧ sourceOf d s j ≠ e := by
    cases hj : erasedAt s j with
    | false =>
      rw [sourceOf_of_valid hj]
      refine ⟨fun hk => absurd j.isLt (Nat.not_lt.mpr hk), fun hSame => ?_⟩
      rw [Fin.ext hSame, he] at hj
      cases hj
    | true =>
      obtain ⟨q, hq, hkq, -⟩ := sourceOf_of_erased hReady.recoverable hj
      rw [hq]
      exact ⟨fun _ => q.isLt, fun hSame => absurd e.isLt (Nat.not_lt.mpr (hSame ▸ hkq))⟩
  obtain ⟨c, hc⟩ := Nat.exists_eq_add_of_le hLow
  rw [hc] at hHigh
  exact hi.apart hReady.apart hPicked.1 (fun hk => absurd e.isLt (Nat.not_lt.mpr hk)) hPicked.2 hb
    (Nat.lt_of_add_lt_add_left hHigh) hc

theorem exists_repeat_decode {t : State} (hExec : exec i s = .next t) (hOk : t.status = 0x00#8) :
    ∃ u, exec i t = .next u ∧ u = { t with dmem := u.dmem } ∧ ∀ c, Memory.read u.dmem c = Memory.read t.dmem c := by
  obtain ⟨hFatal, d, inv, hReady, hInv, rfl⟩ := ready_of_exec_decode hi hExec hOk
  set t := answered 0x00#8 { s with dmem := reconstructedMemory d (addr d s) inv s }
  obtain ⟨hAddr, hRegions⟩ := hi.congr (d := d) (s := s) (u := t) rfl rfl rfl
  have hAgain : DecodeReady d (regions d t) t := hRegions ▸ { hReady with }
  refine ⟨answered 0x00#8 { t with dmem := reconstructedMemory d (addr d s) inv t }, ?_, rfl, fun c => ?_⟩
  · rw [hi.exec_eq (s := t) hFatal, decodeOwn_of_ready hAgain, reconstructOwn_of_matinv (s := t) (inv := inv) hInv,
      hAddr]
  · by_cases hc : ∃ e : Fin d.k.toNat, erasedAt s e = true ∧ Holds s (addr d s e) c
    · obtain ⟨e, he, hLow, hHigh⟩ := hc
      obtain ⟨b, rfl⟩ := Nat.exists_eq_add_of_le hLow
      have hb : b < s.len.toNat := Nat.lt_of_add_lt_add_left hHigh
      have hFirst := read_reconstructedMemory_inside (s := s) (fun _ => hi.source) inv he hb
      have hSecond := read_reconstructedMemory_inside (s := t) (addr := addr d s) (fun _ => hi.source) inv he hb
      refine hSecond.trans (Eq.trans ?_ hFirst.symm)
      exact combinedByte_congr fun j => read_reconstructedMemory_picked hi hReady inv j hb
    · exact read_reconstructedMemory_outside (s := t) inv fun e he hHolds => hc ⟨e, he, hHolds⟩

end Decode

/-- Settles O45: the second run passes the same tests, and no block it reads was written by the first. -/
theorem repeatingADataCommandChangesNothing : Obligations.RepeatingADataCommandChangesNothing := by
  intro i s t hWrites hExec hOk
  cases i with
  | encodeBlock p => exact exists_repeat_encodeBlock hExec hOk
  | decinl => exact exists_repeat_decode decodesAs_inl hExec hOk
  | decapp => exact exists_repeat_decode decodesAs_app hExec hOk
  | _ => cases hWrites

end Sys2Proof.Proofs
end
